-- ==== Sys2Proof/Word.lean ====
section
/-! DEFINITION. Word.lean: the word types of the block. Bytes move through the buffer ports (R70), registers are 32 bits wide
(R11), a prefix-table entry and the lookup window are 16 bits (R42), a token word is 24 bits (R102). -/

namespace Sys2Proof

/-- One byte of a buffer port, a symbol or a token's control (R70, R10). -/
abbrev Byte := BitVec 8

/-- A 16-bit value: a prefix-table entry, a window, a token's offset, a container tag (R42, R45, R106). -/
abbrev Half := BitVec 16

/-- A host-visible register (R11). -/
abbrev Word := BitVec 32

/-- A code space: 0 codes the control byte, 1 the offset low byte, 2 the offset high byte (R18). -/
abbrev CodeSpace := Fin 3

/-- An unbounded natural stored in a register: reduced mod 2^32 (R14). -/
def Word.store (n : Nat) : Word := BitVec.ofNat 32 n

end Sys2Proof
end

