-- ==== Sys2Proof/Config.lean ====
section
/-! DEFINITION. Config.lean: the fixed sizes of the block (R10, R11, R12) and the free values, which the spec leaves open. A free
value is an opaque constant: nothing in Lean knows its value, so a statement about it holds for every value. -/

namespace Sys2Proof.Config

/-- The reference value of MAX_TOKENS, which sets no limit (R12). -/
def refMaxTokens : Word := 0xFFFFFFFF#32

/-- What a byte of a host buffer that nothing has written reads as. DESIGN CHOICE, unsafe: log 4. -/
def unlistedByte : Byte := 0#8

/-- FREE VALUE: the entry at a slot of a prefix table that no build has written since reset (R44, U1). The first argument tells one
unspecified table from another. Safe: log 5. -/
opaque freeEntry : Nat → Nat → Half

/-- FREE VALUE: the token word at an index of the token store that no DECODE_TOKEN has written since reset (R46, U2). Safe: log 6. -/
opaque freeToken : Nat → Nat → BitVec 24

/-- FREE VALUE: whether a host read of OUT before the point of synchronisation shows the byte held before the run (R77, R78, U4). Safe:
log 10. -/
opaque outRace : Nat → Bool

/-- FREE VALUE: the front end's stream position after a front-end error, which the spec calls not defined (R265). Safe: log 13. -/
opaque freeStreamPos : Nat → Nat

end Sys2Proof.Config
end

