-- ==== Sys2Proof/Syntax.lean ====
section
/-! DEFINITION. Syntax.lean: the instructions, one constructor per row of spec/opcode_table.json. The block has no instruction words
(R2); its "instructions" are the three token kinds, the sequencer's operations, the host's register accesses and the front end's
chunk operations. -/

namespace Sys2Proof

/-- One constructor per row of the opcode table, in the table's order. -/
inductive Instr where
  /-- NOP: control = 0xFF and offset = 0 (R191). -/
  | nop
  /-- LIT n with n = control + 1: offset = 0 and control ≠ 0xFF (R192). -/
  | lit (control : Byte)
  /-- COPY n, d with n = control + 2 and d = offset ≠ 0 (R196). -/
  | copy (offset : Half) (control : Byte)
  /-- The BUILD step: BUILD_TABLE(BUILD_IDX) (R120, R229). -/
  | buildTable
  /-- The phase change after BUILD_TABLE(2), inside the same step (R234). -/
  | buildToDecode
  /-- The DECODE step: DECODE_TOKEN(TOK_IDX) (R170, R231). -/
  | decodeToken
  /-- DECODE_SYMBOL of one code space, called three times by DECODE_TOKEN (R150). -/
  | decodeSymbol (t : CodeSpace)
  /-- The phase change from DECODE to EXPAND (R232). -/
  | decodeToExpand
  /-- The EXPAND step: EXPAND_TOKEN(TOK_IDX), which dispatches to NOP, LIT or COPY (R190, R235). -/
  | expandToken
  /-- The completion of a run (R236). -/
  | complete
  /-- A host write of CTRL with bit 0 = 1; bits 31 to 1 are ignored (R22, R222, R223). -/
  | start
  /-- Any other host write of a register offset (R224, R225). -/
  | regWrite (offset data : Word)
  /-- A host read of a register offset (R221). -/
  | regRead (offset : Word)
  /-- The container's magic (R250). -/
  | magic
  /-- The segment start tag (R253). -/
  | soi
  /-- The table-definition chunk (R254). -/
  | dht
  /-- The compressed-data header and the compressed data (R255, R256). -/
  | b1
  /-- The literal-data header and the literal data (R257, R258). -/
  | b2
deriving DecidableEq, Repr

end Sys2Proof
end

