-- ==== Sys2Proof/WellFormed.lean ====
section
/-! DEFINITION. WellFormed.lean: which terms of `Instr` are instructions. The opcode table gives three rows a constraint: LIT's control
is not 0xFF (that word is NOP), COPY's offset is not 0 (that word is NOP or LIT), and a write of CTRL with bit 0 = 1 is START. -/

namespace Sys2Proof

/-- The register offset of CTRL (10_state.md section 2). -/
def ctrlOffset : Word := 0x00#32

/-- Whether a host write is a START command (R22). -/
def isStartWrite (offset data : Word) : Bool := decide (offset = ctrlOffset) && data.getLsbD 0

/-- The constraints of the opcode table's rows. -/
def Instr.wellFormed : Instr → Bool
  | .nop => true
  | .lit control => decide (control ≠ 0xFF#8)
  | .copy offset _ => decide (offset ≠ 0#16)
  | .buildTable => true
  | .buildToDecode => true
  | .decodeToken => true
  | .decodeSymbol _ => true
  | .decodeToExpand => true
  | .expandToken => true
  | .complete => true
  | .start => true
  | .regWrite offset data => !isStartWrite offset data
  | .regRead _ => true
  | .magic => true
  | .soi => true
  | .dht => true
  | .b1 => true
  | .b2 => true

/-- An instruction is well formed when its row's constraint holds. -/
abbrev Instr.WellFormed (i : Instr) : Prop := i.wellFormed = true

end Sys2Proof
end

