-- ==== Sys2Proof/Decode.lean ====
section
/-! DEFINITION. Decode.lean: from the encodings of 30_encoding.md and the opcode table's match and mask columns to instructions, and
the encoder back. Five kinds of encoding select an operation: a token's three symbols (R102, R103), container bytes (R106), a
sequencer selection (R228), a codeword's table entry (R98, R99) and a host access (R221 to R225). -/

namespace Sys2Proof

/-- Why bits are no instruction. -/
inductive DecodeError where
  /-- Fewer bytes than the format needs. -/
  | truncated
  /-- Four bytes that are not the magic (R250). -/
  | badMagic
  /-- A 16-bit value that is none of the four container tags (R106). -/
  | unknownTag
  /-- No sequencer rule applies to the selection (R227, R228). -/
  | noSequencerRule
  /-- The window selects the sentinel: no codeword (R96). -/
  | sentinel
deriving DecidableEq, Repr

/-- The byte formats of the opcode table. -/
inductive Format where
  /-- Three symbols in decode order: control, offset low byte, offset high byte (R100, R102). -/
  | token24
  /-- A big-endian 16-bit tag (R65, R106). -/
  | tag16
  /-- The four bytes of the magic (R250). -/
  | containerBytes
deriving DecidableEq, Repr

/-- What selects a sequencer operation: STATUS.STATE, whether the step's BUILD_TABLE(2) has completed, and how TOK_IDX compares with
TOK_COUNT (R228, R234; the match column of the sequencer rows). -/
structure Selection where
  state : BitVec 3
  built : Bool
  index : Ordering
deriving DecidableEq, Repr

/-- One encoding of an instruction (DESIGN CHOICE: log 19). -/
inductive Code where
  /-- Bytes of one of the byte formats. -/
  | bytes (f : Format) (bs : List Byte)
  /-- A sequencer selection. -/
  | sequencer (sel : Selection)
  /-- A table entry found by a lookup in the table of one code space. -/
  | codeword (t : CodeSpace) (entry : Half)
  /-- A host write at a register offset. -/
  | hostWrite (offset data : Word)
  /-- A host read at a register offset. -/
  | hostRead (offset : Word)
deriving DecidableEq, Repr

/-- The token word offset ‖ control (R102). -/
def tokenWord (offset : Half) (control : Byte) : BitVec 24 := offset ++ control

/-- Bits 23 to 8 of a token word (R102). -/
def tokenWordOffset (w : BitVec 24) : Half := w.extractLsb' 8 16

/-- Bits 7 to 0 of a token word (R102). -/
def tokenWordControl (w : BitVec 24) : Byte := w.extractLsb' 0 8

/-- The token kinds, tested in the order NOP, LIT, COPY (R103). -/
def decodeTokenFields (offset : Half) (control : Byte) : Instr :=
  if offset = 0#16 ∧ control = 0xFF#8 then .nop
  else if offset = 0#16 then .lit control
  else .copy offset control

/-- Every token word is an instruction (R105). -/
def decodeTokenWord (w : BitVec 24) : Instr := decodeTokenFields (tokenWordOffset w) (tokenWordControl w)

/-- The ASCII bytes "CROM" as one big-endian word (R106, R250; PRESUMED by the spec itself, G1: log 26). -/
def magicWord : Word := 0x43524F4D#32

/-- The container tags (R106). -/
def soiTag : Half := 0xFFD8#16
/-- The table-definition tag (R106). -/
def dhtTag : Half := 0xFFC4#16
/-- The compressed-data header's tag (R106). -/
def b1Tag : Half := 0xFFB1#16
/-- The literal-data header's tag (R106). -/
def b2Tag : Half := 0xFFB2#16

/-- A container tag names its chunk (R106). -/
def decodeTag (w : Half) : Except DecodeError Instr :=
  if w = soiTag then .ok .soi
  else if w = dhtTag then .ok .dht
  else if w = b1Tag then .ok .b1
  else if w = b2Tag then .ok .b2
  else .error .unknownTag

/-- The magic, or an error (R250). -/
def decodeMagic (w : Word) : Except DecodeError Instr :=
  if w = magicWord then .ok .magic else .error .badMagic

/-- The sequencer's transition table (R228, R232, R234, R236). -/
def decodeSelection (sel : Selection) : Except DecodeError Instr :=
  if sel.state = 1#3 then .ok (if sel.built then .buildToDecode else .buildTable)
  else if sel.state = 2#3 then
    match sel.index with
    | .lt => .ok .decodeToken
    | .eq => .ok .decodeToExpand
    | .gt => .error .noSequencerRule
  else if sel.state = 3#3 then
    match sel.index with
    | .lt => .ok .expandToken
    | .eq => .ok .complete
    | .gt => .error .noSequencerRule
  else .error .noSequencerRule

/-- A lookup that does not find the sentinel selects DECODE_SYMBOL (R99, R154). -/
def decodeCodeword (t : CodeSpace) (entry : Half) : Except DecodeError Instr :=
  if entry = 0#16 then .error .sentinel else .ok (.decodeSymbol t)

/-- A host write is START or a register write (R22, R224). -/
def decodeHostWrite (offset data : Word) : Instr :=
  if isStartWrite offset data then .start else .regWrite offset data

/-- A field of bytes, most significant byte first (R251). -/
def bigEndian (bs : List Byte) : Nat := bs.foldl (fun acc b => acc * 256 + b.toNat) 0

/-- A 16-bit container field (R251). -/
def beHalf (bs : List Byte) : Half := BitVec.ofNat 16 (bigEndian bs)

/-- A 32-bit container field (R251). -/
def beWord (bs : List Byte) : Word := BitVec.ofNat 32 (bigEndian bs)

/-- Decoding of bytes: the instruction and the rest of the bytes, or the error's name. -/
def decodeBytes (f : Format) (bs : List Byte) : Except DecodeError (Instr × List Byte) :=
  match f, bs with
  | .token24, control :: lo :: hi :: rest => .ok (decodeTokenFields (hi ++ lo) control, rest)
  | .token24, _ => .error .truncated
  | .tag16, b0 :: b1 :: rest => (decodeTag (b0 ++ b1)).map fun i => (i, rest)
  | .tag16, _ => .error .truncated
  | .containerBytes, b0 :: b1 :: b2 :: b3 :: rest => (decodeMagic (b0 ++ b1 ++ b2 ++ b3)).map fun i => (i, rest)
  | .containerBytes, _ => .error .truncated

/-- Decoding, total on every encoding. -/
def decode : Code → Except DecodeError Instr
  | .bytes f bs => (decodeBytes f bs).map Prod.fst
  | .sequencer sel => decodeSelection sel
  | .codeword t entry => decodeCodeword t entry
  | .hostWrite offset data => .ok (decodeHostWrite offset data)
  | .hostRead offset => .ok (.regRead offset)

/-- The three symbols of a token in decode order: control, offset low byte, offset high byte (R100, R171). -/
def tokenBytes (offset : Half) (control : Byte) : List Byte :=
  [control, offset.extractLsb' 0 8, offset.extractLsb' 8 8]

/-- A 16-bit field as big-endian bytes (R65). -/
def halfBytes (w : Half) : List Byte := [w.extractLsb' 8 8, w.extractLsb' 0 8]

/-- A 32-bit field as big-endian bytes (R65). -/
def wordBytes (w : Word) : List Byte :=
  [w.extractLsb' 24 8, w.extractLsb' 16 8, w.extractLsb' 8 8, w.extractLsb' 0 8]

/-- The encoder, from the opcode table's match column. DECODE_SYMBOL's entry is written as the length-1 entry of symbol 0, one of the
entries that select it; START's ignored bits are written as 0 (log 18). -/
def encode : Instr → Code
  | .nop => .bytes .token24 (tokenBytes 0#16 0xFF#8)
  | .lit control => .bytes .token24 (tokenBytes 0#16 control)
  | .copy offset control => .bytes .token24 (tokenBytes offset control)
  | .buildTable => .sequencer ⟨1#3, false, .eq⟩
  | .buildToDecode => .sequencer ⟨1#3, true, .eq⟩
  | .decodeToken => .sequencer ⟨2#3, false, .lt⟩
  | .decodeSymbol t => .codeword t 0x0100#16
  | .decodeToExpand => .sequencer ⟨2#3, false, .eq⟩
  | .expandToken => .sequencer ⟨3#3, false, .lt⟩
  | .complete => .sequencer ⟨3#3, false, .eq⟩
  | .start => .hostWrite ctrlOffset 1#32
  | .regWrite offset data => .hostWrite offset data
  | .regRead offset => .hostRead offset
  | .magic => .bytes .containerBytes (wordBytes magicWord)
  | .soi => .bytes .tag16 (halfBytes soiTag)
  | .dht => .bytes .tag16 (halfBytes dhtTag)
  | .b1 => .bytes .tag16 (halfBytes b1Tag)
  | .b2 => .bytes .tag16 (halfBytes b2Tag)

/-- An instruction of the table, given as the table numbers its bits: 24 bits are a token word, 16 a tag, 32 the magic. The words are
laid out as the streams carry them and given to `decodeBytes`. -/
def decodeTableWord (nbits w : Nat) : Option Instr :=
  let laidOut : Option (Format × List Byte) :=
    if nbits = 24 then
      let t := BitVec.ofNat 24 w
      some (.token24, tokenBytes (tokenWordOffset t) (tokenWordControl t))
    else if nbits = 16 then some (.tag16, halfBytes (BitVec.ofNat 16 w))
    else if nbits = 32 then some (.containerBytes, wordBytes (BitVec.ofNat 32 w))
    else none
  match laidOut with
  | none => none
  | some (f, bs) =>
    match decodeBytes f bs with
    | .ok (i, _) => some i
    | .error _ => none

end Sys2Proof
end

