-- ==== Sys2Proof/Machine/State.lean ====
section
/-! DEFINITION. State.lean: everything the spec gives the machine, as plain data (10_state.md, 20_memory.md R60), the host-side state
of the front end (45_container_frontend.md), and the model's own fields, marked as such. -/

namespace Sys2Proof.Machine

/-- STATUS.STATE; the reserved values 6 and 7 are not in the type, so they are never produced (R23, R107). -/
inductive Phase where
  /-- 0: no run since reset. -/
  | idle
  /-- 1: building prefix table BUILD_IDX. -/
  | build
  /-- 2: decoding token TOK_IDX. -/
  | decode
  /-- 3: expanding token TOK_IDX. -/
  | expand
  /-- 4: the last run completed without a fatal error. -/
  | done
  /-- 5: the last run ended with the fatal error in ERR_KIND. -/
  | error
deriving DecidableEq, Repr

/-- ERR_KIND; the reserved codes 0x09 to 0xFF are not in the type (R281). -/
inductive ErrKind where
  /-- 0x00: no error. -/
  | none
  /-- 0x01: a table-definition record runs past HT_LEN. -/
  | htTruncated
  /-- 0x02: a canonical code does not fit its length. -/
  | tableOversubscribed
  /-- 0x03: TOK_COUNT > MAX_TOKENS. -/
  | tokenCapacity
  /-- 0x04: a lookup found the sentinel. -/
  | invalidPrefixCode
  /-- 0x05: a codeword would end past the last CD bit. -/
  | outOfCompressedData
  /-- 0x06: too few literal bytes remain. -/
  | outOfLiteralData
  /-- 0x07: a back-reference reaches before the output. -/
  | invalidReference
  /-- 0x08: a token's bytes would pass OUT_CAP. -/
  | outputOverflow
deriving DecidableEq, Repr

/-- Memory of one buffer port: (index, byte) pairs with strictly rising indices, none equal to what an unlisted index reads as. -/
abbrev Memory := List Host.Cell

/-- What the slots outside a table's fills hold: the sentinel, or values the spec leaves unspecified (R44, R122). -/
inductive TableBase where
  /-- Every slot was set to 0 by a build (R122). -/
  | sentinel
  /-- No build since reset: free values, told apart by the seed. -/
  | unspecified (seed : Nat)
deriving DecidableEq, Repr

/-- One fill of contiguous slots with one entry (R127). -/
structure Fill where
  first : Nat
  count : Nat
  entry : Half
deriving DecidableEq, Repr

/-- A prefix table of 65536 entries: its fills, newest first, over its base (R42; log 17). -/
structure Table where
  base : TableBase
  fills : List Fill
deriving DecidableEq, Repr

/-- A token: control and offset (R45). -/
structure Token where
  control : Byte
  offset : Half
deriving DecidableEq, Repr

/-- The token store: the written (index, token) pairs with strictly rising indices; an index not listed holds a free value told apart
by the seed (R45, R46; log 6). -/
structure TokenStore where
  written : List (Nat × Token)
  seed : Nat
deriving DecidableEq, Repr

/-- The four buffer ports (R60). -/
inductive Port where
  | ht
  | cd
  | lit
  | out
deriving DecidableEq, Repr

/-- Front-end errors (R282). -/
inductive FeError where
  /-- 0x10 FE_BAD_MAGIC. -/
  | badMagic
  /-- 0x11 FE_TRUNCATED_INPUT. -/
  | truncatedInput
  /-- 0x12 FE_BAD_LENGTH. -/
  | badLength
deriving DecidableEq, Repr

/-- Front-end warnings (R260). -/
inductive FeWarning where
  | soiTag
  | dhtTag
  | b1Tag
  | b1Len
  | b2Tag
  | b2Len
deriving DecidableEq, Repr

/-- Where the front end stands: the chunk it reads next, or its result (R253 to R265). -/
inductive FePhase where
  /-- Before the magic. -/
  | magic
  /-- Before a segment's start tag. -/
  | soi
  /-- Before the table-definition chunk. -/
  | dht
  /-- Before the compressed-data header. -/
  | b1
  /-- Before the literal-data header. -/
  | b2
  /-- A segment is read to completion (R263, R264). -/
  | ready
  /-- That segment was handed to the block (R263). -/
  | taken
  /-- No byte was left after a segment (R262). -/
  | ended
  /-- A front-end error ended the stream's decode (R265). -/
  | failed (e : FeError)
deriving DecidableEq, Repr

/-- Host-side state of the container front end; no state of the block (R6; log 12). -/
structure FrontEnd where
  phase : FePhase
  stream : List Byte
  pos : Nat
  warnings : List FeWarning
  htBytes : List Byte
  cdBytes : List Byte
  litBytes : List Byte
  tokN : Word
deriving DecidableEq, Repr

/-- What the host does next (R220 to R226, R310, R313; log 2). -/
inductive HostMove where
  /-- Read the word at a register offset (R221). -/
  | read (offset : Word)
  /-- Write the word at a register offset (R222 to R225). -/
  | write (offset data : Word)
  /-- Write one byte of a buffer; only while the block is idle (R76, R320). -/
  | fill (port : Port) (index : Nat) (value : Byte)
  /-- Read one byte of a buffer, at any time (R220, R71; of OUT: R77). -/
  | peek (port : Port) (index : Nat)
  /-- The front end's next chunk, or its end-of-input check after a segment (R253 to R262). -/
  | parse
  /-- When the block is idle and a segment is ready: load its buffers, program the registers, write START (R226, R313). -/
  | decodeSegment (outCap : Word)
  /-- Leave the block one step (R239). -/
  | wait
  /-- Poll STATUS until the block is idle (R313). -/
  | await
  /-- Reset the block (R310, R311). -/
  | reset
deriving DecidableEq, Repr

/-- The state of the block, its buffers, the front end and the model's own bookkeeping. -/
structure State where
  /-- STATUS.STATE (R23). -/
  phase : Phase
  /-- ERR_KIND (R24). -/
  errKind : ErrKind
  /-- ERR_INDEX (R25). -/
  errIndex : Word
  /-- ERR_TABLE (R26). -/
  errTable : CodeSpace
  /-- WARN (R27). -/
  warn : BitVec 3
  /-- HT_LEN (R28). -/
  htLen : Word
  /-- CD_LEN (R29). -/
  cdLen : Word
  /-- TOK_COUNT (R30). -/
  tokCount : Word
  /-- LIT_LEN (R31). -/
  litLen : Word
  /-- OUT_CAP (R32). -/
  outCap : Word
  /-- OUT_LEN (R33). -/
  outLen : Word
  /-- BUILD_IDX (R34). -/
  buildIdx : CodeSpace
  /-- TOK_IDX (R35). -/
  tokIdx : Word
  /-- HT_POS (R36). -/
  htPos : Word
  /-- cdpos, shown as CD_POS (R37, R47). -/
  cdPos : Nat
  /-- bitcnt, shown as BIT_CNT (R38, R47). -/
  bitCnt : BitVec 5
  /-- bitbuf, shown as BIT_BUF (R39, R47). -/
  bitBuf : Word
  /-- LIT_POS (R40). -/
  litPos : Word
  /-- Prefix table T[0] (R42). -/
  t0 : Table
  /-- Prefix table T[1] (R42). -/
  t1 : Table
  /-- Prefix table T[2] (R42). -/
  t2 : Table
  /-- The token store TOK (R45). -/
  tok : TokenStore
  /-- The HT buffer (R60). -/
  ht : Memory
  /-- The CD buffer (R60). -/
  cd : Memory
  /-- The LIT buffer (R60). -/
  lit : Memory
  /-- The OUT buffer (R60). -/
  out : Memory
  /-- The parameter MAX_TOKENS, which no step writes (R12; log 7). -/
  maxTokens : Word
  /-- The front end (log 12). -/
  fe : FrontEnd
  /-- MODEL'S OWN: the symbol the last DECODE_SYMBOL returned (log 8). -/
  symOut : Byte
  /-- MODEL'S OWN: the word the host's last register read returned (log 9). -/
  hostData : Word
  /-- MODEL'S OWN: the byte the host's last read of a buffer returned (log 9). -/
  hostByte : Byte
  /-- MODEL'S OWN: OUT as it stood at the last accepted START (log 10). -/
  outBefore : Memory
  /-- MODEL'S OWN: a host read of STATUS has returned DONE or ERROR for the last run, so OUT is defined to the host (R77, R78, R321; log
  10). -/
  outSynced : Bool
  /-- MODEL'S OWN: the host's future moves (log 2). -/
  agenda : List HostMove
  /-- MODEL'S OWN: the number of the next free value (log 10). -/
  free : Nat
deriving DecidableEq, Repr

/-- Why the machine stops. -/
inductive Fault where
  /-- Raised by a block step in a busy state to which no sequencer rule applies (TOK_IDX > TOK_COUNT), which no run reaches
  (R35, R227; log 14). Safe. -/
  | noSequencerRule
deriving DecidableEq, Repr

/-- Why a step has no meaning. -/
inductive Refusal where
  /-- An instruction without a meaning in this model. No arm of `exec` answers it. Safe. -/
  | notModelled (mnemonic : String)
  /-- Raised by a host move that writes a buffer while the block is busy: the spec gives a model no such move (R320, U8; log 11).
  Safe. -/
  | bufferWriteWhileBusy
deriving DecidableEq, Repr

/-- The front end before its input: nothing read, at the magic (log 12). -/
def FrontEnd.initial : FrontEnd :=
  { phase := .magic, stream := [], pos := 0, warnings := [], htBytes := [], cdBytes := [], litBytes := [], tokN := 0#32 }

/-- The machine right after reset: every register 0, STATE = IDLE, the bit cursor empty, the prefix tables and the token store
unspecified, no buffer byte listed (R310). -/
def State.reset : State :=
  { phase := .idle, errKind := .none, errIndex := 0#32, errTable := 0, warn := 0#3
    htLen := 0#32, cdLen := 0#32, tokCount := 0#32, litLen := 0#32, outCap := 0#32, outLen := 0#32
    buildIdx := 0, tokIdx := 0#32, htPos := 0#32, cdPos := 0, bitCnt := 0#5, bitBuf := 0#32, litPos := 0#32
    t0 := ⟨.unspecified 0, []⟩, t1 := ⟨.unspecified 1, []⟩, t2 := ⟨.unspecified 2, []⟩, tok := ⟨[], 3⟩
    ht := [], cd := [], lit := [], out := []
    maxTokens := Config.refMaxTokens
    fe := FrontEnd.initial
    symOut := 0#8, hostData := 0#32, hostByte := 0#8, outBefore := [], outSynced := true, agenda := [], free := 4 }

end Sys2Proof.Machine
end

