-- ==== Sys2Proof/Machine/Flags.lean ====
section
/-! DEFINITION. Flags.lean: the block's only flags, STATUS.STATE and WARN (R20), and the codes software reads them and the errors by. -/

namespace Sys2Proof.Machine

/-- STATUS.STATE as software reads it (R23). -/
def Phase.code : Phase → BitVec 3
  | .idle => 0#3
  | .build => 1#3
  | .decode => 2#3
  | .expand => 3#3
  | .done => 4#3
  | .error => 5#3

/-- The block is busy in BUILD, DECODE and EXPAND, and idle otherwise (R21). -/
def Phase.busy : Phase → Bool
  | .build => true
  | .decode => true
  | .expand => true
  | .idle => false
  | .done => false
  | .error => false

/-- The block is busy (R21). -/
def State.busy (s : State) : Bool := s.phase.busy

/-- ERR_KIND as software reads it (R281). -/
def ErrKind.code : ErrKind → BitVec 8
  | .none => 0x00#8
  | .htTruncated => 0x01#8
  | .tableOversubscribed => 0x02#8
  | .tokenCapacity => 0x03#8
  | .invalidPrefixCode => 0x04#8
  | .outOfCompressedData => 0x05#8
  | .outOfLiteralData => 0x06#8
  | .invalidReference => 0x07#8
  | .outputOverflow => 0x08#8

/-- The front end's error codes, in the same numbering (R282). -/
def FeError.code : FeError → BitVec 8
  | .badMagic => 0x10#8
  | .truncatedInput => 0x11#8
  | .badLength => 0x12#8

/-- The WARN bit of a code space (R27). -/
def warnMask (k : CodeSpace) : BitVec 3 := 1#3 <<< k.val

/-- WARN <- w. -/
def State.setWarn (s : State) (w : BitVec 3) : State := { s with warn := w }

/-- warn(k): set WARN bit k and change nothing else (R291). -/
def State.raiseWarning (s : State) (k : CodeSpace) : State := s.setWarn (s.warn ||| warnMask k)

/-- The identifier byte expected of a code space's record, 0xF0 + k (R91). -/
def identifier (k : CodeSpace) : Byte := 0xF0#8 + BitVec.ofNat 8 k.val

/-- The identifier check of a build: a mismatch only warns (R123). -/
def State.checkIdentifier (s : State) (k : CodeSpace) (id : Byte) : State :=
  if id = identifier k then s else s.raiseWarning k

end Sys2Proof.Machine
end

