-- ==== Sys2Proof/Machine/Operands.lean ====
section
/-! DEFINITION. Operands.lean: the operand forms: a token's fields, lengths and distance (R102 to R104), a table entry and a codeword's
slots (R95, R98), the counts of a table-definition record (R90 to R93), the lookup window (R153), the register map (10_state.md
section 2). -/

namespace Sys2Proof.Machine

/-- The token a token word stands for (R102). -/
def Token.ofWord (w : BitVec 24) : Token := ⟨tokenWordControl w, tokenWordOffset w⟩

/-- The word of a token (R102). -/
def Token.word (t : Token) : BitVec 24 := tokenWord t.offset t.control

/-- The instruction a token stands for (R103). -/
def Token.instr (t : Token) : Instr := decodeTokenFields t.offset t.control

/-- LIT's byte count, control + 1 (R104). -/
def litLength (control : Byte) : Nat := control.toNat + 1

/-- COPY's byte count, control + 2 (R104). -/
def copyLength (control : Byte) : Nat := control.toNat + 2

/-- COPY's distance (R104). -/
def copyDistance (offset : Half) : Nat := offset.toNat

/-- A token's offset from its two symbols: the code-space-1 symbol is the low byte (R171). -/
def offsetOf (lo hi : Byte) : Half := hi ++ lo

/-- A prefix-table entry LEN ‖ SYM (R95, R126). -/
def entryOf (len : Nat) (sym : Byte) : Half := BitVec.ofNat 8 len ++ sym

/-- LEN of an entry (R95). -/
def entryLength (e : Half) : Nat := (e.extractLsb' 8 8).toNat

/-- SYM of an entry (R95). -/
def entrySymbol (e : Half) : Byte := e.extractLsb' 0 8

/-- The first slot of the codeword of value C and length L (R98). -/
def firstSlot (code len : Nat) : Nat := code * 2 ^ (16 - len)

/-- How many slots a codeword of length L claims (R98). -/
def slotCount (len : Nat) : Nat := 2 ^ (16 - len)

/-- The sum S of the count bytes (R124). -/
def countSum (counts : List Byte) : Nat := (counts.map BitVec.toNat).sum

/-- The count bytes with the lengths they count: COUNT[L] is the L-th count byte (R92, C1). -/
def lengthCounts (counts : List Byte) : List (Nat × Nat) :=
  (List.range' 1 16).zip (counts.map BitVec.toNat)

/-- The lookup window: the top 16 buffered bits of the accumulator (R153). -/
def lookupWindow (bitBuf : Word) (bitCnt : BitVec 5) : Half := (bitBuf >>> (bitCnt.toNat - 16)).setWidth 16

/-- The registers of the register map. -/
inductive Reg where
  | ctrl
  | status
  | errKind
  | errIndex
  | errTable
  | warn
  | htLen
  | cdLen
  | tokCount
  | litLen
  | outCap
  | outLen
  | buildIdx
  | tokIdx
  | htPos
  | cdPos
  | bitCnt
  | bitBuf
  | litPos
deriving DecidableEq, Repr

/-- The register map of 10_state.md section 2. -/
def regMap : List (Word × Reg) :=
  [(0x00#32, .ctrl), (0x04#32, .status), (0x08#32, .errKind), (0x0C#32, .errIndex), (0x10#32, .errTable), (0x14#32, .warn),
   (0x18#32, .htLen), (0x1C#32, .cdLen), (0x20#32, .tokCount), (0x24#32, .litLen), (0x28#32, .outCap), (0x2C#32, .outLen),
   (0x30#32, .buildIdx), (0x34#32, .tokIdx), (0x38#32, .htPos), (0x3C#32, .cdPos), (0x40#32, .bitCnt), (0x44#32, .bitBuf),
   (0x48#32, .litPos)]

/-- The register at an offset, if the offset is mapped (R41). -/
def regAt (offset : Word) : Option Reg := (regMap.find? fun p => p.1 = offset).map Prod.snd

end Sys2Proof.Machine
end

