-- ==== Sys2Proof/Machine/Ops.lean ====
section
/-! DEFINITION. Ops.lean: the named operations over memory, tables, the token store and the registers; raising a fatal error (R284),
START (R222), reset (R310); the front end's reads (R251, R252) and its error entry (R265). -/

namespace Sys2Proof.Machine

/-- The outcome type of this machine. -/
abbrev Outcome := Host.Outcome State Fault Refusal

/-- How an operation ends: it completes with a result, or an error was raised, after which it writes nothing more (R16). -/
inductive Res (α : Type) where
  | done (a : α) (s : State)
  | fatal (s : State)

/-- Go on with the next part of an operation unless an error was raised (R16). -/
def Res.andThen {α β : Type} (r : Res α) (f : α → State → Res β) : Res β :=
  match r with
  | .done a s => f a s
  | .fatal s => .fatal s

/-- The end of a step: what follows a completed operation; an error entry is a next state too (R284). -/
def Res.finish {α : Type} (r : Res α) (f : State → State) : Outcome :=
  match r with
  | .done _ s => .next (f s)
  | .fatal s => .next s

/-! ## Buffer memory -/

/-- The byte at an index (R70, R71). -/
def Memory.read : Memory → Nat → Byte
  | [], _ => Config.unlistedByte
  | (k, b) :: rest, a => if k = a then b else Memory.read rest a

/-- A cell to list, unless the byte is what an unlisted index reads as. -/
def Memory.cell (a : Nat) (v : Byte) : Memory := if v = Config.unlistedByte then [] else [(a, v)]

/-- Write one byte, keeping the canonical form (R70). -/
def Memory.write : Memory → Nat → Byte → Memory
  | [], a, v => Memory.cell a v
  | (k, b) :: rest, a, v =>
    if a < k then Memory.cell a v ++ (k, b) :: rest
    else if a = k then Memory.cell a v ++ rest
    else (k, b) :: Memory.write rest a v

/-- The canonical form from a lowest index on. -/
def Memory.wfFrom : Nat → Memory → Bool
  | _, [] => true
  | lo, (k, b) :: rest => decide (lo ≤ k) && decide (b ≠ Config.unlistedByte) && Memory.wfFrom (k + 1) rest

/-- The canonical form: strictly rising indices and no byte equal to what an unlisted index reads as. -/
def Memory.wf (m : Memory) : Bool := Memory.wfFrom 0 m

/-- Write bytes at rising indices. -/
def Memory.writeBytes : Memory → Nat → List Byte → Memory
  | m, _, [] => m
  | m, a, b :: bs => Memory.writeBytes (m.write a b) (a + 1) bs

/-- Read bytes at rising indices. -/
def Memory.readBytes (m : Memory) (a n : Nat) : List Byte := (List.range n).map fun j => m.read (a + j)

/-! ## Prefix tables -/

/-- The base value of a slot. -/
def TableBase.read (b : TableBase) (slot : Nat) : Half :=
  match b with
  | .sentinel => 0#16
  | .unspecified seed => Config.freeEntry seed slot

/-- The newest fill that covers a slot decides; otherwise the base. -/
def readFills (b : TableBase) : List Fill → Nat → Half
  | [], slot => b.read slot
  | f :: fs, slot => if f.first ≤ slot ∧ slot < f.first + f.count then f.entry else readFills b fs slot

/-- T[k][w] (R42). -/
def Table.read (t : Table) (w : Half) : Half := readFills t.base t.fills w.toNat

/-- All 65536 slots set to the sentinel (R122). -/
def Table.cleared : Table := ⟨.sentinel, []⟩

/-- Write an entry into contiguous slots (R127). -/
def Table.fill (t : Table) (first count : Nat) (e : Half) : Table := { t with fills := ⟨first, count, e⟩ :: t.fills }

/-- Prefix table T[k]. -/
def State.table (s : State) (k : CodeSpace) : Table :=
  match k with
  | 0 => s.t0
  | 1 => s.t1
  | 2 => s.t2

/-- Replace prefix table T[k]. -/
def State.setTable (s : State) (k : CodeSpace) (t : Table) : State :=
  match k with
  | 0 => { s with t0 := t }
  | 1 => { s with t1 := t }
  | 2 => { s with t2 := t }

/-- HT_POS <- p (R36). -/
def State.setHtPos (s : State) (p : Word) : State := { s with htPos := p }

/-! ## Token store -/

/-- The written token at an index, if any. -/
def findToken : List (Nat × Token) → Nat → Option Token
  | [], _ => none
  | (k, t) :: rest, i => if k = i then some t else findToken rest i

/-- Insert at an index, keeping indices strictly rising. -/
def insertToken : List (Nat × Token) → Nat → Token → List (Nat × Token)
  | [], i, t => [(i, t)]
  | (k, u) :: rest, i, t =>
    if i < k then (i, t) :: (k, u) :: rest
    else if i = k then (i, t) :: rest
    else (k, u) :: insertToken rest i t

/-- TOK[i]; an index not written since reset holds a free value (R46; log 6), and one written in an earlier run keeps that token, also
where the spec admits any value, at TOK_COUNT and above (U2; DESIGN CHOICE: log 30). -/
def TokenStore.read (ts : TokenStore) (i : Nat) : Token :=
  match findToken ts.written i with
  | some t => t
  | none => Token.ofWord (Config.freeToken ts.seed i)

/-- TOK[i] <- t (R45). -/
def TokenStore.write (ts : TokenStore) (i : Nat) (t : Token) : TokenStore :=
  { ts with written := insertToken ts.written i t }

/-- TOK[i] has been written since reset. -/
def TokenStore.holds (ts : TokenStore) (i : Nat) : Bool := (findToken ts.written i).isSome

/-- The canonical form of the token store from a lowest index on. -/
def tokensWfFrom : Nat → List (Nat × Token) → Bool
  | _, [] => true
  | lo, (k, _) :: rest => decide (lo ≤ k) && tokensWfFrom (k + 1) rest

/-- The canonical form of the token store: strictly rising indices. -/
def TokenStore.wf (ts : TokenStore) : Bool := tokensWfFrom 0 ts.written

/-! ## Errors, START, reset -/

/-- raise Fatal(KIND, index, table): record the error, STATE <- ERROR, nothing else (R284). There is no return from it: only START and
reset leave ERROR (R287). -/
def State.raiseFatal (s : State) (kind : ErrKind) (index : Word) (table : CodeSpace) : State :=
  { s with errKind := kind, errIndex := index, errTable := table, phase := .error }

/-- The context index of a build error: the code space (R285). -/
def spaceIndex (k : CodeSpace) : Word := Word.store k.val

/-- TOK_IDX <- TOK_IDX + 1, after a token's operation completed (R231, R235). -/
def State.advanceToken (s : State) : State := { s with tokIdx := s.tokIdx + 1#32 }

/-- An accepted START (R222). `outBefore` and `outSynced` are the model's own (log 10). -/
def State.beginRun (s : State) : State :=
  { s with
    errKind := .none, errIndex := 0#32, errTable := 0, warn := 0#3
    outLen := 0#32, litPos := 0#32, htPos := 0#32, buildIdx := 0, tokIdx := 0#32
    cdPos := 0, bitBuf := 0#32, bitCnt := 0#5
    phase := .build
    outBefore := s.out, outSynced := false }

/-- A START command: accepted while idle, ignored while busy (R222, R223). -/
def State.startCommand (s : State) : State := if s.busy then s else s.beginRun

/-- The block's reset: registers and cursor as R310 says, tables and token store unspecified again, buffers, MAX_TOKENS and the host's
side untouched (R310, R311; DESIGN CHOICE: log 25). -/
def State.resetBlock (s : State) : State :=
  { State.reset with
    t0 := ⟨.unspecified s.free, []⟩, t1 := ⟨.unspecified (s.free + 1), []⟩, t2 := ⟨.unspecified (s.free + 2), []⟩
    tok := ⟨[], s.free + 3⟩
    ht := s.ht, cd := s.cd, lit := s.lit, out := s.out
    maxTokens := s.maxTokens, fe := s.fe, symOut := s.symOut, hostData := s.hostData, hostByte := s.hostByte
    outBefore := s.outBefore, outSynced := s.outSynced, agenda := s.agenda, free := s.free + 4 }

/-! ## The register port -/

/-- The word a register reads as; unused bits read 0 (R22 to R40). -/
def State.regValue (s : State) : Reg → Word
  | .ctrl => 0#32
  | .status => s.phase.code.setWidth 32
  | .errKind => s.errKind.code.setWidth 32
  | .errIndex => s.errIndex
  | .errTable => Word.store s.errTable.val
  | .warn => s.warn.setWidth 32
  | .htLen => s.htLen
  | .cdLen => s.cdLen
  | .tokCount => s.tokCount
  | .litLen => s.litLen
  | .outCap => s.outCap
  | .outLen => s.outLen
  | .buildIdx => Word.store s.buildIdx.val
  | .tokIdx => s.tokIdx
  | .htPos => s.htPos
  | .cdPos => Word.store s.cdPos
  | .bitCnt => s.bitCnt.setWidth 32
  | .bitBuf => s.bitBuf
  | .litPos => s.litPos

/-- A host read: unmapped offsets read 0 (R41, R221); the value is that of the current step boundary (DEDUCED: log 28). -/
def State.readWord (s : State) (offset : Word) : Word :=
  match regAt offset with
  | some r => s.regValue r
  | none => 0#32

/-- The offset of STATUS (10_state.md section 2). -/
def statusOffset : Word := 0x04#32

/-- The host has read STATUS: where it returned DONE or ERROR, every OUT write of the run is visible from now on (R78). -/
def State.seeStatus (s : State) : State :=
  { s with outSynced := s.outSynced || (decide (s.phase = .done) || decide (s.phase = .error)) }

/-- A host read of a register: the word goes to the host, and a read of STATUS is the point of synchronisation (R221, R78; logs 9, 10). -/
def State.hostReadReg (s : State) (offset : Word) : State :=
  let t := { s with hostData := s.readWord offset }
  if offset = statusOffset then t.seeStatus else t

/-- A host write of a register while idle: the five RW registers store the word, CTRL starts a run when bit 0 is 1, the others ignore it
(R22, R224, R225). -/
def State.writeReg (s : State) (r : Reg) (data : Word) : State :=
  match r with
  | .ctrl => if data.getLsbD 0 then s.startCommand else s
  | .htLen => { s with htLen := data }
  | .cdLen => { s with cdLen := data }
  | .tokCount => { s with tokCount := data }
  | .litLen => { s with litLen := data }
  | .outCap => { s with outCap := data }
  | .status => s
  | .errKind => s
  | .errIndex => s
  | .errTable => s
  | .warn => s
  | .outLen => s
  | .buildIdx => s
  | .tokIdx => s
  | .htPos => s
  | .cdPos => s
  | .bitCnt => s
  | .bitBuf => s
  | .litPos => s

/-- A host write: ignored while busy and at unmapped offsets (R41, R223 to R225). -/
def State.writeWord (s : State) (offset data : Word) : State :=
  if s.busy then s
  else
    match regAt offset with
    | some r => s.writeReg r data
    | none => s

/-! ## The buffers, seen by the host -/

/-- The host writes one byte of a buffer (R60). It sees its own write of OUT, so that byte also counts as held before the run (log 10). -/
def State.fillByte (s : State) (p : Port) (i : Nat) (v : Byte) : State :=
  match p with
  | .ht => { s with ht := s.ht.write i v }
  | .cd => { s with cd := s.cd.write i v }
  | .lit => { s with lit := s.lit.write i v }
  | .out => { s with out := s.out.write i v, outBefore := s.outBefore.write i v }

/-- A host read of OUT: until the host has read STATUS as DONE or ERROR it shows either the byte held before the run or the byte the block
has written, afterwards the byte OUT holds (R77, R78, R321, U4; log 10). -/
def State.hostReadOut (s : State) (i : Nat) : State :=
  if s.outSynced then { s with hostByte := s.out.read i }
  else { s with hostByte := if Config.outRace s.free then s.outBefore.read i else s.out.read i, free := s.free + 1 }

/-- The host reads one byte of a buffer, busy or idle (R220). Of HT, CD and LIT, which no unit writes, it gets the byte they hold, with no
side effect (R61, R71); OUT has its own rule (R77). -/
def State.hostReadByte (s : State) (p : Port) (i : Nat) : State :=
  match p with
  | .ht => { s with hostByte := s.ht.read i }
  | .cd => { s with hostByte := s.cd.read i }
  | .lit => { s with hostByte := s.lit.read i }
  | .out => s.hostReadOut i

/-- The host loads the front end's segment and programs the five RW registers (R226, R254, R256, R258, R313). -/
def State.loadSegment (s : State) (outCap : Word) : State :=
  { s with
    ht := s.ht.writeBytes 0 s.fe.htBytes, cd := s.cd.writeBytes 0 s.fe.cdBytes, lit := s.lit.writeBytes 0 s.fe.litBytes
    htLen := Word.store s.fe.htBytes.length, cdLen := Word.store s.fe.cdBytes.length
    litLen := Word.store s.fe.litBytes.length, tokCount := s.fe.tokN, outCap := outCap
    fe := { s.fe with phase := .taken } }

/-! ## The front end's reads -/

/-- A front-end error: the stream's decode ends, and the stream position is a free value (R263, R265; log 13). -/
def State.feFail (s : State) (e : FeError) : State :=
  { s with fe := { s.fe with phase := .failed e, pos := Config.freeStreamPos s.free }, free := s.free + 1 }

/-- The next bytes of the stream; past its end, FE_TRUNCATED_INPUT (R251, R252). -/
def feTake (n : Nat) (s : State) : Res (List Byte) :=
  if s.fe.pos + n ≤ s.fe.stream.length then
    .done ((s.fe.stream.drop s.fe.pos).take n) { s with fe := { s.fe with pos := s.fe.pos + n } }
  else .fatal (s.feFail .truncatedInput)

/-- Record a front-end warning (R260). -/
def State.feWarn (s : State) (w : FeWarning) : State := { s with fe := { s.fe with warnings := s.fe.warnings ++ [w] } }

/-- A 16-bit field with an expected value: another value only warns (R259, R260). -/
def feExpect (expected : Half) (w : FeWarning) (s : State) : Res Half :=
  (feTake 2 s).andThen fun bs t =>
    let v := beHalf bs
    .done v (if v = expected then t else t.feWarn w)

end Sys2Proof.Machine
end

