-- ==== Sys2Proof/Machine/FrontEnd.lean ====
section
/-! DEFINITION. FrontEnd.lean: the container front end (45_container_frontend.md), host-side: the meanings of MAGIC, SOI, DHT, B1, B2 and
the end-of-input check. Chunks are read by position; a tag never selects a layout (R259). -/

namespace Sys2Proof.Machine

/-- The expected 0xFFB1 length (R255). -/
def b1Length : Half := 11#16

/-- The expected 0xFFB2 length (R257). -/
def b2Length : Half := 6#16

/-- Set the front end's phase. -/
def State.fePhase (s : State) (p : FePhase) : State := { s with fe := { s.fe with phase := p } }

/-- MAGIC: the four bytes "CROM", or FE_BAD_MAGIC (R250). -/
def feMagic (s : State) : Res Unit :=
  (feTake 4 s).andThen fun bs t =>
    if beWord bs = magicWord then .done () (t.fePhase .soi) else .fatal (t.feFail .badMagic)

/-- SOI: a new segment, with no warnings yet; the tag has no length (R253). -/
def feSoi (s : State) : Res Unit :=
  (feExpect soiTag .soiTag { s with fe := { s.fe with warnings := [] } }).andThen fun _ t => .done () (t.fePhase .dht)

/-- DHT: tag, length L, L - 2 table bytes; L below 2 is FE_BAD_LENGTH (R254). -/
def feDht (s : State) : Res Unit :=
  (feExpect dhtTag .dhtTag s).andThen fun _ s1 =>
  (feTake 2 s1).andThen fun lenBytes s2 =>
    let len := (beHalf lenBytes).toNat
    if len < 2 then .fatal (s2.feFail .badLength)
    else (feTake (len - 2) s2).andThen fun body s3 =>
      .done () { s3 with fe := { s3.fe with htBytes := body, phase := .b1 } }

/-- B1: tag, length (a warning only), one skipped byte, CD_COUNT, TOK_N, then the compressed data (R255, R256). -/
def feB1 (s : State) : Res Unit :=
  (feExpect b1Tag .b1Tag s).andThen fun _ s1 =>
  (feExpect b1Length .b1Len s1).andThen fun _ s2 =>
  (feTake 1 s2).andThen fun _ s3 =>
  (feTake 4 s3).andThen fun countBytes s4 =>
  (feTake 4 s4).andThen fun tokBytes s5 =>
  (feTake (beWord countBytes).toNat s5).andThen fun body s6 =>
    .done () { s6 with fe := { s6.fe with cdBytes := body, tokN := beWord tokBytes, phase := .b2 } }

/-- B2: tag, length (a warning only), LIT_COUNT, then the literal data; the segment is complete (R257, R258). -/
def feB2 (s : State) : Res Unit :=
  (feExpect b2Tag .b2Tag s).andThen fun _ s1 =>
  (feExpect b2Length .b2Len s1).andThen fun _ s2 =>
  (feTake 4 s2).andThen fun countBytes s3 =>
  (feTake (beWord countBytes).toNat s3).andThen fun body s4 =>
    .done () { s4 with fe := { s4.fe with litBytes := body, phase := .ready } }

/-- The end-of-input check after a segment: no byte left ends the stream, otherwise the next segment starts there (R262). -/
def State.feNextSegment (s : State) : State :=
  if s.fe.pos < s.fe.stream.length then s.fePhase .soi else s.fePhase .ended

/-- MAGIC (R250). -/
def execMagic (s : State) : Outcome := (feMagic s).finish id

/-- SOI (R253). -/
def execSoi (s : State) : Outcome := (feSoi s).finish id

/-- DHT (R254). -/
def execDht (s : State) : Outcome := (feDht s).finish id

/-- B1 (R255, R256). -/
def execB1 (s : State) : Outcome := (feB1 s).finish id

/-- B2 (R257, R258). -/
def execB2 (s : State) : Outcome := (feB2 s).finish id

end Sys2Proof.Machine
end

