-- ==== Sys2Proof/Machine/HostPort.lean ====
section
/-! DEFINITION. HostPort.lean: the meanings of the host's register accesses: START, REG_WRITE, REG_READ (44_control_interface.md section
2). No access is refused or trapped; accesses without effect are ignored (R294). -/

namespace Sys2Proof.Machine

/-- START (R222, R223). -/
def execStart (s : State) : Outcome := .next s.startCommand

/-- REG_WRITE (R224, R225). -/
def execRegWrite (offset data : Word) (s : State) : Outcome := .next (s.writeWord offset data)

/-- REG_READ: the word goes to the host; no state of the block changes (R221; logs 9, 10). -/
def execRegRead (offset : Word) (s : State) : Outcome := .next (s.hostReadReg offset)

/-- What the host gets for a segment (R226, R263, R282): the output of a run that is DONE, the block's error with its context, or the front
end's error. -/
inductive SegmentResult where
  /-- No result yet. -/
  | pending
  /-- decompressed_bytes, with error none (R202, R226). -/
  | output (bytes : List Byte)
  /-- (ERR_KIND, ERR_INDEX, ERR_TABLE) (R226, R285). -/
  | blockError (kind : ErrKind) (index : Word) (table : CodeSpace)
  /-- The front end failed, so the block did not run for this segment (R264). -/
  | frontEndError (e : FeError)
deriving DecidableEq, Repr

/-- The result the host reads off a state (R226, R263, R264). Where the front end has failed on a later segment, its error is the answer even
while the block still runs or holds the result of the segment before: the spec gives one result per segment and no order between the two
(R282; DESIGN CHOICE: log 32). -/
def State.segmentResult (s : State) : SegmentResult :=
  match s.fe.phase, s.phase with
  | .failed e, _ => .frontEndError e
  | _, .done => .output (s.out.readBytes 0 s.outLen.toNat)
  | _, .error => .blockError s.errKind s.errIndex s.errTable
  | _, _ => .pending

/-- The code of a result, for a host that reports both kinds in one field (R282). -/
def SegmentResult.code : SegmentResult → BitVec 8
  | .pending => 0x00#8
  | .output _ => 0x00#8
  | .blockError kind _ _ => kind.code
  | .frontEndError e => e.code

end Sys2Proof.Machine
end

