-- ==== Sys2Proof/Machine/TableBuilder.lean ====
section
/-! DEFINITION. TableBuilder.lean: canonical_huffman_table_builder (40_table_builder.md) and the meanings of BUILD_TABLE and
BUILD_TO_DECODE. -/

namespace Sys2Proof.Machine

/-- HtNext(k): one record byte, or HT_TRUNCATED with HT_POS left where it is (R121; DEDUCED: log 16). -/
def htNext (k : CodeSpace) (s : State) : Res Byte :=
  if s.htPos.toNat < s.htLen.toNat then .done (s.ht.read s.htPos.toNat) (s.setHtPos (s.htPos + 1#32))
  else .fatal (s.raiseFatal .htTruncated (spaceIndex k) 0)

/-- n record bytes, each read by HtNext (R124). -/
def htNextMany (k : CodeSpace) : Nat → State → Res (List Byte)
  | 0, s => .done [] s
  | n + 1, s => (htNext k s).andThen fun b t => (htNextMany k n t).andThen fun bs u => .done (b :: bs) u

/-- The symbol block: checked whole, then read (R124). -/
def readSymbols (k : CodeSpace) (n : Nat) (s : State) : Res (List Byte) :=
  if s.htPos.toNat + n > s.htLen.toNat then .fatal (s.raiseFatal .htTruncated (spaceIndex k) 0)
  else .done (s.ht.readBytes s.htPos.toNat n) (s.setHtPos (Word.store (s.htPos.toNat + n)))

/-- What code assignment carries on: the running code value, the symbols still to code, the table so far (R126). -/
structure Assign where
  code : Nat
  symbols : List Byte
  table : Table
deriving DecidableEq, Repr

/-- The codewords of one length; the error keeps the entries written before it (R125 to R127). -/
def assignLength (len : Nat) : Nat → Assign → Except Table Assign
  | 0, a => .ok a
  | n + 1, a =>
    if 2 ^ len ≤ a.code then .error a.table
    else
      assignLength len n
        { code := a.code + 1
          symbols := a.symbols.tail
          table := a.table.fill (firstSlot a.code len) (slotCount len) (entryOf len (a.symbols.headD 0#8)) }

/-- The lengths in order, the code value shifted left after each (R126). -/
def assignLengths : List (Nat × Nat) → Assign → Except Table Table
  | [], a => .ok a.table
  | (len, n) :: rest, a =>
    match assignLength len n a with
    | .error t => .error t
    | .ok b => assignLengths rest { b with code := b.code * 2 }

/-- Canonical code assignment over a cleared table (R122, R126). -/
def assignCodes (counts symbols : List Byte) : Except Table Table :=
  assignLengths (lengthCounts counts) { code := 0, symbols := symbols, table := Table.cleared }

/-- Assignment of a record that was read: the table is written, and a code that does not fit is TABLE_OVERSUBSCRIBED (R125, R131). -/
def installTable (k : CodeSpace) (counts symbols : List Byte) (s : State) : Res Unit :=
  match assignCodes counts symbols with
  | .ok t => .done () (s.setTable k t)
  | .error t => .fatal ((s.setTable k t).raiseFatal .tableOversubscribed (spaceIndex k) 0)

/-- BUILD_TABLE(k) (R120): clear, identifier, counts, symbols, codes. -/
def buildTable (k : CodeSpace) (s : State) : Res Unit :=
  (htNext k (s.setTable k Table.cleared)).andThen fun id s1 =>
  (htNextMany k 16 (s1.checkIdentifier k id)).andThen fun counts s2 =>
  (readSymbols k (countSum counts) s2).andThen fun symbols s3 =>
  installTable k counts symbols s3

/-- The token-store check and the phase change (R234). -/
def State.buildToDecode (s : State) : State :=
  if s.tokCount.toNat > s.maxTokens.toNat then s.raiseFatal .tokenCapacity 0#32 0
  else { s with phase := .decode, tokIdx := 0#32 }

/-- What follows a completed BUILD_TABLE: the next code space, or R234 in the same step (R229; DEDUCED: log 24). -/
def State.afterBuild (s : State) : State :=
  match s.buildIdx with
  | 0 => { s with buildIdx := 1 }
  | 1 => { s with buildIdx := 2 }
  | 2 => s.buildToDecode

/-- BUILD_TABLE, the BUILD step (R120, R229). -/
def execBuildTable (s : State) : Outcome := (buildTable s.buildIdx s).finish State.afterBuild

/-- BUILD_TO_DECODE (R234). -/
def execBuildToDecode (s : State) : Outcome := .next s.buildToDecode

end Sys2Proof.Machine
end

