-- ==== Sys2Proof/Machine/PrefixDecoder.lean ====
section
/-! DEFINITION. PrefixDecoder.lean: bitstream_prefix_decoder (41_prefix_decoder.md) and the meaning of DECODE_SYMBOL. -/

namespace Sys2Proof.Machine

/-- The byte a refill shifts in: the next CD byte, or a virtual zero past CD_LEN (R152). -/
def State.refillInput (s : State) : Byte := if s.cdPos < s.cdLen.toNat then s.cd.read s.cdPos else 0#8

/-- Shift one byte in below the buffered bits (R151). -/
def State.shiftIn (s : State) : State :=
  { s with
    bitBuf := s.bitBuf <<< 8 ||| s.refillInput.setWidth 32
    bitCnt := s.bitCnt + 8#5
    cdPos := s.cdPos + 1 }

/-- Shift bytes in while fewer than 16 bits are buffered, at most n of them. -/
def refillUpTo : Nat → State → State
  | 0, s => s
  | n + 1, s => if s.bitCnt.toNat < 16 then refillUpTo n s.shiftIn else s

/-- The refill; two bytes always suffice (R151). -/
def State.refill (s : State) : State := refillUpTo 2 s

/-- The window of the buffered bits (R153). -/
def State.window (s : State) : Half := lookupWindow s.bitBuf s.bitCnt

/-- A codeword of this length would reach a virtual bit: 8·cdpos - bitcnt + LEN > 8·CD_LEN, in integers (R155; log 15). -/
def State.pastEnd (s : State) (len : Nat) : Bool := decide (8 * s.cdPos + len > 8 * s.cdLen.toNat + s.bitCnt.toNat)

/-- Consume LEN bits and return the symbol (R156). -/
def State.consume (s : State) (e : Half) : State :=
  { s with bitCnt := s.bitCnt - BitVec.ofNat 5 (entryLength e), symOut := entrySymbol e }

/-- The lookup after a refill: sentinel check, end-of-data check, consumption (R154 to R157). -/
def lookUp (t : CodeSpace) (s : State) : Res Byte :=
  let e := (s.table t).read s.window
  if e = 0#16 then .fatal (s.raiseFatal .invalidPrefixCode s.tokIdx t)
  else if s.pastEnd (entryLength e) then .fatal (s.raiseFatal .outOfCompressedData s.tokIdx t)
  else .done (entrySymbol e) (s.consume e)

/-- DECODE_SYMBOL(t, TOK_IDX) (R150). -/
def decodeSymbol (t : CodeSpace) (s : State) : Res Byte := lookUp t s.refill

/-- DECODE_SYMBOL on its own: the cursor moves, the symbol stands in `symOut` (R150; log 8). -/
def execDecodeSymbol (t : CodeSpace) (s : State) : Outcome := (decodeSymbol t s).finish id

end Sys2Proof.Machine
end

