-- ==== Sys2Proof/Machine/TokenDecompressor.lean ====
section
/-! DEFINITION. TokenDecompressor.lean: huffman_token_stream_decompressor (42_token_decompressor.md) and the meanings of DECODE_TOKEN and
DECODE_TO_EXPAND. -/

namespace Sys2Proof.Machine

/-- TOK[TOK_IDX] <- (c, hi ‖ lo) (R170, R171). -/
def State.storeToken (s : State) (c lo hi : Byte) : State :=
  { s with tok := s.tok.write s.tokIdx.toNat ⟨c, offsetOf lo hi⟩ }

/-- DECODE_TOKEN(TOK_IDX): control, offset low byte, offset high byte, from one cursor (R170, R172). -/
def decodeToken (s : State) : Res Unit :=
  (decodeSymbol 0 s).andThen fun c s1 =>
  (decodeSymbol 1 s1).andThen fun lo s2 =>
  (decodeSymbol 2 s2).andThen fun hi s3 =>
  .done () (s3.storeToken c lo hi)

/-- DECODE_TOKEN, the DECODE step (R170, R231). -/
def execDecodeToken (s : State) : Outcome := (decodeToken s).finish State.advanceToken

/-- DECODE_TO_EXPAND (R232). -/
def execDecodeToExpand (s : State) : Outcome := .next { s with phase := .expand, tokIdx := 0#32 }

end Sys2Proof.Machine
end

