-- ==== Sys2Proof/Machine/TokenExpander.lean ====
section
/-! DEFINITION. TokenExpander.lean: lz_token_expander (43_token_expander.md) and the meanings of NOP, LIT, COPY, EXPAND_TOKEN and
COMPLETE. The meanings of the three token rows include the sequencer's TOK_IDX + 1 (R235; log 29). -/

namespace Sys2Proof.Machine

/-- n bytes from one memory to another, in rising order (R195). -/
def Memory.copyFrom (src : Memory) : (srcPos : Nat) → Memory → (dstPos n : Nat) → Memory
  | _, dst, _, 0 => dst
  | i, dst, j, n + 1 => Memory.copyFrom src (i + 1) (dst.write j (src.read i)) (j + 1) n

/-- NOP: no effect (R191). -/
def tokenNop (s : State) : Res Unit := .done () s

/-- The move of LIT (R195). -/
def State.copyLiterals (s : State) (n : Nat) : State :=
  { s with
    out := Memory.copyFrom s.lit s.litPos.toNat s.out s.outLen.toNat n
    outLen := Word.store (s.outLen.toNat + n)
    litPos := Word.store (s.litPos.toNat + n) }

/-- LIT n: the data check, the capacity check, the move (R192 to R195, R200). -/
def tokenLit (control : Byte) (s : State) : Res Unit :=
  let n := litLength control
  if s.litPos.toNat + n > s.litLen.toNat then .fatal (s.raiseFatal .outOfLiteralData s.tokIdx 0)
  else if s.outLen.toNat + n > s.outCap.toNat then .fatal (s.raiseFatal .outputOverflow s.tokIdx 0)
  else .done () (s.copyLiterals n)

/-- One byte of a back-reference copy (R198). -/
def State.copyByte (s : State) (d : Nat) : State :=
  { s with
    out := s.out.write s.outLen.toNat (s.out.read (s.outLen.toNat - d))
    outLen := s.outLen + 1#32 }

/-- n bytes, one at a time (R198). -/
def copyBytes (d : Nat) : Nat → State → State
  | 0, s => s
  | n + 1, s => copyBytes d n (s.copyByte d)

/-- COPY n, d: the reference check, the capacity check, the move (R194, R196 to R198, R200). -/
def tokenCopy (offset : Half) (control : Byte) (s : State) : Res Unit :=
  let n := copyLength control
  let d := copyDistance offset
  if d > s.outLen.toNat then .fatal (s.raiseFatal .invalidReference s.tokIdx 0)
  else if s.outLen.toNat + n > s.outCap.toNat then .fatal (s.raiseFatal .outputOverflow s.tokIdx 0)
  else .done () (copyBytes d n s)

/-- EXPAND_TOKEN(TOK_IDX): the token's kind, tested in order (R190). -/
def expandToken (s : State) : Res Unit :=
  let t := s.tok.read s.tokIdx.toNat
  if t.offset = 0#16 ∧ t.control = 0xFF#8 then tokenNop s
  else if t.offset = 0#16 then tokenLit t.control s
  else tokenCopy t.offset t.control s

/-- NOP (R191, R235). -/
def execNop (s : State) : Outcome := (tokenNop s).finish State.advanceToken

/-- LIT (R192, R235). -/
def execLit (control : Byte) (s : State) : Outcome := (tokenLit control s).finish State.advanceToken

/-- COPY (R196, R235). -/
def execCopy (offset : Half) (control : Byte) (s : State) : Outcome := (tokenCopy offset control s).finish State.advanceToken

/-- EXPAND_TOKEN, the EXPAND step (R190, R235). -/
def execExpandToken (s : State) : Outcome := (expandToken s).finish State.advanceToken

/-- COMPLETE: STATE <- DONE (R236). -/
def execComplete (s : State) : Outcome := .next { s with phase := .done }

end Sys2Proof.Machine
end

