-- ==== Sys2Proof/Machine/Dispatch.lean ====
section
/-! DEFINITION. Dispatch.lean: one arm per constructor of Instr. -/

namespace Sys2Proof.Machine

def exec (i : Instr) (s : State) : Host.Outcome State Fault Refusal :=
  match i with
  | .nop => Sys2Proof.Machine.execNop s
  | .lit control => Sys2Proof.Machine.execLit control s
  | .copy offset control => Sys2Proof.Machine.execCopy offset control s
  | .buildTable => Sys2Proof.Machine.execBuildTable s
  | .buildToDecode => Sys2Proof.Machine.execBuildToDecode s
  | .decodeToken => Sys2Proof.Machine.execDecodeToken s
  | .decodeSymbol t => Sys2Proof.Machine.execDecodeSymbol t s
  | .decodeToExpand => Sys2Proof.Machine.execDecodeToExpand s
  | .expandToken => Sys2Proof.Machine.execExpandToken s
  | .complete => Sys2Proof.Machine.execComplete s
  | .start => Sys2Proof.Machine.execStart s
  | .regWrite offset data => Sys2Proof.Machine.execRegWrite offset data s
  | .regRead offset => Sys2Proof.Machine.execRegRead offset s
  | .magic => Sys2Proof.Machine.execMagic s
  | .soi => Sys2Proof.Machine.execSoi s
  | .dht => Sys2Proof.Machine.execDht s
  | .b1 => Sys2Proof.Machine.execB1 s
  | .b2 => Sys2Proof.Machine.execB2 s

end Sys2Proof.Machine
end

