-- ==== Sys2Proof/Machine/Fetch.lean ====
section
/-! DEFINITION. Fetch.lean: what the next step runs. The host's agenda comes first; where it is empty, or leaves the block a step, STATE,
BUILD_IDX and TOK_IDX select the sequencer's operation (R220, R227, R228). -/

namespace Sys2Proof.Machine

/-- What a step does: run an instruction in a state, answer a state, or stop. -/
inductive NextOp where
  | run (i : Instr) (s : State)
  | moved (s : State)
  | stuck (f : Fault)
  | barred (r : Refusal)
deriving DecidableEq, Repr

/-- The sequencer's selection at the start of a block step; BUILD_TO_DECODE is the tail of a BUILD step, so `built` is false (R228,
R234). -/
def State.selection (s : State) : Selection :=
  ⟨s.phase.code, false, compare s.tokIdx.toNat s.tokCount.toNat⟩

/-- A block step: none while idle (R227; log 3), otherwise the operation the sequencer's table gives (R228). -/
def fetchBlock (s : State) : NextOp :=
  if s.busy then
    match decode (.sequencer s.selection) with
    | .ok i => .run i s
    | .error _ => .stuck .noSequencerRule
  else .moved s

/-- A front-end move: the chunk its phase asks for, the end-of-input check after a segment, nothing after the end or an error (R253 to
R265; log 27). A segment that is ready and not yet handed over is dropped when the host parses on: the spec speaks only of a segment consumed
once (R263; DESIGN CHOICE: log 31). -/
def fetchParse (s : State) : NextOp :=
  match s.fe.phase with
  | .magic => .run .magic s
  | .soi => .run .soi s
  | .dht => .run .dht s
  | .b1 => .run .b1 s
  | .b2 => .run .b2 s
  | .ready => .moved s.feNextSegment
  | .taken => .moved s.feNextSegment
  | .ended => .moved s
  | .failed _ => .moved s

/-- A host access is an instruction, as its encoding says (R221 to R225). -/
def fetchAccess (c : Code) (s : State) : NextOp :=
  match decode c with
  | .ok i => .run i s
  | .error _ => .moved s

/-- Handing a segment to the block: load, program and START when the front end found a segment, nothing otherwise (R226, R264; log
20). -/
def fetchSegment (outCap : Word) (s : State) : NextOp :=
  match s.fe.phase with
  | .ready => .run .start (s.loadSegment outCap)
  | .magic => .moved s
  | .soi => .moved s
  | .dht => .moved s
  | .b1 => .moved s
  | .b2 => .moved s
  | .taken => .moved s
  | .ended => .moved s
  | .failed _ => .moved s

/-- What the next step does (R220). In a move that is carried out the agenda has lost that move; polling stays until the block is idle
(R313). -/
def fetch (s : State) : NextOp :=
  match s.agenda with
  | [] => fetchBlock s
  | .read offset :: rest => fetchAccess (.hostRead offset) { s with agenda := rest }
  | .write offset data :: rest => fetchAccess (.hostWrite offset data) { s with agenda := rest }
  | .fill port index value :: rest =>
    if s.busy then .barred .bufferWriteWhileBusy else .moved (({ s with agenda := rest } : State).fillByte port index value)
  | .peek port index :: rest => .moved (({ s with agenda := rest } : State).hostReadByte port index)
  | .parse :: rest => fetchParse { s with agenda := rest }
  | .decodeSegment outCap :: rest => if s.busy then fetchBlock s else fetchSegment outCap { s with agenda := rest }
  | .wait :: rest => fetchBlock { s with agenda := rest }
  | .await :: rest => if s.busy then fetchBlock s else .moved ({ s with agenda := rest } : State).seeStatus
  | .reset :: rest => .moved ({ s with agenda := rest } : State).resetBlock

/-- The bytes at the front end's cursor, its chunk chosen by the first tag; zero bytes follow, more than the longest chunk header. -/
def State.placeStream (s : State) (p : FePhase) (bs : List Byte) : State :=
  { s with agenda := [.parse], fe := { s.fe with phase := p, stream := bs ++ List.replicate 16 0#8, pos := 0 } }

/-- The front-end phase that reads a tag. -/
def tagPhase (tag : Half) : FePhase :=
  if tag = dhtTag then .dht else if tag = b1Tag then .b1 else if tag = b2Tag then .b2 else .soi

/-- A token placed as TOK[0] of a run of one token in its EXPAND phase. -/
def State.placeToken (s : State) (w : BitVec 24) : State :=
  { s with agenda := [], phase := .expand, tokIdx := 0#32, tokCount := 1#32, tok := s.tok.write 0 (Token.ofWord w) }

/-- An instruction of the table placed where the next step fetches it: a token in the token store, container bytes in the stream (log
23). -/
def State.placeWord (s : State) (nbits w : Nat) : State :=
  if nbits = 24 then s.placeToken (BitVec.ofNat 24 w)
  else if nbits = 16 then s.placeStream (tagPhase (BitVec.ofNat 16 w)) (halfBytes (BitVec.ofNat 16 w))
  else if nbits = 32 then s.placeStream .magic (wordBytes (BitVec.ofNat 32 w))
  else s

end Sys2Proof.Machine
end

