-- ==== Sys2Proof/Machine/Step.lean ====
section
/-! DEFINITION. Step.lean: one step of the machine: what `fetch` selects, run by `exec` (R16, R220, R227). -/

namespace Sys2Proof.Machine

/-- One step. -/
def step (s : State) : Host.Outcome State Fault Refusal :=
  match fetch s with
  | .run i t => exec i t
  | .moved t => .next t
  | .stuck f => .fault f
  | .barred r => .refused r

/-- The host's way to place one instruction of the table for the next step (log 23). -/
def State.withFetchWord (s : State) (nbits w : Nat) : State := s.placeWord nbits w

end Sys2Proof.Machine
end

