-- ==== Sys2Proof/Safety.lean ====
section
/-! DEFINITION. Safety.lean: what the claims are stated in: the invariant of the machine, the relation of two states of one run, the steps a run
has left, the first failing lookup, the bit stream the
decoder reads, the slot layout of a canonical code, and the byte layout of a container segment. -/

namespace Sys2Proof.Machine

/-- Every slot holds the sentinel or an entry with LEN 1 to 16 (R95 to R97). -/
def Table.Sound (t : Table) : Prop :=
  ∀ w : Half, t.read w = 0#16 ∨ (1 ≤ entryLength (t.read w) ∧ entryLength (t.read w) ≤ 16)

/-- Bit n of the compressed stream, counted from the most significant bit of CD[0]; virtual past CD_LEN (R68, R152). -/
def State.streamBit (s : State) (n : Nat) : Bool :=
  if n / 8 < s.cdLen.toNat then (s.cd.read (n / 8)).getLsbD (7 - n % 8) else false

/-- The number of stream bits consumed in the run (R49). -/
def State.consumed (s : State) : Nat := 8 * s.cdPos - s.bitCnt.toNat

/-- The bit cursor is in range and its buffered bits are the stream's (R38, R47, R68). -/
structure State.CursorInv (s : State) : Prop where
  range : s.bitCnt.toNat ≤ 23
  shifted : s.bitCnt.toNat ≤ 8 * s.cdPos
  shows : ∀ j < s.bitCnt.toNat, s.bitBuf.getLsbD j = s.streamBit (8 * s.cdPos - 1 - j)

/-- The tables a phase relies on: those of the code spaces below BUILD_IDX while building, all three afterwards (R44). -/
def State.TablesReady (s : State) : Prop :=
  match s.phase with
  | .build => ∀ k : CodeSpace, k < s.buildIdx → (s.table k).Sound
  | .decode => ∀ k : CodeSpace, (s.table k).Sound
  | .expand => ∀ k : CodeSpace, (s.table k).Sound
  | .idle => True
  | .done => True
  | .error => True

/-- The cursors of the host-visible registers in each busy phase (R33, R35, R36, R40, R230). -/
def State.PhaseInv (s : State) : Prop :=
  match s.phase with
  | .build => s.tokIdx = 0#32 ∧ s.cdPos = 0 ∧ s.bitCnt = 0#5 ∧ s.litPos = 0#32 ∧ s.outLen = 0#32
  | .decode =>
    s.buildIdx = 2 ∧ s.tokCount.toNat ≤ s.maxTokens.toNat ∧ s.tokIdx.toNat ≤ s.tokCount.toNat ∧ s.litPos = 0#32 ∧ s.outLen = 0#32 ∧
      ∀ i < s.tokIdx.toNat, s.tok.holds i = true
  | .expand =>
    s.buildIdx = 2 ∧ s.tokCount.toNat ≤ s.maxTokens.toNat ∧ s.tokIdx.toNat ≤ s.tokCount.toNat ∧
      ∀ i < s.tokCount.toNat, s.tok.holds i = true
  | .done => s.buildIdx = 2
  | .idle => True
  | .error => True

/-- The invariant of the machine: it holds at reset and every step keeps it. -/
structure State.Inv (s : State) : Prop where
  /-- Every memory is in its canonical form. -/
  memories : s.ht.wf = true ∧ s.cd.wf = true ∧ s.lit.wf = true ∧ s.out.wf = true ∧ s.outBefore.wf = true
  /-- The token store is in its canonical form. -/
  tokens : s.tok.wf = true
  /-- ERR_KIND is NONE exactly outside ERROR (R24). -/
  errKind : s.errKind = .none ↔ s.phase ≠ .error
  /-- ERR_INDEX and ERR_TABLE are 0 outside ERROR (R25, R26). -/
  errContext : s.phase ≠ .error → s.errIndex = 0#32 ∧ s.errTable = 0
  /-- ERR_TABLE is 0 but for the two decode errors (R26). -/
  errTable : s.errKind ≠ .invalidPrefixCode → s.errKind ≠ .outOfCompressedData → s.errTable = 0
  /-- BIT_CNT is 0 to 23 and counts bits that were shifted in (R38, R47). -/
  bits : s.bitCnt.toNat ≤ 23 ∧ s.bitCnt.toNat ≤ 8 * s.cdPos
  /-- While busy the cursors stay inside the lengths: HT_POS ≤ HT_LEN, LIT_POS ≤ LIT_LEN, OUT_LEN ≤ OUT_CAP, and no more bits are
  consumed than CD holds (R33, R36, R40, R48). -/
  bounds : s.busy = true →
    s.htPos.toNat ≤ s.htLen.toNat ∧ s.litPos.toNat ≤ s.litLen.toNat ∧ s.outLen.toNat ≤ s.outCap.toNat ∧
      s.consumed ≤ 8 * s.cdLen.toNat
  /-- While busy the run's end has not been seen, and the OUT bytes at OUT_LEN and above are those held before the run (R77, R202; log
  10). -/
  output : s.busy = true → s.outSynced = false ∧ ∀ a, s.outLen.toNat ≤ a → s.out.read a = s.outBefore.read a
  /-- While busy the buffered bits are the stream's (R68). -/
  cursor : s.busy = true → s.CursorInv
  /-- The phase's own cursors and the tokens it relies on (R35, R46, R230). -/
  phase : s.PhaseInv
  /-- The tables the phase relies on (R44, R97). -/
  tables : s.TablesReady

/-- How many block steps a run has left at most (R237). -/
def State.stepsLeft (s : State) : Nat :=
  match s.phase with
  | .build => 3 - s.buildIdx.val + 2 * s.tokCount.toNat + 2
  | .decode => s.tokCount.toNat - s.tokIdx.toNat + s.tokCount.toNat + 2
  | .expand => s.tokCount.toNat - s.tokIdx.toNat + 1
  | .idle => 0
  | .done => 0
  | .error => 0

/-- The lengths of a record's codewords in assignment order: COUNT[1] times 1, COUNT[2] times 2, up to 16 (R93). -/
def codewordLengths (counts : List Byte) : List Nat :=
  (lengthCounts counts).flatMap fun p => List.replicate p.2 p.1

/-- F, the slots a record's codewords claim together (R133). -/
def slotsClaimed (counts : List Byte) : Nat := ((codewordLengths counts).map slotCount).sum

/-- The entry a slot holds when the codewords claim contiguous ranges in assignment order from slot 0 up, and the sentinel stands behind
them (R133). -/
def slotLayout : List (Nat × Byte) → Nat → Half
  | [], _ => 0#16
  | (len, sym) :: rest, slot =>
    if slot < slotCount len then entryOf len sym else slotLayout rest (slot - slotCount len)

/-- Every window whose top L bits are C decodes to (L, sym): the codeword of value C and length L is assigned to sym (R98, R134). -/
def Table.Codes (t : Table) (code len : Nat) (sym : Byte) : Prop :=
  1 ≤ len ∧ len ≤ 16 ∧ code < 2 ^ len ∧ ∀ w : Half, w.toNat / 2 ^ (16 - len) = code → t.read w = entryOf len sym

/-- The stream holds the codeword of value C and length L at a bit position, most significant bit first (R98). -/
def State.StreamHas (s : State) (at_ code len : Nat) : Prop :=
  ∀ j < len, s.streamBit (at_ + j) = code.testBit (len - 1 - j)

/-- The stream holds, from a bit position on and inside CD, the codewords of the tokens one after another: for each its control, its
offset's low byte and its offset's high byte, in the codes of tables 0, 1 and 2 (R100, R172). -/
def State.StreamHasTokens (s : State) : Nat → List Token → Prop
  | _, [] => True
  | n, tk :: rest =>
    ∃ c0 l0 c1 l1 c2 l2 : Nat,
      s.t0.Codes c0 l0 tk.control ∧ s.t1.Codes c1 l1 (tk.offset.extractLsb' 0 8) ∧ s.t2.Codes c2 l2 (tk.offset.extractLsb' 8 8) ∧
      s.StreamHas n c0 l0 ∧ s.StreamHas (n + l0) c1 l1 ∧ s.StreamHas (n + l0 + l1) c2 l2 ∧
      n + l0 + l1 + l2 ≤ 8 * s.cdLen.toNat ∧ s.StreamHasTokens (n + l0 + l1 + l2) rest

/-- A container segment as the host writes it (R261): tags and lengths as expected. -/
def segmentBytes (htBytes cdBytes litBytes : List Byte) (skip : Byte) (tokN : Word) : List Byte :=
  halfBytes soiTag ++ (halfBytes dhtTag ++ halfBytes (BitVec.ofNat 16 (htBytes.length + 2)) ++ htBytes) ++
    (halfBytes b1Tag ++ halfBytes b1Length ++ [skip] ++ wordBytes (Word.store cdBytes.length) ++ wordBytes tokN ++ cdBytes) ++
    (halfBytes b2Tag ++ halfBytes b2Length ++ wordBytes (Word.store litBytes.length) ++ litBytes)

/-- The buffer of a port (R60). -/
def State.buffer (s : State) : Port → Memory
  | .ht => s.ht
  | .cd => s.cd
  | .lit => s.lit
  | .out => s.out

/-- The state a DECODE_TOKEN faults in is that of the first lookup that fails, in the order control, offset low byte, offset high byte; the
lookups before it complete (R172, R175). -/
def FirstFailingLookup (s t : State) : CodeSpace → Prop
  | 0 => exec (.decodeSymbol 0) s = .next t
  | 1 => ∃ s1, exec (.decodeSymbol 0) s = .next s1 ∧ s1.phase ≠ .error ∧ exec (.decodeSymbol 1) s1 = .next t
  | 2 => ∃ s1 s2, exec (.decodeSymbol 0) s = .next s1 ∧ s1.phase ≠ .error ∧ exec (.decodeSymbol 1) s1 = .next s2 ∧ s2.phase ≠ .error ∧
      exec (.decodeSymbol 2) s2 = .next t

/-- Two states of runs that nothing of the run tells apart: the same registers and inputs, the same tables and tokens as far as the run has
built and written them, the same output; the buffers above their lengths, and everything else, may differ (R62, R238). -/
structure State.SameRun (s s' : State) : Prop where
  registers : ∀ r : Reg, s.regValue r = s'.regValue r
  cursor : s.cdPos = s'.cdPos
  capacity : s.maxTokens = s'.maxTokens
  ht : ∀ a < s.htLen.toNat, s.ht.read a = s'.ht.read a
  cd : ∀ a < s.cdLen.toNat, s.cd.read a = s'.cd.read a
  lit : ∀ a < s.litLen.toNat, s.lit.read a = s'.lit.read a
  out : ∀ a < s.outLen.toNat, s.out.read a = s'.out.read a
  canonical : s.out.wf = true ∧ s'.out.wf = true
  /-- In BUILD the tables below BUILD_IDX, in DECODE all three. -/
  tables : ∀ k : CodeSpace, (s.phase = .build ∧ k < s.buildIdx) ∨ s.phase = .decode → ∀ w : Half, (s.table k).read w = (s'.table k).read w
  /-- In DECODE the tokens below TOK_IDX, in EXPAND those below TOK_COUNT. -/
  tokens : ∀ i : Nat, (s.phase = .decode ∧ i < s.tokIdx.toNat) ∨ (s.phase = .expand ∧ i < s.tokCount.toNat) → s.tok.read i = s'.tok.read i

/-- The block part of a state: all of it but the front end and the counter of free values. -/
def State.SameBlock (s t : State) : Prop := t = { s with fe := t.fe, free := t.free }

end Sys2Proof.Machine
end

