-- ==== Sys2Proof/Certificates/Slice0/Obligations.lean ====
section
/-! DEFINITION. Obligations.lean: the statements about the machine, from the spec's numbered rules. A statement that rests on a choice of
the model's own names the log entry in its docstring. -/

open Sys2Proof Sys2Proof.Machine

/-! ## Encodings -/

/-- Every well-formed instruction is read back from its encoding, and byte encodings are read back whatever bytes follow (30_encoding.md;
opcode_table.json; the encodings of START and DECODE_SYMBOL are log 18's). -/
def Obligations.DecodeReadsBackEveryEncoding : Prop :=
  ∀ i : Instr, i.WellFormed →
    decode (encode i) = .ok i ∧ ∀ f bs, encode i = .bytes f bs → ∀ rest, decodeBytes f (bs ++ rest) = .ok (i, rest)

/-- R103: the token kinds by word, in the order NOP, LIT, COPY. -/
def Obligations.TokenWordsSplitIntoKinds : Prop :=
  ∀ w : BitVec 24,
    (w = 0x0000FF#24 → decodeTokenWord w = .nop) ∧
    (w.toNat ≤ 0x0000FE → decodeTokenWord w = .lit (BitVec.ofNat 8 w.toNat)) ∧
    (0x000100 ≤ w.toNat → decodeTokenWord w = .copy (BitVec.ofNat 16 (w.toNat / 256)) (BitVec.ofNat 8 w.toNat)) ∧
    (decodeTokenWord w).WellFormed

/-- Words of the opcode table and of E4 to E6, read by the decoder (R102, R103, R106). -/
def Obligations.TableWordsDecode : Prop :=
  decodeTableWord 24 0x0000FF = some .nop ∧ decodeTableWord 24 0x000000 = some (.lit 0x00#8) ∧
  decodeTableWord 24 0x0000FE = some (.lit 0xFE#8) ∧ decodeTableWord 24 0x000105 = some (.copy 0x0001#16 0x05#8) ∧
  decodeTableWord 24 0x010000 = some (.copy 0x0100#16 0x00#8) ∧ decodeTableWord 24 0xFFFFFF = some (.copy 0xFFFF#16 0xFF#8) ∧
  decodeTableWord 32 0x43524F4D = some .magic ∧ decodeTableWord 32 0x43524F4E = none ∧
  decodeTableWord 16 0xFFD8 = some .soi ∧ decodeTableWord 16 0xFFC4 = some .dht ∧ decodeTableWord 16 0xFFB1 = some .b1 ∧
  decodeTableWord 16 0xFFB2 = some .b2 ∧ decodeTableWord 16 0xFFD9 = none

/-! ## The step -/

/-- The sequencer's transition table (44_control_interface.md section 3): with no host move before it, a busy block runs the operation
that STATE, TOK_IDX and TOK_COUNT select. -/
def Obligations.StepRunsTheSelectedOperation : Prop :=
  ∀ s : State, s.agenda = [] ∨ (∃ rest, s.agenda = .await :: rest) →
    (s.phase = .build → step s = exec .buildTable s) ∧
    (s.phase = .decode → s.tokIdx.toNat < s.tokCount.toNat → step s = exec .decodeToken s) ∧
    (s.phase = .decode → s.tokIdx = s.tokCount → step s = exec .decodeToExpand s) ∧
    (s.phase = .expand → s.tokIdx.toNat < s.tokCount.toNat → step s = exec .expandToken s) ∧
    (s.phase = .expand → s.tokIdx = s.tokCount → step s = exec .complete s)

/-- R190 and R235: in the EXPAND phase the step runs the instruction that the word of TOK[TOK_IDX] decodes to; the three token rows'
meanings include the sequencer's TOK_IDX + 1 (log 29). -/
def Obligations.StepRunsTheDecodedToken : Prop :=
  ∀ s : State, s.agenda = [] → s.phase = .expand → s.tokIdx.toNat < s.tokCount.toNat →
    step s = exec (decodeTokenWord (s.tok.read s.tokIdx.toNat).word) s

/-- A host access runs the instruction its encoding names, and a front-end move the chunk its phase asks for, in the state without that
move (log 2). -/
def Obligations.StepRunsHostMoves : Prop :=
  ∀ (s : State) (rest : List HostMove),
    (∀ offset, s.agenda = .read offset :: rest → step s = exec (.regRead offset) { s with agenda := rest }) ∧
    (∀ offset data, s.agenda = .write offset data :: rest → (offset = 0x00#32 ∧ data.getLsbD 0 = true) →
      step s = exec .start { s with agenda := rest }) ∧
    (∀ offset data, s.agenda = .write offset data :: rest → ¬(offset = 0x00#32 ∧ data.getLsbD 0 = true) →
      step s = exec (.regWrite offset data) { s with agenda := rest }) ∧
    (s.agenda = .parse :: rest →
      (s.fe.phase = .magic → step s = exec .magic { s with agenda := rest }) ∧
      (s.fe.phase = .soi → step s = exec .soi { s with agenda := rest }) ∧
      (s.fe.phase = .dht → step s = exec .dht { s with agenda := rest }) ∧
      (s.fe.phase = .b1 → step s = exec .b1 { s with agenda := rest }) ∧
      (s.fe.phase = .b2 → step s = exec .b2 { s with agenda := rest }))

/-- An idle block takes no step (R227): where the host makes no move either, the state stays as it is (log 3). -/
def Obligations.IdleBlockStaysAsItIs : Prop :=
  ∀ s : State, s.agenda = [] → s.phase = .idle ∨ s.phase = .done ∨ s.phase = .error → step s = .next s

/-! ## Table builder -/

/-- BUILD_TABLE on a record that lies inside HT: the table has the slot layout of R133, HT_POS rises by 17 + S (R128), WARN bit k is set
on an identifier mismatch (R123), an oversubscribed record is TABLE_OVERSUBSCRIBED with the entries written before it (R125, R131),
and otherwise BUILD_IDX rises or, after code space 2, R234 follows in the same step (R229). -/
def Obligations.BuildTableLaysOutTheCode : Prop :=
  ∀ s : State,
    let k := s.buildIdx
    let p := s.htPos.toNat
    let counts := s.ht.readBytes (p + 1) 16
    let n := countSum counts
    p + 17 + n ≤ s.htLen.toNat →
    ∃ T : Table,
      (∀ x : Half, T.read x = slotLayout ((codewordLengths counts).zip (s.ht.readBytes (p + 17) n)) x.toNat) ∧
      let w := if s.ht.read p = BitVec.ofNat 8 (0xF0 + k.val) then s.warn else s.warn ||| (1#3 <<< k.val)
      let u := ((s.setTable k T).setHtPos (Word.store (p + 17 + n))).setWarn w
      (slotsClaimed counts ≤ 65536 → k ≠ 2 → exec .buildTable s = .next { u with buildIdx := k + 1 }) ∧
      (slotsClaimed counts ≤ 65536 → k = 2 → s.tokCount.toNat ≤ s.maxTokens.toNat →
        exec .buildTable s = .next { u with phase := .decode, tokIdx := 0#32 }) ∧
      (slotsClaimed counts ≤ 65536 → k = 2 → s.maxTokens.toNat < s.tokCount.toNat →
        exec .buildTable s = .next (u.raiseFatal .tokenCapacity 0#32 0)) ∧
      (65536 < slotsClaimed counts →
        exec .buildTable s = .next (u.raiseFatal .tableOversubscribed (Word.store k.val) 0))

/-- R121 and R124: a record that runs past HT_LEN is HT_TRUNCATED over a cleared table; HT_POS is left at HT_LEN, or at the first symbol
byte when the symbol block is what does not fit. -/
def Obligations.BuildTableReportsTruncation : Prop :=
  ∀ s : State,
    let k := s.buildIdx
    let p := s.htPos.toNat
    let n := countSum (s.ht.readBytes (p + 1) 16)
    let w := if s.ht.read p = BitVec.ofNat 8 (0xF0 + k.val) then s.warn else s.warn ||| (1#3 <<< k.val)
    let cleared := s.setTable k ⟨.sentinel, []⟩
    (s.htPos = s.htLen → exec .buildTable s = .next (cleared.raiseFatal .htTruncated (Word.store k.val) 0)) ∧
    (p < s.htLen.toNat → s.htLen.toNat < p + 17 →
      exec .buildTable s = .next (((cleared.setHtPos s.htLen).setWarn w).raiseFatal .htTruncated (Word.store k.val) 0)) ∧
    (p + 17 ≤ s.htLen.toNat → s.htLen.toNat < p + 17 + n →
      exec .buildTable s =
        .next (((cleared.setHtPos (Word.store (p + 17))).setWarn w).raiseFatal .htTruncated (Word.store k.val) 0))

/-- R134 and R98: after a build that completes, every codeword of the record is in the table: the codeword behind those of `pre` has the
value C with C·2^(16-L) equal to the slots `pre` claims, and every window whose top L bits are C decodes to its length and symbol. -/
def Obligations.BuiltCodewordsAreLookedUp : Prop :=
  ∀ s : State,
    let p := s.htPos.toNat
    let counts := s.ht.readBytes (p + 1) 16
    let n := countSum counts
    p + 17 + n ≤ s.htLen.toNat → slotsClaimed counts ≤ 65536 →
    ∃ t : State, exec .buildTable s = .next t ∧
      ∀ (pre post : List (Nat × Byte)) (len : Nat) (sym : Byte),
        (codewordLengths counts).zip (s.ht.readBytes (p + 17) n) = pre ++ (len, sym) :: post →
        ∃ code : Nat, code * 2 ^ (16 - len) = (pre.map fun c => slotCount c.1).sum ∧ (t.table s.buildIdx).Codes code len sym

/-- R123: the identifier byte sets WARN bit k unless it is 0xF0 + k, and changes nothing else: whatever byte b stands there, the build
goes to the same state u but for that bit (and b itself in HT). -/
def Obligations.IdentifierChangesOnlyTheWarning : Prop :=
  ∀ s : State, s.ht.wf = true → s.htPos.toNat < s.htLen.toNat →
    let k := s.buildIdx
    ∃ u : State, ∀ b : Byte,
      exec .buildTable { s with ht := s.ht.write s.htPos.toNat b } =
        .next { u with
          ht := s.ht.write s.htPos.toNat b
          warn := if b = BitVec.ofNat 8 (0xF0 + k.val) then s.warn else s.warn ||| (1#3 <<< k.val) }

/-- R234 as an operation of its own: the token-store check and the phase change. -/
def Obligations.BuildToDecodeChecksTheTokenStore : Prop :=
  ∀ s : State,
    (s.tokCount.toNat ≤ s.maxTokens.toNat → exec .buildToDecode s = .next { s with phase := .decode, tokIdx := 0#32 }) ∧
    (s.maxTokens.toNat < s.tokCount.toNat → exec .buildToDecode s = .next (s.raiseFatal .tokenCapacity 0#32 0))

/-! ## Errors -/

/-- R284, R286 and R131, R158, R200: whatever instruction enters ERROR, it writes the error and keeps every register, buffer, token and
cursor but those a build or a lookup had written before: HT_POS, WARN and T[k] for a build, the refilled bit cursor (and the model's
`symOut`, log 8) for a lookup. -/
def Obligations.ErrorEntryKeepsTheRest : Prop :=
  ∀ (i : Instr) (s t : State), s.phase ≠ .error → exec i s = .next t → t.phase = .error →
    t = { s with
      phase := .error, errKind := t.errKind, errIndex := t.errIndex, errTable := t.errTable
      warn := t.warn, htPos := t.htPos, t0 := t.t0, t1 := t.t1, t2 := t.t2
      cdPos := t.cdPos, bitBuf := t.bitBuf, bitCnt := t.bitCnt, symOut := t.symOut } ∧
    (i ≠ .buildTable → t.warn = s.warn ∧ t.htPos = s.htPos ∧ t.t0 = s.t0 ∧ t.t1 = s.t1 ∧ t.t2 = s.t2) ∧
    (∀ k : CodeSpace, k ≠ s.buildIdx → t.table k = s.table k) ∧
    (i ≠ .decodeToken → (∀ k, i ≠ .decodeSymbol k) →
      t.cdPos = s.cdPos ∧ t.bitBuf = s.bitBuf ∧ t.bitCnt = s.bitCnt ∧ t.symOut = s.symOut)

/-- R285 and R175: whatever instruction enters ERROR, ERR_INDEX and ERR_TABLE name the failing operation by the error's kind; the table of a
decode error is the code space of DECODE_SYMBOL, and in DECODE_TOKEN the first code space whose lookup fails. -/
def Obligations.ErrorContextNamesTheOperation : Prop :=
  ∀ (i : Instr) (s t : State), s.phase ≠ .error → exec i s = .next t → t.phase = .error →
    (match t.errKind with
      | .none => False
      | .htTruncated => i = .buildTable ∧ t.errIndex = Word.store t.buildIdx.val ∧ t.errTable = 0
      | .tableOversubscribed => i = .buildTable ∧ t.errIndex = Word.store t.buildIdx.val ∧ t.errTable = 0
      | .tokenCapacity => t.errIndex = 0#32 ∧ t.errTable = 0
      | .invalidPrefixCode => t.errIndex = t.tokIdx ∧ (i = .decodeToken ∨ i = .decodeSymbol t.errTable)
      | .outOfCompressedData => t.errIndex = t.tokIdx ∧ (i = .decodeToken ∨ i = .decodeSymbol t.errTable)
      | .outOfLiteralData => t.errIndex = t.tokIdx ∧ t.errTable = 0
      | .invalidReference => t.errIndex = t.tokIdx ∧ t.errTable = 0
      | .outputOverflow => t.errIndex = t.tokIdx ∧ t.errTable = 0) ∧
    (i = .decodeToken → FirstFailingLookup s t t.errTable)

/-- R227 and R287: DONE, ERROR and IDLE are left only by a START or a reset of the host. -/
def Obligations.IdleStatesAreLeftOnlyByTheHost : Prop :=
  ∀ s t : State, s.busy = false → step s = .next t → t.phase ≠ s.phase →
    (∃ data rest, s.agenda = .write 0x00#32 data :: rest ∧ data.getLsbD 0 = true ∧ t.phase = .build) ∨
    (∃ cap rest, s.agenda = .decodeSegment cap :: rest ∧ t.phase = .build) ∨
    (∃ rest, s.agenda = .reset :: rest ∧ t.phase = .idle)

/-! ## Prefix decoder -/

/-- The refill and the window (R68, R151, R153): from a cursor that shows the stream, a refill buffers 16 to 23 bits of the stream, and
the window's bits are the next 16 stream bits, most significant first. -/
def Obligations.WindowShowsTheStream : Prop :=
  ∀ s : State, s.CursorInv →
    s.refill.CursorInv ∧ 16 ≤ s.refill.bitCnt.toNat ∧ s.refill.consumed = s.consumed ∧
      ∀ j < 16, s.refill.window.getLsbD (15 - j) = s.streamBit (s.consumed + j)

/-- R150 and R154 to R157: with w the next 16 stream bits and e the entry of T[t] at w, DECODE_SYMBOL is INVALID_PREFIX_CODE on the
sentinel, then OUT_OF_COMPRESSED_DATA where the codeword would pass the last CD bit, and otherwise consumes LEN bits and returns
SYM (in the model's `symOut`, log 8). A failing lookup consumes no bit, and the refill's
writes stay (R158): 16 to 23 bits of the stream are buffered. -/
def Obligations.DecodeSymbolFollowsTheEntry : Prop :=
  ∀ (s : State) (t : CodeSpace) (w : Half), s.CursorInv →
    (∀ j < 16, w.getLsbD (15 - j) = s.streamBit (s.consumed + j)) →
    let e := (s.table t).read w
    (e = 0#16 → ∃ v : State, exec (.decodeSymbol t) s = .next v ∧ v.CursorInv ∧ 16 ≤ v.bitCnt.toNat ∧ v.consumed = s.consumed ∧
      v = State.raiseFatal { s with cdPos := v.cdPos, bitBuf := v.bitBuf, bitCnt := v.bitCnt } .invalidPrefixCode s.tokIdx t) ∧
    (e ≠ 0#16 → s.consumed + entryLength e > 8 * s.cdLen.toNat →
      ∃ v : State, exec (.decodeSymbol t) s = .next v ∧ v.CursorInv ∧ 16 ≤ v.bitCnt.toNat ∧ v.consumed = s.consumed ∧
        v = State.raiseFatal { s with cdPos := v.cdPos, bitBuf := v.bitBuf, bitCnt := v.bitCnt } .outOfCompressedData s.tokIdx t) ∧
    (e ≠ 0#16 → entryLength e ≤ 16 → s.consumed + entryLength e ≤ 8 * s.cdLen.toNat →
      ∃ v : State, exec (.decodeSymbol t) s = .next v ∧ v.CursorInv ∧ v.consumed = s.consumed + entryLength e ∧
        v = { s with cdPos := v.cdPos, bitBuf := v.bitBuf, bitCnt := v.bitCnt, symOut := entrySymbol e })

/-! ## Token decompressor -/

/-- R177 for one token: when the stream holds the codewords of control, offset low byte and offset high byte one after another, and they
end inside CD, DECODE_TOKEN stores exactly that token, advances TOK_IDX and consumes exactly their bits (R170 to R172, R231). -/
def Obligations.DecodeTokenReproducesTheToken : Prop :=
  ∀ (s : State) (c lo hi : Byte) (c0 l0 c1 l1 c2 l2 : Nat), s.CursorInv →
    s.t0.Codes c0 l0 c → s.t1.Codes c1 l1 lo → s.t2.Codes c2 l2 hi →
    s.StreamHas s.consumed c0 l0 → s.StreamHas (s.consumed + l0) c1 l1 → s.StreamHas (s.consumed + l0 + l1) c2 l2 →
    s.consumed + l0 + l1 + l2 ≤ 8 * s.cdLen.toNat →
    ∃ t : State, exec .decodeToken s = .next t ∧
      t.tok.read s.tokIdx.toNat = ⟨c, hi ++ lo⟩ ∧ (∀ i, i ≠ s.tokIdx.toNat → t.tok.read i = s.tok.read i) ∧
      t.CursorInv ∧ t.consumed = s.consumed + l0 + l1 + l2 ∧
      t = { s with cdPos := t.cdPos, bitBuf := t.bitBuf, bitCnt := t.bitCnt, symOut := t.symOut, tok := t.tok,
                   tokIdx := s.tokIdx + 1#32 }

/-- R177: when the stream holds, from the cursor on, the codewords of a list of tokens one after another inside CD, the DECODE steps of the
run store exactly those tokens at TOK_IDX and above and consume exactly their bits. -/
def Obligations.DecodePhaseReproducesTheTokens : Prop :=
  ∀ (s : State) (tokens : List Token),
    s.agenda = [] → s.phase = .decode → s.CursorInv → s.tokIdx.toNat + tokens.length = s.tokCount.toNat →
    s.StreamHasTokens s.consumed tokens →
    ∃ t : State, Host.Core.run Sys2Proof.core tokens.length s = .next t ∧
      t.phase = .decode ∧ t.tokIdx = s.tokCount ∧ t.CursorInv ∧
      (∀ j tk, tokens[j]? = some tk → t.tok.read (s.tokIdx.toNat + j) = tk) ∧
      (∀ i < s.tokIdx.toNat, t.tok.read i = s.tok.read i) ∧
      t = { s with cdPos := t.cdPos, bitBuf := t.bitBuf, bitCnt := t.bitCnt, symOut := t.symOut, tok := t.tok, tokIdx := s.tokCount }

/-- R175: a DECODE_TOKEN either stores one token and advances TOK_IDX, or faults with the error of the first symbol whose lookup fails, that
symbol's code space in ERR_TABLE, TOK_IDX and every token kept; nothing but the bit cursor (and the model's `symOut`, log 8) is written
beside that. Outside ERROR, where the block never decodes, a failed lookup is told by the STATE it leaves. -/
def Obligations.DecodeTokenFaultsKeepTheStore : Prop :=
  ∀ s t : State, exec .decodeToken s = .next t →
    ((∃ tk : Token, t = { s with cdPos := t.cdPos, bitBuf := t.bitBuf, bitCnt := t.bitCnt, symOut := t.symOut,
                                 tok := s.tok.write s.tokIdx.toNat tk, tokIdx := s.tokIdx + 1#32 }) ∨
     (∃ k : CodeSpace, (t.errKind = .invalidPrefixCode ∨ t.errKind = .outOfCompressedData) ∧
        t = { s with cdPos := t.cdPos, bitBuf := t.bitBuf, bitCnt := t.bitCnt, symOut := t.symOut,
                     errKind := t.errKind, errIndex := s.tokIdx, errTable := k, phase := .error } ∧
        (s.phase ≠ .error → FirstFailingLookup s t k)))

/-- R232 and R236: where TOK_IDX has reached TOK_COUNT, a step of the DECODE phase goes to EXPAND with TOK_IDX 0, and a step of the
EXPAND phase ends the run; nothing else changes, so ERR_KIND stays 0. The two operations do so from any state (log 1). -/
def Obligations.PhaseChangesMoveTheSequencer : Prop :=
  ∀ s : State,
    exec .decodeToExpand s = .next { s with phase := .expand, tokIdx := 0#32 } ∧
    exec .complete s = .next { s with phase := .done } ∧
    (s.agenda = [] → s.tokIdx = s.tokCount →
      (s.phase = .decode → step s = .next { s with phase := .expand, tokIdx := 0#32 }) ∧
      (s.phase = .expand → step s = .next { s with phase := .done }))

/-! ## Token expander -/

/-- R191: NOP has no effect; the sequencer moves on to the next token (R235, log 29). -/
def Obligations.NopHasNoEffect : Prop :=
  ∀ s : State, exec .nop s = .next { s with tokIdx := s.tokIdx + 1#32 }

/-- R192, R193, R195 and R194's check for LIT: the literal bytes are copied in order, the cursors rise by n = c + 1, every other OUT byte
and every other register is kept; a shortage of literals comes before an overflow, and each leaves everything but the error. TOK_IDX + 1 is the
sequencer's (R235, log 29). -/
def Obligations.LitCopiesLiterals : Prop :=
  ∀ (s : State) (c : Byte), c ≠ 0xFF#8 →
    let n := c.toNat + 1
    let q := s.outLen.toNat
    let p := s.litPos.toNat
    (p + n ≤ s.litLen.toNat → q + n ≤ s.outCap.toNat → s.out.wf = true →
      ∃ m : Memory, exec (.lit c) s =
          .next { s with out := m, outLen := Word.store (q + n), litPos := Word.store (p + n), tokIdx := s.tokIdx + 1#32 } ∧
        (∀ j < n, m.read (q + j) = s.lit.read (p + j)) ∧
        ∀ a, a < q ∨ q + n ≤ a → m.read a = s.out.read a) ∧
    (s.litLen.toNat < p + n → exec (.lit c) s = .next (s.raiseFatal .outOfLiteralData s.tokIdx 0)) ∧
    (p + n ≤ s.litLen.toNat → s.outCap.toNat < q + n → exec (.lit c) s = .next (s.raiseFatal .outputOverflow s.tokIdx 0))

/-- R196 to R199 and R194's check for COPY: the copied bytes repeat the last d bytes with period d, OUT_LEN rises by n = c + 2, every
other OUT byte and every other register is kept; an invalid reference comes before an overflow, and each leaves everything but the
error. TOK_IDX + 1 is the sequencer's (R235, log 29). -/
def Obligations.CopyRepeatsTheLastBytes : Prop :=
  ∀ (s : State) (o : Half) (c : Byte), o ≠ 0#16 →
    let n := c.toNat + 2
    let d := o.toNat
    let q := s.outLen.toNat
    (d ≤ q → q + n ≤ s.outCap.toNat → s.out.wf = true →
      ∃ m : Memory, exec (.copy o c) s = .next { s with out := m, outLen := Word.store (q + n), tokIdx := s.tokIdx + 1#32 } ∧
        (∀ j < n, m.read (q + j) = s.out.read (q - d + j % d)) ∧
        ∀ a, a < q ∨ q + n ≤ a → m.read a = s.out.read a) ∧
    (q < d → exec (.copy o c) s = .next (s.raiseFatal .invalidReference s.tokIdx 0)) ∧
    (d ≤ q → s.outCap.toNat < q + n → exec (.copy o c) s = .next (s.raiseFatal .outputOverflow s.tokIdx 0))

/-- R190: EXPAND_TOKEN is the operation of TOK[TOK_IDX]'s kind, and it completes where that operation's checks pass: TOK_IDX rises, OUT_LEN
and LIT_POS rise by the token's counts. -/
def Obligations.ExpandTokenRunsItsKind : Prop :=
  ∀ s : State,
    let tk := s.tok.read s.tokIdx.toNat
    let n := tk.control.toNat
    exec .expandToken s = exec (decodeTokenFields tk.offset tk.control) s ∧
    (tk.offset = 0#16 → tk.control = 0xFF#8 → exec .expandToken s = .next { s with tokIdx := s.tokIdx + 1#32 }) ∧
    (tk.offset = 0#16 → tk.control ≠ 0xFF#8 → s.litPos.toNat + (n + 1) ≤ s.litLen.toNat → s.outLen.toNat + (n + 1) ≤ s.outCap.toNat →
      ∃ t : State, exec .expandToken s = .next t ∧ t.outLen.toNat = s.outLen.toNat + (n + 1) ∧ t.litPos.toNat = s.litPos.toNat + (n + 1) ∧
        t = { s with out := t.out, outLen := t.outLen, litPos := t.litPos, tokIdx := s.tokIdx + 1#32 }) ∧
    (tk.offset ≠ 0#16 → tk.offset.toNat ≤ s.outLen.toNat → s.outLen.toNat + (n + 2) ≤ s.outCap.toNat →
      ∃ t : State, exec .expandToken s = .next t ∧ t.outLen.toNat = s.outLen.toNat + (n + 2) ∧
        t = { s with out := t.out, outLen := t.outLen, tokIdx := s.tokIdx + 1#32 })

/-! ## Host register port -/

/-- R222: an accepted START clears the run's registers and enters BUILD; everything else is kept. The model's own record of OUT as it stood
before the run begins anew (`outBefore`, `outSynced`; log 10). -/
def Obligations.StartBeginsARun : Prop :=
  ∀ s : State, s.busy = false →
    exec .start s = .next { s with
      errKind := .none, errIndex := 0#32, errTable := 0, warn := 0#3
      outLen := 0#32, litPos := 0#32, htPos := 0#32, buildIdx := 0, tokIdx := 0#32
      cdPos := 0, bitBuf := 0#32, bitCnt := 0#5, phase := .build, outBefore := s.out, outSynced := false }

/-- R223: START while busy, and a write of CTRL with bit 0 = 0 in any state, have no effect. -/
def Obligations.StartIsIgnoredWhileBusy : Prop :=
  ∀ s : State,
    (s.busy = true → exec .start s = .next s) ∧
    ∀ data : Word, data.getLsbD 0 = false → exec (.regWrite 0x00#32 data) s = .next s

/-- R224: the five RW registers store the word while idle and keep their value while busy. -/
def Obligations.WritableRegistersStoreTheWord : Prop :=
  ∀ (s : State) (data : Word),
    (s.busy = false →
      exec (.regWrite 0x18#32 data) s = .next { s with htLen := data } ∧
      exec (.regWrite 0x1C#32 data) s = .next { s with cdLen := data } ∧
      exec (.regWrite 0x20#32 data) s = .next { s with tokCount := data } ∧
      exec (.regWrite 0x24#32 data) s = .next { s with litLen := data } ∧
      exec (.regWrite 0x28#32 data) s = .next { s with outCap := data }) ∧
    (s.busy = true → ∀ offset : Word, exec (.regWrite offset data) s = .next s)

/-- R225 and R41: a write to a read-only register or to an unmapped offset is ignored. -/
def Obligations.OtherWritesAreIgnored : Prop :=
  ∀ (s : State) (offset data : Word),
    offset ∉ [0x00#32, 0x18#32, 0x1C#32, 0x20#32, 0x24#32, 0x28#32] → exec (.regWrite offset data) s = .next s

/-- R221: a read returns the register's value, unused bits 0, and 0 for CTRL and unmapped offsets (R22 to R41), and changes no state
(the word stands in the model's `hostData`, log 9; a read of STATUS that returns DONE or ERROR is noted in `outSynced`, log 10). -/
def Obligations.RegReadReturnsTheRegister : Prop :=
  ∀ s : State,
    let reads := fun (offset value : Word) => exec (.regRead offset) s = .next { s with hostData := value }
    exec (.regRead 0x04#32) s = .next { s with
      hostData := s.phase.code.setWidth 32
      outSynced := s.outSynced || (decide (s.phase = .done) || decide (s.phase = .error)) } ∧
    reads 0x00#32 0#32 ∧ reads 0x08#32 (s.errKind.code.setWidth 32) ∧
    reads 0x0C#32 s.errIndex ∧ reads 0x10#32 (BitVec.ofNat 32 s.errTable.val) ∧ reads 0x14#32 (s.warn.setWidth 32) ∧
    reads 0x18#32 s.htLen ∧ reads 0x1C#32 s.cdLen ∧ reads 0x20#32 s.tokCount ∧ reads 0x24#32 s.litLen ∧ reads 0x28#32 s.outCap ∧
    reads 0x2C#32 s.outLen ∧ reads 0x30#32 (BitVec.ofNat 32 s.buildIdx.val) ∧ reads 0x34#32 s.tokIdx ∧ reads 0x38#32 s.htPos ∧
    reads 0x3C#32 (BitVec.ofNat 32 s.cdPos) ∧ reads 0x40#32 (s.bitCnt.setWidth 32) ∧ reads 0x44#32 s.bitBuf ∧
    reads 0x48#32 s.litPos ∧
    ∀ offset : Word, (0x48 < offset.toNat ∨ offset.toNat % 4 ≠ 0) → reads offset 0#32

/-- R310: every register reads 0 after reset and the block is idle. -/
def Obligations.ResetRegistersReadZero : Prop :=
  ∀ offset : Word, State.reset.readWord offset = 0#32 ∧ State.reset.phase = .idle ∧ State.reset.cdPos = 0

/-- R310 and R311: a reset at any moment leaves every register at 0 and the cursor empty, records no error, and changes no buffer. -/
def Obligations.ResetMoveClearsTheRegisters : Prop :=
  ∀ (s : State) (rest : List HostMove), s.agenda = .reset :: rest →
    ∃ t : State, step s = .next t ∧ (∀ offset : Word, t.readWord offset = 0#32) ∧ t.phase = .idle ∧ t.errKind = .none ∧ t.cdPos = 0 ∧
      t.ht = s.ht ∧ t.cd = s.cd ∧ t.lit = s.lit ∧ t.out = s.out ∧ t.maxTokens = s.maxTokens ∧ t.fe = s.fe ∧ t.agenda = rest

/-- R77, R78 and R321: once the host has read STATUS as DONE or ERROR (`outSynced`, log 10; `StatusReadMakesOutDefined`) a host read of OUT
returns the byte OUT holds; before that, also where the block is already idle, it returns the byte held before the run or the byte held
now, a free choice. It changes nothing of the block. -/
def Obligations.HostReadsOfOut : Prop :=
  ∀ (s : State) (i : Nat) (rest : List HostMove), s.agenda = .peek .out i :: rest →
    ∃ t : State, step s = .next t ∧ t = { s with agenda := rest, hostByte := t.hostByte, free := t.free } ∧
      (s.outSynced = true → t.hostByte = s.out.read i) ∧
      (s.outSynced = false → t.hostByte = s.outBefore.read i ∨ t.hostByte = s.out.read i)

/-- R220, R60 and R71: the host reads a byte of HT, CD or LIT at any time, busy or idle: it gets the byte the buffer holds (in the model's
`hostByte`, log 9), and nothing else changes. Reads of OUT: `HostReadsOfOut`. -/
def Obligations.HostReadsOfInputBuffers : Prop :=
  ∀ (s : State) (p : Port) (i : Nat) (rest : List HostMove), s.agenda = .peek p i :: rest → p ≠ .out →
    step s = .next { s with agenda := rest, hostByte := (s.buffer p).read i }

/-- R77, R78 and R321: OUT becomes defined to the host only by a read of STATUS (a single one or the poll) that returns DONE or ERROR, which
leaves OUT and OUT_LEN as the run left them; it stays so until the next START; and the bytes held before the run are those OUT held at its
START until the host itself writes OUT while the block is idle (log 10). -/
def Obligations.StatusReadMakesOutDefined : Prop :=
  ∀ s t : State, step s = .next t →
    let readsStatus := (∃ rest, s.agenda = .read 0x04#32 :: rest) ∨ (∃ rest, s.agenda = .await :: rest)
    (s.outSynced = false → t.outSynced = true → (s.phase = .done ∨ s.phase = .error) ∧ readsStatus) ∧
    (s.phase = .done ∨ s.phase = .error → readsStatus → t.outSynced = true ∧ t.phase = s.phase ∧ t.out = s.out ∧ t.outLen = s.outLen) ∧
    (s.outSynced = true → t.outSynced = false → s.busy = false ∧ t.phase = .build) ∧
    (s.busy = true → t.outBefore = s.outBefore) ∧
    (t.outBefore = s.outBefore ∨ (s.busy = false ∧ t.phase = .build ∧ t.outBefore = s.out) ∨
      ∃ (i : Nat) (v : Byte) (rest : List HostMove), s.agenda = .fill .out i v :: rest ∧ t.outBefore = s.outBefore.write i v)

/-- R76 and R320: while idle the host writes a buffer byte, and only that byte; while busy the model has no such move (log 11). The host
sees its own write of OUT (`outBefore`, log 10). -/
def Obligations.HostFillsBuffersWhileIdle : Prop :=
  ∀ (s : State) (p : Port) (i : Nat) (v : Byte) (rest : List HostMove), s.agenda = .fill p i v :: rest →
    (s.busy = true → step s = .refused .bufferWriteWhileBusy) ∧
    (s.busy = false →
      ∃ t : State, step s = .next t ∧ t = { s with agenda := rest, ht := t.ht, cd := t.cd, lit := t.lit, out := t.out, outBefore := t.outBefore } ∧
        (p ≠ .out → t.outBefore = s.outBefore) ∧
        ((s.buffer p).wf = true → (t.buffer p).read i = v) ∧
        ∀ (p' : Port) (a : Nat), p' ≠ p ∨ a ≠ i → (t.buffer p').read a = (s.buffer p').read a)

/-! ## Front end -/

/-- R250 and R252: the four bytes "CROM" are accepted, four others are FE_BAD_MAGIC, fewer are FE_TRUNCATED_INPUT, and no step of the machine
brings the front end back to the magic. The byte codes are the spec's general knowledge (PRESUMED, log 26); the stream position after an
error is free (log 13). -/
def Obligations.MagicIsCheckedOnce : Prop :=
  ∀ s : State,
    (∀ rest : List Byte, s.fe.stream.drop s.fe.pos = [0x43#8, 0x52#8, 0x4F#8, 0x4D#8] ++ rest →
      exec .magic s = .next { s with fe := { s.fe with phase := .soi, pos := s.fe.pos + 4 } }) ∧
    (∀ (b0 b1 b2 b3 : Byte) (rest : List Byte), s.fe.stream.drop s.fe.pos = [b0, b1, b2, b3] ++ rest →
      ¬(b0 = 0x43#8 ∧ b1 = 0x52#8 ∧ b2 = 0x4F#8 ∧ b3 = 0x4D#8) →
      ∃ t : State, exec .magic s = .next t ∧ s.SameBlock t ∧ t.fe = { s.fe with phase := .failed .badMagic, pos := t.fe.pos }) ∧
    ((s.fe.stream.drop s.fe.pos).length < 4 →
      ∃ t : State, exec .magic s = .next t ∧ s.SameBlock t ∧ t.fe = { s.fe with phase := .failed .truncatedInput, pos := t.fe.pos }) ∧
    ∀ t : State, step s = .next t → t.fe.phase = .magic → s.fe.phase = .magic

/-- R253: the segment start tag is two bytes; another value warns and is consumed all the same. The warnings start anew with the segment
(log 21). -/
def Obligations.SegmentStartTag : Prop :=
  ∀ (s : State) (b0 b1 : Byte) (rest : List Byte), s.fe.stream.drop s.fe.pos = [b0, b1] ++ rest →
    exec .soi s = .next { s with fe := { s.fe with
      phase := .dht, pos := s.fe.pos + 2, warnings := if b0 = 0xFF#8 ∧ b1 = 0xD8#8 then [] else [.soiTag] } }

/-- R254: tag, length L, L - 2 table bytes; another tag warns; L below 2 is FE_BAD_LENGTH. -/
def Obligations.TableDefinitionChunk : Prop :=
  ∀ (s : State) (b0 b1 h l : Byte) (body rest : List Byte),
    s.fe.stream.drop s.fe.pos = [b0, b1, h, l] ++ body ++ rest →
    let len := 256 * h.toNat + l.toNat
    let warnings := s.fe.warnings ++ (if b0 = 0xFF#8 ∧ b1 = 0xC4#8 then [] else [.dhtTag])
    (body.length + 2 = len →
      exec .dht s = .next { s with fe := { s.fe with phase := .b1, pos := s.fe.pos + 2 + len, warnings := warnings, htBytes := body } }) ∧
    (len < 2 →
      ∃ t : State, exec .dht s = .next t ∧ s.SameBlock t ∧
        t.fe = { s.fe with phase := .failed .badLength, pos := t.fe.pos, warnings := warnings })

/-- R255 and R256: tag and length only warn; one byte is skipped; the 32-bit counts are big-endian; CD_COUNT bytes follow. -/
def Obligations.CompressedDataChunk : Prop :=
  ∀ (s : State) (b0 b1 h l skip c3 c2 c1 c0 n3 n2 n1 n0 : Byte) (body rest : List Byte),
    s.fe.stream.drop s.fe.pos = [b0, b1, h, l, skip, c3, c2, c1, c0, n3, n2, n1, n0] ++ body ++ rest →
    body.length = 0x1000000 * c3.toNat + 0x10000 * c2.toNat + 0x100 * c1.toNat + c0.toNat →
    exec .b1 s = .next { s with fe := { s.fe with
      phase := .b2, pos := s.fe.pos + 13 + body.length, cdBytes := body, tokN := n3 ++ n2 ++ n1 ++ n0
      warnings := s.fe.warnings ++ (if b0 = 0xFF#8 ∧ b1 = 0xB1#8 then [] else [.b1Tag]) ++
        (if h = 0x00#8 ∧ l = 0x0B#8 then [] else [.b1Len]) } }

/-- R257 and R258: tag and length only warn; LIT_COUNT is big-endian; LIT_COUNT bytes follow and the segment is complete. -/
def Obligations.LiteralDataChunk : Prop :=
  ∀ (s : State) (b0 b1 h l c3 c2 c1 c0 : Byte) (body rest : List Byte),
    s.fe.stream.drop s.fe.pos = [b0, b1, h, l, c3, c2, c1, c0] ++ body ++ rest →
    body.length = 0x1000000 * c3.toNat + 0x10000 * c2.toNat + 0x100 * c1.toNat + c0.toNat →
    exec .b2 s = .next { s with fe := { s.fe with
      phase := .ready, pos := s.fe.pos + 8 + body.length, litBytes := body
      warnings := s.fe.warnings ++ (if b0 = 0xFF#8 ∧ b1 = 0xB2#8 then [] else [.b2Tag]) ++
        (if h = 0x00#8 ∧ l = 0x06#8 then [] else [.b2Len]) } }

/-- R252: a chunk that runs past the end of the stream, in its fixed part or in the bytes it counts, is FE_TRUNCATED_INPUT, and the block
is untouched. -/
def Obligations.ShortChunksAreTruncatedInput : Prop :=
  ∀ s : State,
    let left := s.fe.stream.drop s.fe.pos
    let truncated := fun i => ∃ t : State, exec i s = .next t ∧ s.SameBlock t ∧ t.fe.phase = .failed .truncatedInput
    (left.length < 4 → truncated .magic) ∧ (left.length < 2 → truncated .soi) ∧ (left.length < 4 → truncated .dht) ∧
    (left.length < 13 → truncated .b1) ∧ (left.length < 8 → truncated .b2) ∧
    (∀ (b0 b1 h l : Byte) (body : List Byte), left = [b0, b1, h, l] ++ body → body.length + 2 < 256 * h.toNat + l.toNat →
      truncated .dht) ∧
    (∀ (b0 b1 h l skip c3 c2 c1 c0 n3 n2 n1 n0 : Byte) (body : List Byte),
      left = [b0, b1, h, l, skip, c3, c2, c1, c0, n3, n2, n1, n0] ++ body →
      body.length < 0x1000000 * c3.toNat + 0x10000 * c2.toNat + 0x100 * c1.toNat + c0.toNat → truncated .b1) ∧
    (∀ (b0 b1 h l c3 c2 c1 c0 : Byte) (body : List Byte), left = [b0, b1, h, l, c3, c2, c1, c0] ++ body →
      body.length < 0x1000000 * c3.toNat + 0x10000 * c2.toNat + 0x100 * c1.toNat + c0.toNat → truncated .b2)

/-- R261: a segment laid out as the table says is read back by the four chunk operations: its three regions, its token count, no warning,
27 + H + CD_COUNT + LIT_COUNT bytes consumed, the block untouched. -/
def Obligations.SegmentLayoutIsReadBack : Prop :=
  ∀ (s : State) (htBytes cdBytes litBytes : List Byte) (skip : Byte) (tokN : Word) (rest : List Byte),
    htBytes.length + 2 < 2 ^ 16 → cdBytes.length < 2 ^ 32 → litBytes.length < 2 ^ 32 →
    s.fe.stream.drop s.fe.pos = segmentBytes htBytes cdBytes litBytes skip tokN ++ rest →
    ∃ s1 s2 s3 t : State, exec .soi s = .next s1 ∧ exec .dht s1 = .next s2 ∧ exec .b1 s2 = .next s3 ∧ exec .b2 s3 = .next t ∧
      t = { s with fe := {
        phase := .ready, stream := s.fe.stream
        pos := s.fe.pos + 27 + htBytes.length + cdBytes.length + litBytes.length
        warnings := [], htBytes := htBytes, cdBytes := cdBytes, litBytes := litBytes, tokN := tokN } }

/-- R6 and R264: the front end changes nothing of the block, whatever it reads. -/
def Obligations.ParsingLeavesTheBlockAlone : Prop :=
  ∀ (s : State) (rest : List HostMove), s.agenda = .parse :: rest →
    ∃ t : State, step s = .next t ∧ t = { s with agenda := rest, fe := t.fe, free := t.free }

/-- R262 and R265: after a segment, no byte left ends the stream and a byte left starts the next segment there; after the end or an error
the front end takes no step (log 27). That a segment which is `ready`, complete and not yet handed to the block, is given up when the host
parses on is the model's choice (DESIGN CHOICE, log 31), no rule of the spec. -/
def Obligations.EndOfInputIsChecked : Prop :=
  ∀ (s : State) (rest : List HostMove), s.agenda = .parse :: rest →
    (s.fe.phase = .ready ∨ s.fe.phase = .taken →
      (s.fe.pos < s.fe.stream.length → step s = .next { s with agenda := rest, fe := { s.fe with phase := .soi } }) ∧
      (s.fe.pos = s.fe.stream.length → step s = .next { s with agenda := rest, fe := { s.fe with phase := .ended } })) ∧
    (s.fe.phase = .ended ∨ (∃ e, s.fe.phase = .failed e) → step s = .next { s with agenda := rest })

/-- R226, R313 and R222: handing a segment over while the block is idle loads the three buffers from index 0, programs the five registers and
starts a run as START does, with the run's registers and the bit cursor cleared; without a segment nothing happens (R264). One move for the
host's sequence is the model's choice (log 20); `outBefore` and `outSynced` are log 10's. -/
def Obligations.SegmentHandoverStartsTheRun : Prop :=
  ∀ (s : State) (cap : Word) (rest : List HostMove), s.agenda = .decodeSegment cap :: rest → s.busy = false →
    (s.fe.phase = .ready → s.ht.wf = true → s.cd.wf = true → s.lit.wf = true →
      ∃ t : State, step s = .next t ∧
        t = { s with
          agenda := rest, fe := { s.fe with phase := .taken }, ht := t.ht, cd := t.cd, lit := t.lit
          htLen := Word.store s.fe.htBytes.length, cdLen := Word.store s.fe.cdBytes.length
          litLen := Word.store s.fe.litBytes.length, tokCount := s.fe.tokN, outCap := cap
          errKind := .none, errIndex := 0#32, errTable := 0, warn := 0#3
          outLen := 0#32, litPos := 0#32, htPos := 0#32, buildIdx := 0, tokIdx := 0#32
          cdPos := 0, bitBuf := 0#32, bitCnt := 0#5, phase := .build, outBefore := s.out, outSynced := false } ∧
        (∀ j b, s.fe.htBytes[j]? = some b → t.ht.read j = b) ∧ (∀ j, s.fe.htBytes.length ≤ j → t.ht.read j = s.ht.read j) ∧
        (∀ j b, s.fe.cdBytes[j]? = some b → t.cd.read j = b) ∧ (∀ j, s.fe.cdBytes.length ≤ j → t.cd.read j = s.cd.read j) ∧
        (∀ j b, s.fe.litBytes[j]? = some b → t.lit.read j = b) ∧ (∀ j, s.fe.litBytes.length ≤ j → t.lit.read j = s.lit.read j)) ∧
    (s.fe.phase ≠ .ready → step s = .next { s with agenda := rest })

/-! ## The whole machine -/

/-- The invariant holds after reset. -/
def Obligations.ResetMeetsTheInvariant : Prop := State.reset.Inv

/-- Every step, of the block or of the host, keeps the invariant: canonical memories, the error registers' rules (R24 to R26), the cursors
inside the lengths (R33, R35, R36, R40, R48), the cursor showing the stream (R68), the tables and tokens a phase relies on built and
written (R44, R46), the OUT bytes at OUT_LEN and above those held before the run (R77, R202; log 10). -/
def Obligations.StepKeepsTheInvariant : Prop :=
  ∀ s t : State, s.Inv → step s = .next t → t.Inv

/-- R237: a busy block left alone always has a step, and each step leaves fewer steps to the end of the run. TOK_IDX is at most TOK_COUNT in
every state a run reaches (R35; `StepKeepsTheInvariant`). -/
def Obligations.BlockStepsCountDown : Prop :=
  ∀ s : State, s.agenda = [] → s.busy = true → (s.phase = .build ∨ s.tokIdx.toNat ≤ s.tokCount.toNat) →
    ∃ t : State, step s = .next t ∧ t.agenda = [] ∧ t.stepsLeft < s.stepsLeft

/-- R237: a run ends within 2·TOK_COUNT + 5 block steps of its START, in DONE or ERROR, from whatever state the START found. -/
def Obligations.RunEndsWithinItsBound : Prop :=
  ∀ s : State, s.agenda = [] →
    ∃ (k : Nat) (t : State), k ≤ 2 * s.tokCount.toNat + 5 ∧ Host.Core.run Sys2Proof.core k s.beginRun = .next t ∧
      (t.phase = .done ∨ t.phase = .error)

/-- R226: a segment handed to an idle block always gets a result of its own: the handover starts a run (log 20), and within 2·TOK_N + 5 steps
of the block that run ends with the OUT bytes below OUT_LEN at DONE, or with the block's error and its context at ERROR. -/
def Obligations.SegmentsGetAResult : Prop :=
  ∀ (s : State) (cap : Word), s.agenda = [.decodeSegment cap] → s.busy = false → s.fe.phase = .ready →
    ∃ u : State, step s = .next u ∧ u.phase = .build ∧ u.segmentResult = .pending ∧
      ∃ (k : Nat) (t : State), 1 ≤ k ∧ k ≤ 2 * s.fe.tokN.toNat + 5 ∧ Host.Core.run Sys2Proof.core k u = .next t ∧ t.fe.phase = .taken ∧
        ((t.phase = .done ∧ t.segmentResult = .output (t.out.readBytes 0 t.outLen.toNat)) ∨
         (t.phase = .error ∧ t.errKind ≠ .none ∧ t.segmentResult = .blockError t.errKind t.errIndex t.errTable))

/-- R62 and R238: a block step reads nothing but the inputs below their lengths and what the run itself has written: two states that agree in
these (`State.SameRun`) step to states that agree again, and where one stops the other does. -/
def Obligations.StepKeepsSameRun : Prop :=
  ∀ s s' : State, s.agenda = [] → s'.agenda = [] → s.SameRun s' →
    (∀ t : State, step s = .next t → ∃ t' : State, step s' = .next t' ∧ t'.agenda = [] ∧ t.agenda = [] ∧ t.SameRun t') ∧
    (∀ f : Fault, step s = .fault f → step s' = .fault f)

/-- R238, R62 and R83: what a run does depends on its inputs only. Two states with the same HT, CD and LIT bytes below HT_LEN, CD_LEN and
LIT_LEN, the same lengths, TOK_COUNT, OUT_CAP and MAX_TOKENS, however different in the bytes above, the prefix tables, the token store, OUT
and every other register, give after START and any number of steps the same registers and the same OUT bytes below OUT_LEN. -/
def Obligations.RunIgnoresLeftovers : Prop :=
  ∀ (s s' : State) (k : Nat),
    s.agenda = [] → s'.agenda = [] → s.htLen = s'.htLen → s.cdLen = s'.cdLen → s.litLen = s'.litLen → s.tokCount = s'.tokCount →
    s.outCap = s'.outCap → s.maxTokens = s'.maxTokens →
    (∀ a < s.htLen.toNat, s.ht.read a = s'.ht.read a) → (∀ a < s.cdLen.toNat, s.cd.read a = s'.cd.read a) →
    (∀ a < s.litLen.toNat, s.lit.read a = s'.lit.read a) → s.out.wf = true → s'.out.wf = true →
    ∃ t t' : State, Host.Core.run Sys2Proof.core k s.beginRun = .next t ∧ Host.Core.run Sys2Proof.core k s'.beginRun = .next t' ∧
      (∀ offset : Word, t.readWord offset = t'.readWord offset) ∧
      ∀ a < t.outLen.toNat, t.out.read a = t'.out.read a

/-- R224, R61 and R12: while the block is busy no step but a reset changes the five RW registers, and none changes HT, CD, LIT or
MAX_TOKENS. -/
def Obligations.RunInputsStayFixed : Prop :=
  ∀ s t : State, s.busy = true → step s = .next t →
    t.ht = s.ht ∧ t.cd = s.cd ∧ t.lit = s.lit ∧ t.maxTokens = s.maxTokens ∧
    ((∀ rest, s.agenda ≠ .reset :: rest) →
      t.htLen = s.htLen ∧ t.cdLen = s.cdLen ∧ t.tokCount = s.tokCount ∧ t.litLen = s.litLen ∧ t.outCap = s.outCap)

/-- R33, R62, R202 and R230: while busy and but for a reset, OUT_LEN never falls, OUT changes in the EXPAND phase only and there only between
the old and the new OUT_LEN, and never at OUT_CAP or above. -/
def Obligations.OutputOnlyGrows : Prop :=
  ∀ s t : State, s.busy = true → (∀ rest, s.agenda ≠ .reset :: rest) → step s = .next t →
    s.outLen.toNat ≤ t.outLen.toNat ∧ (s.phase ≠ .expand → t.out = s.out) ∧
    (∀ a, a < s.outLen.toNat ∨ t.outLen.toNat ≤ a → t.out.read a = s.out.read a) ∧
    ∀ a, s.outCap.toNat ≤ a → t.out.read a = s.out.read a

/-- R173: a stored token is not written again in the run, and R43: a table built for a code space below BUILD_IDX is not written again. That
an entry at TOK_COUNT or above keeps an earlier run's token is the model's choice (U2, log 30). -/
def Obligations.TokensAndTablesStayOnceWritten : Prop :=
  ∀ s t : State, s.busy = true → (∀ rest, s.agenda ≠ .reset :: rest) → step s = .next t →
    (∀ i, (s.phase = .decode → i ≠ s.tokIdx.toNat) → t.tok.read i = s.tok.read i) ∧
    (∀ k : CodeSpace, (s.phase = .build → k ≠ s.buildIdx) → t.table k = s.table k)
end

