-- ==== Sys2Proof/Laws/State.lean ====
section
/-! SUPPORT. Laws/State.lean: each field of the state after each named update, for simp; no later proof unfolds a record update. -/

namespace Sys2Proof.Machine

/-! ## raiseFatal -/

@[simp] theorem State.raiseFatal_phase (s : State) (kind : ErrKind) (i : Word) (t : CodeSpace) : (s.raiseFatal kind i t).phase = .error := rfl
@[simp] theorem State.raiseFatal_errKind (s : State) (kind : ErrKind) (i : Word) (t : CodeSpace) : (s.raiseFatal kind i t).errKind = kind := rfl
@[simp] theorem State.raiseFatal_errIndex (s : State) (kind : ErrKind) (i : Word) (t : CodeSpace) : (s.raiseFatal kind i t).errIndex = i := rfl
@[simp] theorem State.raiseFatal_errTable (s : State) (kind : ErrKind) (i : Word) (t : CodeSpace) : (s.raiseFatal kind i t).errTable = t := rfl
@[simp] theorem State.raiseFatal_warn (s : State) (kind : ErrKind) (i : Word) (t : CodeSpace) : (s.raiseFatal kind i t).warn = s.warn := rfl
@[simp] theorem State.raiseFatal_htLen (s : State) (kind : ErrKind) (i : Word) (t : CodeSpace) : (s.raiseFatal kind i t).htLen = s.htLen := rfl
@[simp] theorem State.raiseFatal_cdLen (s : State) (kind : ErrKind) (i : Word) (t : CodeSpace) : (s.raiseFatal kind i t).cdLen = s.cdLen := rfl
@[simp] theorem State.raiseFatal_tokCount (s : State) (kind : ErrKind) (i : Word) (t : CodeSpace) : (s.raiseFatal kind i t).tokCount = s.tokCount := rfl
@[simp] theorem State.raiseFatal_litLen (s : State) (kind : ErrKind) (i : Word) (t : CodeSpace) : (s.raiseFatal kind i t).litLen = s.litLen := rfl
@[simp] theorem State.raiseFatal_outCap (s : State) (kind : ErrKind) (i : Word) (t : CodeSpace) : (s.raiseFatal kind i t).outCap = s.outCap := rfl
@[simp] theorem State.raiseFatal_outLen (s : State) (kind : ErrKind) (i : Word) (t : CodeSpace) : (s.raiseFatal kind i t).outLen = s.outLen := rfl
@[simp] theorem State.raiseFatal_buildIdx (s : State) (kind : ErrKind) (i : Word) (t : CodeSpace) : (s.raiseFatal kind i t).buildIdx = s.buildIdx := rfl
@[simp] theorem State.raiseFatal_tokIdx (s : State) (kind : ErrKind) (i : Word) (t : CodeSpace) : (s.raiseFatal kind i t).tokIdx = s.tokIdx := rfl
@[simp] theorem State.raiseFatal_htPos (s : State) (kind : ErrKind) (i : Word) (t : CodeSpace) : (s.raiseFatal kind i t).htPos = s.htPos := rfl
@[simp] theorem State.raiseFatal_cdPos (s : State) (kind : ErrKind) (i : Word) (t : CodeSpace) : (s.raiseFatal kind i t).cdPos = s.cdPos := rfl
@[simp] theorem State.raiseFatal_bitCnt (s : State) (kind : ErrKind) (i : Word) (t : CodeSpace) : (s.raiseFatal kind i t).bitCnt = s.bitCnt := rfl
@[simp] theorem State.raiseFatal_bitBuf (s : State) (kind : ErrKind) (i : Word) (t : CodeSpace) : (s.raiseFatal kind i t).bitBuf = s.bitBuf := rfl
@[simp] theorem State.raiseFatal_litPos (s : State) (kind : ErrKind) (i : Word) (t : CodeSpace) : (s.raiseFatal kind i t).litPos = s.litPos := rfl
@[simp] theorem State.raiseFatal_t0 (s : State) (kind : ErrKind) (i : Word) (t : CodeSpace) : (s.raiseFatal kind i t).t0 = s.t0 := rfl
@[simp] theorem State.raiseFatal_t1 (s : State) (kind : ErrKind) (i : Word) (t : CodeSpace) : (s.raiseFatal kind i t).t1 = s.t1 := rfl
@[simp] theorem State.raiseFatal_t2 (s : State) (kind : ErrKind) (i : Word) (t : CodeSpace) : (s.raiseFatal kind i t).t2 = s.t2 := rfl
@[simp] theorem State.raiseFatal_tok (s : State) (kind : ErrKind) (i : Word) (t : CodeSpace) : (s.raiseFatal kind i t).tok = s.tok := rfl
@[simp] theorem State.raiseFatal_ht (s : State) (kind : ErrKind) (i : Word) (t : CodeSpace) : (s.raiseFatal kind i t).ht = s.ht := rfl
@[simp] theorem State.raiseFatal_cd (s : State) (kind : ErrKind) (i : Word) (t : CodeSpace) : (s.raiseFatal kind i t).cd = s.cd := rfl
@[simp] theorem State.raiseFatal_lit (s : State) (kind : ErrKind) (i : Word) (t : CodeSpace) : (s.raiseFatal kind i t).lit = s.lit := rfl
@[simp] theorem State.raiseFatal_out (s : State) (kind : ErrKind) (i : Word) (t : CodeSpace) : (s.raiseFatal kind i t).out = s.out := rfl
@[simp] theorem State.raiseFatal_maxTokens (s : State) (kind : ErrKind) (i : Word) (t : CodeSpace) : (s.raiseFatal kind i t).maxTokens = s.maxTokens := rfl
@[simp] theorem State.raiseFatal_fe (s : State) (kind : ErrKind) (i : Word) (t : CodeSpace) : (s.raiseFatal kind i t).fe = s.fe := rfl
@[simp] theorem State.raiseFatal_symOut (s : State) (kind : ErrKind) (i : Word) (t : CodeSpace) : (s.raiseFatal kind i t).symOut = s.symOut := rfl
@[simp] theorem State.raiseFatal_hostData (s : State) (kind : ErrKind) (i : Word) (t : CodeSpace) : (s.raiseFatal kind i t).hostData = s.hostData := rfl
@[simp] theorem State.raiseFatal_hostByte (s : State) (kind : ErrKind) (i : Word) (t : CodeSpace) : (s.raiseFatal kind i t).hostByte = s.hostByte := rfl
@[simp] theorem State.raiseFatal_outBefore (s : State) (kind : ErrKind) (i : Word) (t : CodeSpace) : (s.raiseFatal kind i t).outBefore = s.outBefore := rfl
@[simp] theorem State.raiseFatal_outSynced (s : State) (kind : ErrKind) (i : Word) (t : CodeSpace) : (s.raiseFatal kind i t).outSynced = s.outSynced := rfl
@[simp] theorem State.raiseFatal_agenda (s : State) (kind : ErrKind) (i : Word) (t : CodeSpace) : (s.raiseFatal kind i t).agenda = s.agenda := rfl
@[simp] theorem State.raiseFatal_free (s : State) (kind : ErrKind) (i : Word) (t : CodeSpace) : (s.raiseFatal kind i t).free = s.free := rfl

/-! ## raiseWarning -/

@[simp] theorem State.raiseWarning_phase (s : State) (k : CodeSpace) : (s.raiseWarning k).phase = s.phase := rfl
@[simp] theorem State.raiseWarning_errKind (s : State) (k : CodeSpace) : (s.raiseWarning k).errKind = s.errKind := rfl
@[simp] theorem State.raiseWarning_errIndex (s : State) (k : CodeSpace) : (s.raiseWarning k).errIndex = s.errIndex := rfl
@[simp] theorem State.raiseWarning_errTable (s : State) (k : CodeSpace) : (s.raiseWarning k).errTable = s.errTable := rfl
@[simp] theorem State.raiseWarning_warn (s : State) (k : CodeSpace) : (s.raiseWarning k).warn = s.warn ||| warnMask k := rfl
@[simp] theorem State.raiseWarning_htLen (s : State) (k : CodeSpace) : (s.raiseWarning k).htLen = s.htLen := rfl
@[simp] theorem State.raiseWarning_cdLen (s : State) (k : CodeSpace) : (s.raiseWarning k).cdLen = s.cdLen := rfl
@[simp] theorem State.raiseWarning_tokCount (s : State) (k : CodeSpace) : (s.raiseWarning k).tokCount = s.tokCount := rfl
@[simp] theorem State.raiseWarning_litLen (s : State) (k : CodeSpace) : (s.raiseWarning k).litLen = s.litLen := rfl
@[simp] theorem State.raiseWarning_outCap (s : State) (k : CodeSpace) : (s.raiseWarning k).outCap = s.outCap := rfl
@[simp] theorem State.raiseWarning_outLen (s : State) (k : CodeSpace) : (s.raiseWarning k).outLen = s.outLen := rfl
@[simp] theorem State.raiseWarning_buildIdx (s : State) (k : CodeSpace) : (s.raiseWarning k).buildIdx = s.buildIdx := rfl
@[simp] theorem State.raiseWarning_tokIdx (s : State) (k : CodeSpace) : (s.raiseWarning k).tokIdx = s.tokIdx := rfl
@[simp] theorem State.raiseWarning_htPos (s : State) (k : CodeSpace) : (s.raiseWarning k).htPos = s.htPos := rfl
@[simp] theorem State.raiseWarning_cdPos (s : State) (k : CodeSpace) : (s.raiseWarning k).cdPos = s.cdPos := rfl
@[simp] theorem State.raiseWarning_bitCnt (s : State) (k : CodeSpace) : (s.raiseWarning k).bitCnt = s.bitCnt := rfl
@[simp] theorem State.raiseWarning_bitBuf (s : State) (k : CodeSpace) : (s.raiseWarning k).bitBuf = s.bitBuf := rfl
@[simp] theorem State.raiseWarning_litPos (s : State) (k : CodeSpace) : (s.raiseWarning k).litPos = s.litPos := rfl
@[simp] theorem State.raiseWarning_t0 (s : State) (k : CodeSpace) : (s.raiseWarning k).t0 = s.t0 := rfl
@[simp] theorem State.raiseWarning_t1 (s : State) (k : CodeSpace) : (s.raiseWarning k).t1 = s.t1 := rfl
@[simp] theorem State.raiseWarning_t2 (s : State) (k : CodeSpace) : (s.raiseWarning k).t2 = s.t2 := rfl
@[simp] theorem State.raiseWarning_tok (s : State) (k : CodeSpace) : (s.raiseWarning k).tok = s.tok := rfl
@[simp] theorem State.raiseWarning_ht (s : State) (k : CodeSpace) : (s.raiseWarning k).ht = s.ht := rfl
@[simp] theorem State.raiseWarning_cd (s : State) (k : CodeSpace) : (s.raiseWarning k).cd = s.cd := rfl
@[simp] theorem State.raiseWarning_lit (s : State) (k : CodeSpace) : (s.raiseWarning k).lit = s.lit := rfl
@[simp] theorem State.raiseWarning_out (s : State) (k : CodeSpace) : (s.raiseWarning k).out = s.out := rfl
@[simp] theorem State.raiseWarning_maxTokens (s : State) (k : CodeSpace) : (s.raiseWarning k).maxTokens = s.maxTokens := rfl
@[simp] theorem State.raiseWarning_fe (s : State) (k : CodeSpace) : (s.raiseWarning k).fe = s.fe := rfl
@[simp] theorem State.raiseWarning_symOut (s : State) (k : CodeSpace) : (s.raiseWarning k).symOut = s.symOut := rfl
@[simp] theorem State.raiseWarning_hostData (s : State) (k : CodeSpace) : (s.raiseWarning k).hostData = s.hostData := rfl
@[simp] theorem State.raiseWarning_hostByte (s : State) (k : CodeSpace) : (s.raiseWarning k).hostByte = s.hostByte := rfl
@[simp] theorem State.raiseWarning_outBefore (s : State) (k : CodeSpace) : (s.raiseWarning k).outBefore = s.outBefore := rfl
@[simp] theorem State.raiseWarning_outSynced (s : State) (k : CodeSpace) : (s.raiseWarning k).outSynced = s.outSynced := rfl
@[simp] theorem State.raiseWarning_agenda (s : State) (k : CodeSpace) : (s.raiseWarning k).agenda = s.agenda := rfl
@[simp] theorem State.raiseWarning_free (s : State) (k : CodeSpace) : (s.raiseWarning k).free = s.free := rfl

/-! ## setWarn -/

@[simp] theorem State.setWarn_phase (s : State) (w : BitVec 3) : (s.setWarn w).phase = s.phase := rfl
@[simp] theorem State.setWarn_errKind (s : State) (w : BitVec 3) : (s.setWarn w).errKind = s.errKind := rfl
@[simp] theorem State.setWarn_errIndex (s : State) (w : BitVec 3) : (s.setWarn w).errIndex = s.errIndex := rfl
@[simp] theorem State.setWarn_errTable (s : State) (w : BitVec 3) : (s.setWarn w).errTable = s.errTable := rfl
@[simp] theorem State.setWarn_warn (s : State) (w : BitVec 3) : (s.setWarn w).warn = w := rfl
@[simp] theorem State.setWarn_htLen (s : State) (w : BitVec 3) : (s.setWarn w).htLen = s.htLen := rfl
@[simp] theorem State.setWarn_cdLen (s : State) (w : BitVec 3) : (s.setWarn w).cdLen = s.cdLen := rfl
@[simp] theorem State.setWarn_tokCount (s : State) (w : BitVec 3) : (s.setWarn w).tokCount = s.tokCount := rfl
@[simp] theorem State.setWarn_litLen (s : State) (w : BitVec 3) : (s.setWarn w).litLen = s.litLen := rfl
@[simp] theorem State.setWarn_outCap (s : State) (w : BitVec 3) : (s.setWarn w).outCap = s.outCap := rfl
@[simp] theorem State.setWarn_outLen (s : State) (w : BitVec 3) : (s.setWarn w).outLen = s.outLen := rfl
@[simp] theorem State.setWarn_buildIdx (s : State) (w : BitVec 3) : (s.setWarn w).buildIdx = s.buildIdx := rfl
@[simp] theorem State.setWarn_tokIdx (s : State) (w : BitVec 3) : (s.setWarn w).tokIdx = s.tokIdx := rfl
@[simp] theorem State.setWarn_htPos (s : State) (w : BitVec 3) : (s.setWarn w).htPos = s.htPos := rfl
@[simp] theorem State.setWarn_cdPos (s : State) (w : BitVec 3) : (s.setWarn w).cdPos = s.cdPos := rfl
@[simp] theorem State.setWarn_bitCnt (s : State) (w : BitVec 3) : (s.setWarn w).bitCnt = s.bitCnt := rfl
@[simp] theorem State.setWarn_bitBuf (s : State) (w : BitVec 3) : (s.setWarn w).bitBuf = s.bitBuf := rfl
@[simp] theorem State.setWarn_litPos (s : State) (w : BitVec 3) : (s.setWarn w).litPos = s.litPos := rfl
@[simp] theorem State.setWarn_t0 (s : State) (w : BitVec 3) : (s.setWarn w).t0 = s.t0 := rfl
@[simp] theorem State.setWarn_t1 (s : State) (w : BitVec 3) : (s.setWarn w).t1 = s.t1 := rfl
@[simp] theorem State.setWarn_t2 (s : State) (w : BitVec 3) : (s.setWarn w).t2 = s.t2 := rfl
@[simp] theorem State.setWarn_tok (s : State) (w : BitVec 3) : (s.setWarn w).tok = s.tok := rfl
@[simp] theorem State.setWarn_ht (s : State) (w : BitVec 3) : (s.setWarn w).ht = s.ht := rfl
@[simp] theorem State.setWarn_cd (s : State) (w : BitVec 3) : (s.setWarn w).cd = s.cd := rfl
@[simp] theorem State.setWarn_lit (s : State) (w : BitVec 3) : (s.setWarn w).lit = s.lit := rfl
@[simp] theorem State.setWarn_out (s : State) (w : BitVec 3) : (s.setWarn w).out = s.out := rfl
@[simp] theorem State.setWarn_maxTokens (s : State) (w : BitVec 3) : (s.setWarn w).maxTokens = s.maxTokens := rfl
@[simp] theorem State.setWarn_fe (s : State) (w : BitVec 3) : (s.setWarn w).fe = s.fe := rfl
@[simp] theorem State.setWarn_symOut (s : State) (w : BitVec 3) : (s.setWarn w).symOut = s.symOut := rfl
@[simp] theorem State.setWarn_hostData (s : State) (w : BitVec 3) : (s.setWarn w).hostData = s.hostData := rfl
@[simp] theorem State.setWarn_hostByte (s : State) (w : BitVec 3) : (s.setWarn w).hostByte = s.hostByte := rfl
@[simp] theorem State.setWarn_outBefore (s : State) (w : BitVec 3) : (s.setWarn w).outBefore = s.outBefore := rfl
@[simp] theorem State.setWarn_outSynced (s : State) (w : BitVec 3) : (s.setWarn w).outSynced = s.outSynced := rfl
@[simp] theorem State.setWarn_agenda (s : State) (w : BitVec 3) : (s.setWarn w).agenda = s.agenda := rfl
@[simp] theorem State.setWarn_free (s : State) (w : BitVec 3) : (s.setWarn w).free = s.free := rfl

/-! ## setHtPos -/

@[simp] theorem State.setHtPos_phase (s : State) (p : Word) : (s.setHtPos p).phase = s.phase := rfl
@[simp] theorem State.setHtPos_errKind (s : State) (p : Word) : (s.setHtPos p).errKind = s.errKind := rfl
@[simp] theorem State.setHtPos_errIndex (s : State) (p : Word) : (s.setHtPos p).errIndex = s.errIndex := rfl
@[simp] theorem State.setHtPos_errTable (s : State) (p : Word) : (s.setHtPos p).errTable = s.errTable := rfl
@[simp] theorem State.setHtPos_warn (s : State) (p : Word) : (s.setHtPos p).warn = s.warn := rfl
@[simp] theorem State.setHtPos_htLen (s : State) (p : Word) : (s.setHtPos p).htLen = s.htLen := rfl
@[simp] theorem State.setHtPos_cdLen (s : State) (p : Word) : (s.setHtPos p).cdLen = s.cdLen := rfl
@[simp] theorem State.setHtPos_tokCount (s : State) (p : Word) : (s.setHtPos p).tokCount = s.tokCount := rfl
@[simp] theorem State.setHtPos_litLen (s : State) (p : Word) : (s.setHtPos p).litLen = s.litLen := rfl
@[simp] theorem State.setHtPos_outCap (s : State) (p : Word) : (s.setHtPos p).outCap = s.outCap := rfl
@[simp] theorem State.setHtPos_outLen (s : State) (p : Word) : (s.setHtPos p).outLen = s.outLen := rfl
@[simp] theorem State.setHtPos_buildIdx (s : State) (p : Word) : (s.setHtPos p).buildIdx = s.buildIdx := rfl
@[simp] theorem State.setHtPos_tokIdx (s : State) (p : Word) : (s.setHtPos p).tokIdx = s.tokIdx := rfl
@[simp] theorem State.setHtPos_htPos (s : State) (p : Word) : (s.setHtPos p).htPos = p := rfl
@[simp] theorem State.setHtPos_cdPos (s : State) (p : Word) : (s.setHtPos p).cdPos = s.cdPos := rfl
@[simp] theorem State.setHtPos_bitCnt (s : State) (p : Word) : (s.setHtPos p).bitCnt = s.bitCnt := rfl
@[simp] theorem State.setHtPos_bitBuf (s : State) (p : Word) : (s.setHtPos p).bitBuf = s.bitBuf := rfl
@[simp] theorem State.setHtPos_litPos (s : State) (p : Word) : (s.setHtPos p).litPos = s.litPos := rfl
@[simp] theorem State.setHtPos_t0 (s : State) (p : Word) : (s.setHtPos p).t0 = s.t0 := rfl
@[simp] theorem State.setHtPos_t1 (s : State) (p : Word) : (s.setHtPos p).t1 = s.t1 := rfl
@[simp] theorem State.setHtPos_t2 (s : State) (p : Word) : (s.setHtPos p).t2 = s.t2 := rfl
@[simp] theorem State.setHtPos_tok (s : State) (p : Word) : (s.setHtPos p).tok = s.tok := rfl
@[simp] theorem State.setHtPos_ht (s : State) (p : Word) : (s.setHtPos p).ht = s.ht := rfl
@[simp] theorem State.setHtPos_cd (s : State) (p : Word) : (s.setHtPos p).cd = s.cd := rfl
@[simp] theorem State.setHtPos_lit (s : State) (p : Word) : (s.setHtPos p).lit = s.lit := rfl
@[simp] theorem State.setHtPos_out (s : State) (p : Word) : (s.setHtPos p).out = s.out := rfl
@[simp] theorem State.setHtPos_maxTokens (s : State) (p : Word) : (s.setHtPos p).maxTokens = s.maxTokens := rfl
@[simp] theorem State.setHtPos_fe (s : State) (p : Word) : (s.setHtPos p).fe = s.fe := rfl
@[simp] theorem State.setHtPos_symOut (s : State) (p : Word) : (s.setHtPos p).symOut = s.symOut := rfl
@[simp] theorem State.setHtPos_hostData (s : State) (p : Word) : (s.setHtPos p).hostData = s.hostData := rfl
@[simp] theorem State.setHtPos_hostByte (s : State) (p : Word) : (s.setHtPos p).hostByte = s.hostByte := rfl
@[simp] theorem State.setHtPos_outBefore (s : State) (p : Word) : (s.setHtPos p).outBefore = s.outBefore := rfl
@[simp] theorem State.setHtPos_outSynced (s : State) (p : Word) : (s.setHtPos p).outSynced = s.outSynced := rfl
@[simp] theorem State.setHtPos_agenda (s : State) (p : Word) : (s.setHtPos p).agenda = s.agenda := rfl
@[simp] theorem State.setHtPos_free (s : State) (p : Word) : (s.setHtPos p).free = s.free := rfl

/-! ## advanceToken -/

@[simp] theorem State.advanceToken_phase (s : State) : s.advanceToken.phase = s.phase := rfl
@[simp] theorem State.advanceToken_errKind (s : State) : s.advanceToken.errKind = s.errKind := rfl
@[simp] theorem State.advanceToken_errIndex (s : State) : s.advanceToken.errIndex = s.errIndex := rfl
@[simp] theorem State.advanceToken_errTable (s : State) : s.advanceToken.errTable = s.errTable := rfl
@[simp] theorem State.advanceToken_warn (s : State) : s.advanceToken.warn = s.warn := rfl
@[simp] theorem State.advanceToken_htLen (s : State) : s.advanceToken.htLen = s.htLen := rfl
@[simp] theorem State.advanceToken_cdLen (s : State) : s.advanceToken.cdLen = s.cdLen := rfl
@[simp] theorem State.advanceToken_tokCount (s : State) : s.advanceToken.tokCount = s.tokCount := rfl
@[simp] theorem State.advanceToken_litLen (s : State) : s.advanceToken.litLen = s.litLen := rfl
@[simp] theorem State.advanceToken_outCap (s : State) : s.advanceToken.outCap = s.outCap := rfl
@[simp] theorem State.advanceToken_outLen (s : State) : s.advanceToken.outLen = s.outLen := rfl
@[simp] theorem State.advanceToken_buildIdx (s : State) : s.advanceToken.buildIdx = s.buildIdx := rfl
@[simp] theorem State.advanceToken_tokIdx (s : State) : s.advanceToken.tokIdx = s.tokIdx + 1#32 := rfl
@[simp] theorem State.advanceToken_htPos (s : State) : s.advanceToken.htPos = s.htPos := rfl
@[simp] theorem State.advanceToken_cdPos (s : State) : s.advanceToken.cdPos = s.cdPos := rfl
@[simp] theorem State.advanceToken_bitCnt (s : State) : s.advanceToken.bitCnt = s.bitCnt := rfl
@[simp] theorem State.advanceToken_bitBuf (s : State) : s.advanceToken.bitBuf = s.bitBuf := rfl
@[simp] theorem State.advanceToken_litPos (s : State) : s.advanceToken.litPos = s.litPos := rfl
@[simp] theorem State.advanceToken_t0 (s : State) : s.advanceToken.t0 = s.t0 := rfl
@[simp] theorem State.advanceToken_t1 (s : State) : s.advanceToken.t1 = s.t1 := rfl
@[simp] theorem State.advanceToken_t2 (s : State) : s.advanceToken.t2 = s.t2 := rfl
@[simp] theorem State.advanceToken_tok (s : State) : s.advanceToken.tok = s.tok := rfl
@[simp] theorem State.advanceToken_ht (s : State) : s.advanceToken.ht = s.ht := rfl
@[simp] theorem State.advanceToken_cd (s : State) : s.advanceToken.cd = s.cd := rfl
@[simp] theorem State.advanceToken_lit (s : State) : s.advanceToken.lit = s.lit := rfl
@[simp] theorem State.advanceToken_out (s : State) : s.advanceToken.out = s.out := rfl
@[simp] theorem State.advanceToken_maxTokens (s : State) : s.advanceToken.maxTokens = s.maxTokens := rfl
@[simp] theorem State.advanceToken_fe (s : State) : s.advanceToken.fe = s.fe := rfl
@[simp] theorem State.advanceToken_symOut (s : State) : s.advanceToken.symOut = s.symOut := rfl
@[simp] theorem State.advanceToken_hostData (s : State) : s.advanceToken.hostData = s.hostData := rfl
@[simp] theorem State.advanceToken_hostByte (s : State) : s.advanceToken.hostByte = s.hostByte := rfl
@[simp] theorem State.advanceToken_outBefore (s : State) : s.advanceToken.outBefore = s.outBefore := rfl
@[simp] theorem State.advanceToken_outSynced (s : State) : s.advanceToken.outSynced = s.outSynced := rfl
@[simp] theorem State.advanceToken_agenda (s : State) : s.advanceToken.agenda = s.agenda := rfl
@[simp] theorem State.advanceToken_free (s : State) : s.advanceToken.free = s.free := rfl

/-! ## shiftIn -/

@[simp] theorem State.shiftIn_phase (s : State) : s.shiftIn.phase = s.phase := rfl
@[simp] theorem State.shiftIn_errKind (s : State) : s.shiftIn.errKind = s.errKind := rfl
@[simp] theorem State.shiftIn_errIndex (s : State) : s.shiftIn.errIndex = s.errIndex := rfl
@[simp] theorem State.shiftIn_errTable (s : State) : s.shiftIn.errTable = s.errTable := rfl
@[simp] theorem State.shiftIn_warn (s : State) : s.shiftIn.warn = s.warn := rfl
@[simp] theorem State.shiftIn_htLen (s : State) : s.shiftIn.htLen = s.htLen := rfl
@[simp] theorem State.shiftIn_cdLen (s : State) : s.shiftIn.cdLen = s.cdLen := rfl
@[simp] theorem State.shiftIn_tokCount (s : State) : s.shiftIn.tokCount = s.tokCount := rfl
@[simp] theorem State.shiftIn_litLen (s : State) : s.shiftIn.litLen = s.litLen := rfl
@[simp] theorem State.shiftIn_outCap (s : State) : s.shiftIn.outCap = s.outCap := rfl
@[simp] theorem State.shiftIn_outLen (s : State) : s.shiftIn.outLen = s.outLen := rfl
@[simp] theorem State.shiftIn_buildIdx (s : State) : s.shiftIn.buildIdx = s.buildIdx := rfl
@[simp] theorem State.shiftIn_tokIdx (s : State) : s.shiftIn.tokIdx = s.tokIdx := rfl
@[simp] theorem State.shiftIn_htPos (s : State) : s.shiftIn.htPos = s.htPos := rfl
@[simp] theorem State.shiftIn_cdPos (s : State) : s.shiftIn.cdPos = s.cdPos + 1 := rfl
@[simp] theorem State.shiftIn_bitCnt (s : State) : s.shiftIn.bitCnt = s.bitCnt + 8#5 := rfl
@[simp] theorem State.shiftIn_bitBuf (s : State) : s.shiftIn.bitBuf = s.bitBuf <<< 8 ||| s.refillInput.setWidth 32 := rfl
@[simp] theorem State.shiftIn_litPos (s : State) : s.shiftIn.litPos = s.litPos := rfl
@[simp] theorem State.shiftIn_t0 (s : State) : s.shiftIn.t0 = s.t0 := rfl
@[simp] theorem State.shiftIn_t1 (s : State) : s.shiftIn.t1 = s.t1 := rfl
@[simp] theorem State.shiftIn_t2 (s : State) : s.shiftIn.t2 = s.t2 := rfl
@[simp] theorem State.shiftIn_tok (s : State) : s.shiftIn.tok = s.tok := rfl
@[simp] theorem State.shiftIn_ht (s : State) : s.shiftIn.ht = s.ht := rfl
@[simp] theorem State.shiftIn_cd (s : State) : s.shiftIn.cd = s.cd := rfl
@[simp] theorem State.shiftIn_lit (s : State) : s.shiftIn.lit = s.lit := rfl
@[simp] theorem State.shiftIn_out (s : State) : s.shiftIn.out = s.out := rfl
@[simp] theorem State.shiftIn_maxTokens (s : State) : s.shiftIn.maxTokens = s.maxTokens := rfl
@[simp] theorem State.shiftIn_fe (s : State) : s.shiftIn.fe = s.fe := rfl
@[simp] theorem State.shiftIn_symOut (s : State) : s.shiftIn.symOut = s.symOut := rfl
@[simp] theorem State.shiftIn_hostData (s : State) : s.shiftIn.hostData = s.hostData := rfl
@[simp] theorem State.shiftIn_hostByte (s : State) : s.shiftIn.hostByte = s.hostByte := rfl
@[simp] theorem State.shiftIn_outBefore (s : State) : s.shiftIn.outBefore = s.outBefore := rfl
@[simp] theorem State.shiftIn_outSynced (s : State) : s.shiftIn.outSynced = s.outSynced := rfl
@[simp] theorem State.shiftIn_agenda (s : State) : s.shiftIn.agenda = s.agenda := rfl
@[simp] theorem State.shiftIn_free (s : State) : s.shiftIn.free = s.free := rfl

/-! ## consume -/

@[simp] theorem State.consume_phase (s : State) (e : Half) : (s.consume e).phase = s.phase := rfl
@[simp] theorem State.consume_errKind (s : State) (e : Half) : (s.consume e).errKind = s.errKind := rfl
@[simp] theorem State.consume_errIndex (s : State) (e : Half) : (s.consume e).errIndex = s.errIndex := rfl
@[simp] theorem State.consume_errTable (s : State) (e : Half) : (s.consume e).errTable = s.errTable := rfl
@[simp] theorem State.consume_warn (s : State) (e : Half) : (s.consume e).warn = s.warn := rfl
@[simp] theorem State.consume_htLen (s : State) (e : Half) : (s.consume e).htLen = s.htLen := rfl
@[simp] theorem State.consume_cdLen (s : State) (e : Half) : (s.consume e).cdLen = s.cdLen := rfl
@[simp] theorem State.consume_tokCount (s : State) (e : Half) : (s.consume e).tokCount = s.tokCount := rfl
@[simp] theorem State.consume_litLen (s : State) (e : Half) : (s.consume e).litLen = s.litLen := rfl
@[simp] theorem State.consume_outCap (s : State) (e : Half) : (s.consume e).outCap = s.outCap := rfl
@[simp] theorem State.consume_outLen (s : State) (e : Half) : (s.consume e).outLen = s.outLen := rfl
@[simp] theorem State.consume_buildIdx (s : State) (e : Half) : (s.consume e).buildIdx = s.buildIdx := rfl
@[simp] theorem State.consume_tokIdx (s : State) (e : Half) : (s.consume e).tokIdx = s.tokIdx := rfl
@[simp] theorem State.consume_htPos (s : State) (e : Half) : (s.consume e).htPos = s.htPos := rfl
@[simp] theorem State.consume_cdPos (s : State) (e : Half) : (s.consume e).cdPos = s.cdPos := rfl
@[simp] theorem State.consume_bitCnt (s : State) (e : Half) : (s.consume e).bitCnt = s.bitCnt - BitVec.ofNat 5 (entryLength e) := rfl
@[simp] theorem State.consume_bitBuf (s : State) (e : Half) : (s.consume e).bitBuf = s.bitBuf := rfl
@[simp] theorem State.consume_litPos (s : State) (e : Half) : (s.consume e).litPos = s.litPos := rfl
@[simp] theorem State.consume_t0 (s : State) (e : Half) : (s.consume e).t0 = s.t0 := rfl
@[simp] theorem State.consume_t1 (s : State) (e : Half) : (s.consume e).t1 = s.t1 := rfl
@[simp] theorem State.consume_t2 (s : State) (e : Half) : (s.consume e).t2 = s.t2 := rfl
@[simp] theorem State.consume_tok (s : State) (e : Half) : (s.consume e).tok = s.tok := rfl
@[simp] theorem State.consume_ht (s : State) (e : Half) : (s.consume e).ht = s.ht := rfl
@[simp] theorem State.consume_cd (s : State) (e : Half) : (s.consume e).cd = s.cd := rfl
@[simp] theorem State.consume_lit (s : State) (e : Half) : (s.consume e).lit = s.lit := rfl
@[simp] theorem State.consume_out (s : State) (e : Half) : (s.consume e).out = s.out := rfl
@[simp] theorem State.consume_maxTokens (s : State) (e : Half) : (s.consume e).maxTokens = s.maxTokens := rfl
@[simp] theorem State.consume_fe (s : State) (e : Half) : (s.consume e).fe = s.fe := rfl
@[simp] theorem State.consume_symOut (s : State) (e : Half) : (s.consume e).symOut = entrySymbol e := rfl
@[simp] theorem State.consume_hostData (s : State) (e : Half) : (s.consume e).hostData = s.hostData := rfl
@[simp] theorem State.consume_hostByte (s : State) (e : Half) : (s.consume e).hostByte = s.hostByte := rfl
@[simp] theorem State.consume_outBefore (s : State) (e : Half) : (s.consume e).outBefore = s.outBefore := rfl
@[simp] theorem State.consume_outSynced (s : State) (e : Half) : (s.consume e).outSynced = s.outSynced := rfl
@[simp] theorem State.consume_agenda (s : State) (e : Half) : (s.consume e).agenda = s.agenda := rfl
@[simp] theorem State.consume_free (s : State) (e : Half) : (s.consume e).free = s.free := rfl

/-! ## storeToken -/

@[simp] theorem State.storeToken_phase (s : State) (c lo hi : Byte) : (s.storeToken c lo hi).phase = s.phase := rfl
@[simp] theorem State.storeToken_errKind (s : State) (c lo hi : Byte) : (s.storeToken c lo hi).errKind = s.errKind := rfl
@[simp] theorem State.storeToken_errIndex (s : State) (c lo hi : Byte) : (s.storeToken c lo hi).errIndex = s.errIndex := rfl
@[simp] theorem State.storeToken_errTable (s : State) (c lo hi : Byte) : (s.storeToken c lo hi).errTable = s.errTable := rfl
@[simp] theorem State.storeToken_warn (s : State) (c lo hi : Byte) : (s.storeToken c lo hi).warn = s.warn := rfl
@[simp] theorem State.storeToken_htLen (s : State) (c lo hi : Byte) : (s.storeToken c lo hi).htLen = s.htLen := rfl
@[simp] theorem State.storeToken_cdLen (s : State) (c lo hi : Byte) : (s.storeToken c lo hi).cdLen = s.cdLen := rfl
@[simp] theorem State.storeToken_tokCount (s : State) (c lo hi : Byte) : (s.storeToken c lo hi).tokCount = s.tokCount := rfl
@[simp] theorem State.storeToken_litLen (s : State) (c lo hi : Byte) : (s.storeToken c lo hi).litLen = s.litLen := rfl
@[simp] theorem State.storeToken_outCap (s : State) (c lo hi : Byte) : (s.storeToken c lo hi).outCap = s.outCap := rfl
@[simp] theorem State.storeToken_outLen (s : State) (c lo hi : Byte) : (s.storeToken c lo hi).outLen = s.outLen := rfl
@[simp] theorem State.storeToken_buildIdx (s : State) (c lo hi : Byte) : (s.storeToken c lo hi).buildIdx = s.buildIdx := rfl
@[simp] theorem State.storeToken_tokIdx (s : State) (c lo hi : Byte) : (s.storeToken c lo hi).tokIdx = s.tokIdx := rfl
@[simp] theorem State.storeToken_htPos (s : State) (c lo hi : Byte) : (s.storeToken c lo hi).htPos = s.htPos := rfl
@[simp] theorem State.storeToken_cdPos (s : State) (c lo hi : Byte) : (s.storeToken c lo hi).cdPos = s.cdPos := rfl
@[simp] theorem State.storeToken_bitCnt (s : State) (c lo hi : Byte) : (s.storeToken c lo hi).bitCnt = s.bitCnt := rfl
@[simp] theorem State.storeToken_bitBuf (s : State) (c lo hi : Byte) : (s.storeToken c lo hi).bitBuf = s.bitBuf := rfl
@[simp] theorem State.storeToken_litPos (s : State) (c lo hi : Byte) : (s.storeToken c lo hi).litPos = s.litPos := rfl
@[simp] theorem State.storeToken_t0 (s : State) (c lo hi : Byte) : (s.storeToken c lo hi).t0 = s.t0 := rfl
@[simp] theorem State.storeToken_t1 (s : State) (c lo hi : Byte) : (s.storeToken c lo hi).t1 = s.t1 := rfl
@[simp] theorem State.storeToken_t2 (s : State) (c lo hi : Byte) : (s.storeToken c lo hi).t2 = s.t2 := rfl
@[simp] theorem State.storeToken_tok (s : State) (c lo hi : Byte) : (s.storeToken c lo hi).tok = s.tok.write s.tokIdx.toNat ⟨c, offsetOf lo hi⟩ := rfl
@[simp] theorem State.storeToken_ht (s : State) (c lo hi : Byte) : (s.storeToken c lo hi).ht = s.ht := rfl
@[simp] theorem State.storeToken_cd (s : State) (c lo hi : Byte) : (s.storeToken c lo hi).cd = s.cd := rfl
@[simp] theorem State.storeToken_lit (s : State) (c lo hi : Byte) : (s.storeToken c lo hi).lit = s.lit := rfl
@[simp] theorem State.storeToken_out (s : State) (c lo hi : Byte) : (s.storeToken c lo hi).out = s.out := rfl
@[simp] theorem State.storeToken_maxTokens (s : State) (c lo hi : Byte) : (s.storeToken c lo hi).maxTokens = s.maxTokens := rfl
@[simp] theorem State.storeToken_fe (s : State) (c lo hi : Byte) : (s.storeToken c lo hi).fe = s.fe := rfl
@[simp] theorem State.storeToken_symOut (s : State) (c lo hi : Byte) : (s.storeToken c lo hi).symOut = s.symOut := rfl
@[simp] theorem State.storeToken_hostData (s : State) (c lo hi : Byte) : (s.storeToken c lo hi).hostData = s.hostData := rfl
@[simp] theorem State.storeToken_hostByte (s : State) (c lo hi : Byte) : (s.storeToken c lo hi).hostByte = s.hostByte := rfl
@[simp] theorem State.storeToken_outBefore (s : State) (c lo hi : Byte) : (s.storeToken c lo hi).outBefore = s.outBefore := rfl
@[simp] theorem State.storeToken_outSynced (s : State) (c lo hi : Byte) : (s.storeToken c lo hi).outSynced = s.outSynced := rfl
@[simp] theorem State.storeToken_agenda (s : State) (c lo hi : Byte) : (s.storeToken c lo hi).agenda = s.agenda := rfl
@[simp] theorem State.storeToken_free (s : State) (c lo hi : Byte) : (s.storeToken c lo hi).free = s.free := rfl

/-! ## copyByte -/

@[simp] theorem State.copyByte_phase (s : State) (d : Nat) : (s.copyByte d).phase = s.phase := rfl
@[simp] theorem State.copyByte_errKind (s : State) (d : Nat) : (s.copyByte d).errKind = s.errKind := rfl
@[simp] theorem State.copyByte_errIndex (s : State) (d : Nat) : (s.copyByte d).errIndex = s.errIndex := rfl
@[simp] theorem State.copyByte_errTable (s : State) (d : Nat) : (s.copyByte d).errTable = s.errTable := rfl
@[simp] theorem State.copyByte_warn (s : State) (d : Nat) : (s.copyByte d).warn = s.warn := rfl
@[simp] theorem State.copyByte_htLen (s : State) (d : Nat) : (s.copyByte d).htLen = s.htLen := rfl
@[simp] theorem State.copyByte_cdLen (s : State) (d : Nat) : (s.copyByte d).cdLen = s.cdLen := rfl
@[simp] theorem State.copyByte_tokCount (s : State) (d : Nat) : (s.copyByte d).tokCount = s.tokCount := rfl
@[simp] theorem State.copyByte_litLen (s : State) (d : Nat) : (s.copyByte d).litLen = s.litLen := rfl
@[simp] theorem State.copyByte_outCap (s : State) (d : Nat) : (s.copyByte d).outCap = s.outCap := rfl
@[simp] theorem State.copyByte_outLen (s : State) (d : Nat) : (s.copyByte d).outLen = s.outLen + 1#32 := rfl
@[simp] theorem State.copyByte_buildIdx (s : State) (d : Nat) : (s.copyByte d).buildIdx = s.buildIdx := rfl
@[simp] theorem State.copyByte_tokIdx (s : State) (d : Nat) : (s.copyByte d).tokIdx = s.tokIdx := rfl
@[simp] theorem State.copyByte_htPos (s : State) (d : Nat) : (s.copyByte d).htPos = s.htPos := rfl
@[simp] theorem State.copyByte_cdPos (s : State) (d : Nat) : (s.copyByte d).cdPos = s.cdPos := rfl
@[simp] theorem State.copyByte_bitCnt (s : State) (d : Nat) : (s.copyByte d).bitCnt = s.bitCnt := rfl
@[simp] theorem State.copyByte_bitBuf (s : State) (d : Nat) : (s.copyByte d).bitBuf = s.bitBuf := rfl
@[simp] theorem State.copyByte_litPos (s : State) (d : Nat) : (s.copyByte d).litPos = s.litPos := rfl
@[simp] theorem State.copyByte_t0 (s : State) (d : Nat) : (s.copyByte d).t0 = s.t0 := rfl
@[simp] theorem State.copyByte_t1 (s : State) (d : Nat) : (s.copyByte d).t1 = s.t1 := rfl
@[simp] theorem State.copyByte_t2 (s : State) (d : Nat) : (s.copyByte d).t2 = s.t2 := rfl
@[simp] theorem State.copyByte_tok (s : State) (d : Nat) : (s.copyByte d).tok = s.tok := rfl
@[simp] theorem State.copyByte_ht (s : State) (d : Nat) : (s.copyByte d).ht = s.ht := rfl
@[simp] theorem State.copyByte_cd (s : State) (d : Nat) : (s.copyByte d).cd = s.cd := rfl
@[simp] theorem State.copyByte_lit (s : State) (d : Nat) : (s.copyByte d).lit = s.lit := rfl
@[simp] theorem State.copyByte_out (s : State) (d : Nat) : (s.copyByte d).out = s.out.write s.outLen.toNat (s.out.read (s.outLen.toNat - d)) := rfl
@[simp] theorem State.copyByte_maxTokens (s : State) (d : Nat) : (s.copyByte d).maxTokens = s.maxTokens := rfl
@[simp] theorem State.copyByte_fe (s : State) (d : Nat) : (s.copyByte d).fe = s.fe := rfl
@[simp] theorem State.copyByte_symOut (s : State) (d : Nat) : (s.copyByte d).symOut = s.symOut := rfl
@[simp] theorem State.copyByte_hostData (s : State) (d : Nat) : (s.copyByte d).hostData = s.hostData := rfl
@[simp] theorem State.copyByte_hostByte (s : State) (d : Nat) : (s.copyByte d).hostByte = s.hostByte := rfl
@[simp] theorem State.copyByte_outBefore (s : State) (d : Nat) : (s.copyByte d).outBefore = s.outBefore := rfl
@[simp] theorem State.copyByte_outSynced (s : State) (d : Nat) : (s.copyByte d).outSynced = s.outSynced := rfl
@[simp] theorem State.copyByte_agenda (s : State) (d : Nat) : (s.copyByte d).agenda = s.agenda := rfl
@[simp] theorem State.copyByte_free (s : State) (d : Nat) : (s.copyByte d).free = s.free := rfl

/-! ## copyLiterals -/

@[simp] theorem State.copyLiterals_phase (s : State) (n : Nat) : (s.copyLiterals n).phase = s.phase := rfl
@[simp] theorem State.copyLiterals_errKind (s : State) (n : Nat) : (s.copyLiterals n).errKind = s.errKind := rfl
@[simp] theorem State.copyLiterals_errIndex (s : State) (n : Nat) : (s.copyLiterals n).errIndex = s.errIndex := rfl
@[simp] theorem State.copyLiterals_errTable (s : State) (n : Nat) : (s.copyLiterals n).errTable = s.errTable := rfl
@[simp] theorem State.copyLiterals_warn (s : State) (n : Nat) : (s.copyLiterals n).warn = s.warn := rfl
@[simp] theorem State.copyLiterals_htLen (s : State) (n : Nat) : (s.copyLiterals n).htLen = s.htLen := rfl
@[simp] theorem State.copyLiterals_cdLen (s : State) (n : Nat) : (s.copyLiterals n).cdLen = s.cdLen := rfl
@[simp] theorem State.copyLiterals_tokCount (s : State) (n : Nat) : (s.copyLiterals n).tokCount = s.tokCount := rfl
@[simp] theorem State.copyLiterals_litLen (s : State) (n : Nat) : (s.copyLiterals n).litLen = s.litLen := rfl
@[simp] theorem State.copyLiterals_outCap (s : State) (n : Nat) : (s.copyLiterals n).outCap = s.outCap := rfl
@[simp] theorem State.copyLiterals_outLen (s : State) (n : Nat) : (s.copyLiterals n).outLen = Word.store (s.outLen.toNat + n) := rfl
@[simp] theorem State.copyLiterals_buildIdx (s : State) (n : Nat) : (s.copyLiterals n).buildIdx = s.buildIdx := rfl
@[simp] theorem State.copyLiterals_tokIdx (s : State) (n : Nat) : (s.copyLiterals n).tokIdx = s.tokIdx := rfl
@[simp] theorem State.copyLiterals_htPos (s : State) (n : Nat) : (s.copyLiterals n).htPos = s.htPos := rfl
@[simp] theorem State.copyLiterals_cdPos (s : State) (n : Nat) : (s.copyLiterals n).cdPos = s.cdPos := rfl
@[simp] theorem State.copyLiterals_bitCnt (s : State) (n : Nat) : (s.copyLiterals n).bitCnt = s.bitCnt := rfl
@[simp] theorem State.copyLiterals_bitBuf (s : State) (n : Nat) : (s.copyLiterals n).bitBuf = s.bitBuf := rfl
@[simp] theorem State.copyLiterals_litPos (s : State) (n : Nat) : (s.copyLiterals n).litPos = Word.store (s.litPos.toNat + n) := rfl
@[simp] theorem State.copyLiterals_t0 (s : State) (n : Nat) : (s.copyLiterals n).t0 = s.t0 := rfl
@[simp] theorem State.copyLiterals_t1 (s : State) (n : Nat) : (s.copyLiterals n).t1 = s.t1 := rfl
@[simp] theorem State.copyLiterals_t2 (s : State) (n : Nat) : (s.copyLiterals n).t2 = s.t2 := rfl
@[simp] theorem State.copyLiterals_tok (s : State) (n : Nat) : (s.copyLiterals n).tok = s.tok := rfl
@[simp] theorem State.copyLiterals_ht (s : State) (n : Nat) : (s.copyLiterals n).ht = s.ht := rfl
@[simp] theorem State.copyLiterals_cd (s : State) (n : Nat) : (s.copyLiterals n).cd = s.cd := rfl
@[simp] theorem State.copyLiterals_lit (s : State) (n : Nat) : (s.copyLiterals n).lit = s.lit := rfl
@[simp] theorem State.copyLiterals_out (s : State) (n : Nat) : (s.copyLiterals n).out = Memory.copyFrom s.lit s.litPos.toNat s.out s.outLen.toNat n := rfl
@[simp] theorem State.copyLiterals_maxTokens (s : State) (n : Nat) : (s.copyLiterals n).maxTokens = s.maxTokens := rfl
@[simp] theorem State.copyLiterals_fe (s : State) (n : Nat) : (s.copyLiterals n).fe = s.fe := rfl
@[simp] theorem State.copyLiterals_symOut (s : State) (n : Nat) : (s.copyLiterals n).symOut = s.symOut := rfl
@[simp] theorem State.copyLiterals_hostData (s : State) (n : Nat) : (s.copyLiterals n).hostData = s.hostData := rfl
@[simp] theorem State.copyLiterals_hostByte (s : State) (n : Nat) : (s.copyLiterals n).hostByte = s.hostByte := rfl
@[simp] theorem State.copyLiterals_outBefore (s : State) (n : Nat) : (s.copyLiterals n).outBefore = s.outBefore := rfl
@[simp] theorem State.copyLiterals_outSynced (s : State) (n : Nat) : (s.copyLiterals n).outSynced = s.outSynced := rfl
@[simp] theorem State.copyLiterals_agenda (s : State) (n : Nat) : (s.copyLiterals n).agenda = s.agenda := rfl
@[simp] theorem State.copyLiterals_free (s : State) (n : Nat) : (s.copyLiterals n).free = s.free := rfl

/-! ## fePhase -/

@[simp] theorem State.fePhase_phase (s : State) (p : FePhase) : (s.fePhase p).phase = s.phase := rfl
@[simp] theorem State.fePhase_errKind (s : State) (p : FePhase) : (s.fePhase p).errKind = s.errKind := rfl
@[simp] theorem State.fePhase_errIndex (s : State) (p : FePhase) : (s.fePhase p).errIndex = s.errIndex := rfl
@[simp] theorem State.fePhase_errTable (s : State) (p : FePhase) : (s.fePhase p).errTable = s.errTable := rfl
@[simp] theorem State.fePhase_warn (s : State) (p : FePhase) : (s.fePhase p).warn = s.warn := rfl
@[simp] theorem State.fePhase_htLen (s : State) (p : FePhase) : (s.fePhase p).htLen = s.htLen := rfl
@[simp] theorem State.fePhase_cdLen (s : State) (p : FePhase) : (s.fePhase p).cdLen = s.cdLen := rfl
@[simp] theorem State.fePhase_tokCount (s : State) (p : FePhase) : (s.fePhase p).tokCount = s.tokCount := rfl
@[simp] theorem State.fePhase_litLen (s : State) (p : FePhase) : (s.fePhase p).litLen = s.litLen := rfl
@[simp] theorem State.fePhase_outCap (s : State) (p : FePhase) : (s.fePhase p).outCap = s.outCap := rfl
@[simp] theorem State.fePhase_outLen (s : State) (p : FePhase) : (s.fePhase p).outLen = s.outLen := rfl
@[simp] theorem State.fePhase_buildIdx (s : State) (p : FePhase) : (s.fePhase p).buildIdx = s.buildIdx := rfl
@[simp] theorem State.fePhase_tokIdx (s : State) (p : FePhase) : (s.fePhase p).tokIdx = s.tokIdx := rfl
@[simp] theorem State.fePhase_htPos (s : State) (p : FePhase) : (s.fePhase p).htPos = s.htPos := rfl
@[simp] theorem State.fePhase_cdPos (s : State) (p : FePhase) : (s.fePhase p).cdPos = s.cdPos := rfl
@[simp] theorem State.fePhase_bitCnt (s : State) (p : FePhase) : (s.fePhase p).bitCnt = s.bitCnt := rfl
@[simp] theorem State.fePhase_bitBuf (s : State) (p : FePhase) : (s.fePhase p).bitBuf = s.bitBuf := rfl
@[simp] theorem State.fePhase_litPos (s : State) (p : FePhase) : (s.fePhase p).litPos = s.litPos := rfl
@[simp] theorem State.fePhase_t0 (s : State) (p : FePhase) : (s.fePhase p).t0 = s.t0 := rfl
@[simp] theorem State.fePhase_t1 (s : State) (p : FePhase) : (s.fePhase p).t1 = s.t1 := rfl
@[simp] theorem State.fePhase_t2 (s : State) (p : FePhase) : (s.fePhase p).t2 = s.t2 := rfl
@[simp] theorem State.fePhase_tok (s : State) (p : FePhase) : (s.fePhase p).tok = s.tok := rfl
@[simp] theorem State.fePhase_ht (s : State) (p : FePhase) : (s.fePhase p).ht = s.ht := rfl
@[simp] theorem State.fePhase_cd (s : State) (p : FePhase) : (s.fePhase p).cd = s.cd := rfl
@[simp] theorem State.fePhase_lit (s : State) (p : FePhase) : (s.fePhase p).lit = s.lit := rfl
@[simp] theorem State.fePhase_out (s : State) (p : FePhase) : (s.fePhase p).out = s.out := rfl
@[simp] theorem State.fePhase_maxTokens (s : State) (p : FePhase) : (s.fePhase p).maxTokens = s.maxTokens := rfl
@[simp] theorem State.fePhase_fe (s : State) (p : FePhase) : (s.fePhase p).fe = { s.fe with phase := p } := rfl
@[simp] theorem State.fePhase_symOut (s : State) (p : FePhase) : (s.fePhase p).symOut = s.symOut := rfl
@[simp] theorem State.fePhase_hostData (s : State) (p : FePhase) : (s.fePhase p).hostData = s.hostData := rfl
@[simp] theorem State.fePhase_hostByte (s : State) (p : FePhase) : (s.fePhase p).hostByte = s.hostByte := rfl
@[simp] theorem State.fePhase_outBefore (s : State) (p : FePhase) : (s.fePhase p).outBefore = s.outBefore := rfl
@[simp] theorem State.fePhase_outSynced (s : State) (p : FePhase) : (s.fePhase p).outSynced = s.outSynced := rfl
@[simp] theorem State.fePhase_agenda (s : State) (p : FePhase) : (s.fePhase p).agenda = s.agenda := rfl
@[simp] theorem State.fePhase_free (s : State) (p : FePhase) : (s.fePhase p).free = s.free := rfl

/-! ## feWarn -/

@[simp] theorem State.feWarn_phase (s : State) (w : FeWarning) : (s.feWarn w).phase = s.phase := rfl
@[simp] theorem State.feWarn_errKind (s : State) (w : FeWarning) : (s.feWarn w).errKind = s.errKind := rfl
@[simp] theorem State.feWarn_errIndex (s : State) (w : FeWarning) : (s.feWarn w).errIndex = s.errIndex := rfl
@[simp] theorem State.feWarn_errTable (s : State) (w : FeWarning) : (s.feWarn w).errTable = s.errTable := rfl
@[simp] theorem State.feWarn_warn (s : State) (w : FeWarning) : (s.feWarn w).warn = s.warn := rfl
@[simp] theorem State.feWarn_htLen (s : State) (w : FeWarning) : (s.feWarn w).htLen = s.htLen := rfl
@[simp] theorem State.feWarn_cdLen (s : State) (w : FeWarning) : (s.feWarn w).cdLen = s.cdLen := rfl
@[simp] theorem State.feWarn_tokCount (s : State) (w : FeWarning) : (s.feWarn w).tokCount = s.tokCount := rfl
@[simp] theorem State.feWarn_litLen (s : State) (w : FeWarning) : (s.feWarn w).litLen = s.litLen := rfl
@[simp] theorem State.feWarn_outCap (s : State) (w : FeWarning) : (s.feWarn w).outCap = s.outCap := rfl
@[simp] theorem State.feWarn_outLen (s : State) (w : FeWarning) : (s.feWarn w).outLen = s.outLen := rfl
@[simp] theorem State.feWarn_buildIdx (s : State) (w : FeWarning) : (s.feWarn w).buildIdx = s.buildIdx := rfl
@[simp] theorem State.feWarn_tokIdx (s : State) (w : FeWarning) : (s.feWarn w).tokIdx = s.tokIdx := rfl
@[simp] theorem State.feWarn_htPos (s : State) (w : FeWarning) : (s.feWarn w).htPos = s.htPos := rfl
@[simp] theorem State.feWarn_cdPos (s : State) (w : FeWarning) : (s.feWarn w).cdPos = s.cdPos := rfl
@[simp] theorem State.feWarn_bitCnt (s : State) (w : FeWarning) : (s.feWarn w).bitCnt = s.bitCnt := rfl
@[simp] theorem State.feWarn_bitBuf (s : State) (w : FeWarning) : (s.feWarn w).bitBuf = s.bitBuf := rfl
@[simp] theorem State.feWarn_litPos (s : State) (w : FeWarning) : (s.feWarn w).litPos = s.litPos := rfl
@[simp] theorem State.feWarn_t0 (s : State) (w : FeWarning) : (s.feWarn w).t0 = s.t0 := rfl
@[simp] theorem State.feWarn_t1 (s : State) (w : FeWarning) : (s.feWarn w).t1 = s.t1 := rfl
@[simp] theorem State.feWarn_t2 (s : State) (w : FeWarning) : (s.feWarn w).t2 = s.t2 := rfl
@[simp] theorem State.feWarn_tok (s : State) (w : FeWarning) : (s.feWarn w).tok = s.tok := rfl
@[simp] theorem State.feWarn_ht (s : State) (w : FeWarning) : (s.feWarn w).ht = s.ht := rfl
@[simp] theorem State.feWarn_cd (s : State) (w : FeWarning) : (s.feWarn w).cd = s.cd := rfl
@[simp] theorem State.feWarn_lit (s : State) (w : FeWarning) : (s.feWarn w).lit = s.lit := rfl
@[simp] theorem State.feWarn_out (s : State) (w : FeWarning) : (s.feWarn w).out = s.out := rfl
@[simp] theorem State.feWarn_maxTokens (s : State) (w : FeWarning) : (s.feWarn w).maxTokens = s.maxTokens := rfl
@[simp] theorem State.feWarn_fe (s : State) (w : FeWarning) : (s.feWarn w).fe = { s.fe with warnings := s.fe.warnings ++ [w] } := rfl
@[simp] theorem State.feWarn_symOut (s : State) (w : FeWarning) : (s.feWarn w).symOut = s.symOut := rfl
@[simp] theorem State.feWarn_hostData (s : State) (w : FeWarning) : (s.feWarn w).hostData = s.hostData := rfl
@[simp] theorem State.feWarn_hostByte (s : State) (w : FeWarning) : (s.feWarn w).hostByte = s.hostByte := rfl
@[simp] theorem State.feWarn_outBefore (s : State) (w : FeWarning) : (s.feWarn w).outBefore = s.outBefore := rfl
@[simp] theorem State.feWarn_outSynced (s : State) (w : FeWarning) : (s.feWarn w).outSynced = s.outSynced := rfl
@[simp] theorem State.feWarn_agenda (s : State) (w : FeWarning) : (s.feWarn w).agenda = s.agenda := rfl
@[simp] theorem State.feWarn_free (s : State) (w : FeWarning) : (s.feWarn w).free = s.free := rfl

/-! ## feFail -/

@[simp] theorem State.feFail_phase (s : State) (e : FeError) : (s.feFail e).phase = s.phase := rfl
@[simp] theorem State.feFail_errKind (s : State) (e : FeError) : (s.feFail e).errKind = s.errKind := rfl
@[simp] theorem State.feFail_errIndex (s : State) (e : FeError) : (s.feFail e).errIndex = s.errIndex := rfl
@[simp] theorem State.feFail_errTable (s : State) (e : FeError) : (s.feFail e).errTable = s.errTable := rfl
@[simp] theorem State.feFail_warn (s : State) (e : FeError) : (s.feFail e).warn = s.warn := rfl
@[simp] theorem State.feFail_htLen (s : State) (e : FeError) : (s.feFail e).htLen = s.htLen := rfl
@[simp] theorem State.feFail_cdLen (s : State) (e : FeError) : (s.feFail e).cdLen = s.cdLen := rfl
@[simp] theorem State.feFail_tokCount (s : State) (e : FeError) : (s.feFail e).tokCount = s.tokCount := rfl
@[simp] theorem State.feFail_litLen (s : State) (e : FeError) : (s.feFail e).litLen = s.litLen := rfl
@[simp] theorem State.feFail_outCap (s : State) (e : FeError) : (s.feFail e).outCap = s.outCap := rfl
@[simp] theorem State.feFail_outLen (s : State) (e : FeError) : (s.feFail e).outLen = s.outLen := rfl
@[simp] theorem State.feFail_buildIdx (s : State) (e : FeError) : (s.feFail e).buildIdx = s.buildIdx := rfl
@[simp] theorem State.feFail_tokIdx (s : State) (e : FeError) : (s.feFail e).tokIdx = s.tokIdx := rfl
@[simp] theorem State.feFail_htPos (s : State) (e : FeError) : (s.feFail e).htPos = s.htPos := rfl
@[simp] theorem State.feFail_cdPos (s : State) (e : FeError) : (s.feFail e).cdPos = s.cdPos := rfl
@[simp] theorem State.feFail_bitCnt (s : State) (e : FeError) : (s.feFail e).bitCnt = s.bitCnt := rfl
@[simp] theorem State.feFail_bitBuf (s : State) (e : FeError) : (s.feFail e).bitBuf = s.bitBuf := rfl
@[simp] theorem State.feFail_litPos (s : State) (e : FeError) : (s.feFail e).litPos = s.litPos := rfl
@[simp] theorem State.feFail_t0 (s : State) (e : FeError) : (s.feFail e).t0 = s.t0 := rfl
@[simp] theorem State.feFail_t1 (s : State) (e : FeError) : (s.feFail e).t1 = s.t1 := rfl
@[simp] theorem State.feFail_t2 (s : State) (e : FeError) : (s.feFail e).t2 = s.t2 := rfl
@[simp] theorem State.feFail_tok (s : State) (e : FeError) : (s.feFail e).tok = s.tok := rfl
@[simp] theorem State.feFail_ht (s : State) (e : FeError) : (s.feFail e).ht = s.ht := rfl
@[simp] theorem State.feFail_cd (s : State) (e : FeError) : (s.feFail e).cd = s.cd := rfl
@[simp] theorem State.feFail_lit (s : State) (e : FeError) : (s.feFail e).lit = s.lit := rfl
@[simp] theorem State.feFail_out (s : State) (e : FeError) : (s.feFail e).out = s.out := rfl
@[simp] theorem State.feFail_maxTokens (s : State) (e : FeError) : (s.feFail e).maxTokens = s.maxTokens := rfl
@[simp] theorem State.feFail_fe (s : State) (e : FeError) : (s.feFail e).fe = { s.fe with phase := .failed e, pos := Config.freeStreamPos s.free } := rfl
@[simp] theorem State.feFail_symOut (s : State) (e : FeError) : (s.feFail e).symOut = s.symOut := rfl
@[simp] theorem State.feFail_hostData (s : State) (e : FeError) : (s.feFail e).hostData = s.hostData := rfl
@[simp] theorem State.feFail_hostByte (s : State) (e : FeError) : (s.feFail e).hostByte = s.hostByte := rfl
@[simp] theorem State.feFail_outBefore (s : State) (e : FeError) : (s.feFail e).outBefore = s.outBefore := rfl
@[simp] theorem State.feFail_outSynced (s : State) (e : FeError) : (s.feFail e).outSynced = s.outSynced := rfl
@[simp] theorem State.feFail_agenda (s : State) (e : FeError) : (s.feFail e).agenda = s.agenda := rfl
@[simp] theorem State.feFail_free (s : State) (e : FeError) : (s.feFail e).free = s.free + 1 := rfl

/-! ## beginRun -/

@[simp] theorem State.beginRun_phase (s : State) : s.beginRun.phase = .build := rfl
@[simp] theorem State.beginRun_errKind (s : State) : s.beginRun.errKind = .none := rfl
@[simp] theorem State.beginRun_errIndex (s : State) : s.beginRun.errIndex = 0#32 := rfl
@[simp] theorem State.beginRun_errTable (s : State) : s.beginRun.errTable = 0 := rfl
@[simp] theorem State.beginRun_warn (s : State) : s.beginRun.warn = 0#3 := rfl
@[simp] theorem State.beginRun_htLen (s : State) : s.beginRun.htLen = s.htLen := rfl
@[simp] theorem State.beginRun_cdLen (s : State) : s.beginRun.cdLen = s.cdLen := rfl
@[simp] theorem State.beginRun_tokCount (s : State) : s.beginRun.tokCount = s.tokCount := rfl
@[simp] theorem State.beginRun_litLen (s : State) : s.beginRun.litLen = s.litLen := rfl
@[simp] theorem State.beginRun_outCap (s : State) : s.beginRun.outCap = s.outCap := rfl
@[simp] theorem State.beginRun_outLen (s : State) : s.beginRun.outLen = 0#32 := rfl
@[simp] theorem State.beginRun_buildIdx (s : State) : s.beginRun.buildIdx = 0 := rfl
@[simp] theorem State.beginRun_tokIdx (s : State) : s.beginRun.tokIdx = 0#32 := rfl
@[simp] theorem State.beginRun_htPos (s : State) : s.beginRun.htPos = 0#32 := rfl
@[simp] theorem State.beginRun_cdPos (s : State) : s.beginRun.cdPos = 0 := rfl
@[simp] theorem State.beginRun_bitCnt (s : State) : s.beginRun.bitCnt = 0#5 := rfl
@[simp] theorem State.beginRun_bitBuf (s : State) : s.beginRun.bitBuf = 0#32 := rfl
@[simp] theorem State.beginRun_litPos (s : State) : s.beginRun.litPos = 0#32 := rfl
@[simp] theorem State.beginRun_t0 (s : State) : s.beginRun.t0 = s.t0 := rfl
@[simp] theorem State.beginRun_t1 (s : State) : s.beginRun.t1 = s.t1 := rfl
@[simp] theorem State.beginRun_t2 (s : State) : s.beginRun.t2 = s.t2 := rfl
@[simp] theorem State.beginRun_tok (s : State) : s.beginRun.tok = s.tok := rfl
@[simp] theorem State.beginRun_ht (s : State) : s.beginRun.ht = s.ht := rfl
@[simp] theorem State.beginRun_cd (s : State) : s.beginRun.cd = s.cd := rfl
@[simp] theorem State.beginRun_lit (s : State) : s.beginRun.lit = s.lit := rfl
@[simp] theorem State.beginRun_out (s : State) : s.beginRun.out = s.out := rfl
@[simp] theorem State.beginRun_maxTokens (s : State) : s.beginRun.maxTokens = s.maxTokens := rfl
@[simp] theorem State.beginRun_fe (s : State) : s.beginRun.fe = s.fe := rfl
@[simp] theorem State.beginRun_symOut (s : State) : s.beginRun.symOut = s.symOut := rfl
@[simp] theorem State.beginRun_hostData (s : State) : s.beginRun.hostData = s.hostData := rfl
@[simp] theorem State.beginRun_hostByte (s : State) : s.beginRun.hostByte = s.hostByte := rfl
@[simp] theorem State.beginRun_outBefore (s : State) : s.beginRun.outBefore = s.out := rfl
@[simp] theorem State.beginRun_outSynced (s : State) : s.beginRun.outSynced = false := rfl
@[simp] theorem State.beginRun_agenda (s : State) : s.beginRun.agenda = s.agenda := rfl
@[simp] theorem State.beginRun_free (s : State) : s.beginRun.free = s.free := rfl

/-! ## seeStatus -/

@[simp] theorem State.seeStatus_phase (s : State) : s.seeStatus.phase = s.phase := rfl
@[simp] theorem State.seeStatus_errKind (s : State) : s.seeStatus.errKind = s.errKind := rfl
@[simp] theorem State.seeStatus_errIndex (s : State) : s.seeStatus.errIndex = s.errIndex := rfl
@[simp] theorem State.seeStatus_errTable (s : State) : s.seeStatus.errTable = s.errTable := rfl
@[simp] theorem State.seeStatus_warn (s : State) : s.seeStatus.warn = s.warn := rfl
@[simp] theorem State.seeStatus_htLen (s : State) : s.seeStatus.htLen = s.htLen := rfl
@[simp] theorem State.seeStatus_cdLen (s : State) : s.seeStatus.cdLen = s.cdLen := rfl
@[simp] theorem State.seeStatus_tokCount (s : State) : s.seeStatus.tokCount = s.tokCount := rfl
@[simp] theorem State.seeStatus_litLen (s : State) : s.seeStatus.litLen = s.litLen := rfl
@[simp] theorem State.seeStatus_outCap (s : State) : s.seeStatus.outCap = s.outCap := rfl
@[simp] theorem State.seeStatus_outLen (s : State) : s.seeStatus.outLen = s.outLen := rfl
@[simp] theorem State.seeStatus_buildIdx (s : State) : s.seeStatus.buildIdx = s.buildIdx := rfl
@[simp] theorem State.seeStatus_tokIdx (s : State) : s.seeStatus.tokIdx = s.tokIdx := rfl
@[simp] theorem State.seeStatus_htPos (s : State) : s.seeStatus.htPos = s.htPos := rfl
@[simp] theorem State.seeStatus_cdPos (s : State) : s.seeStatus.cdPos = s.cdPos := rfl
@[simp] theorem State.seeStatus_bitCnt (s : State) : s.seeStatus.bitCnt = s.bitCnt := rfl
@[simp] theorem State.seeStatus_bitBuf (s : State) : s.seeStatus.bitBuf = s.bitBuf := rfl
@[simp] theorem State.seeStatus_litPos (s : State) : s.seeStatus.litPos = s.litPos := rfl
@[simp] theorem State.seeStatus_t0 (s : State) : s.seeStatus.t0 = s.t0 := rfl
@[simp] theorem State.seeStatus_t1 (s : State) : s.seeStatus.t1 = s.t1 := rfl
@[simp] theorem State.seeStatus_t2 (s : State) : s.seeStatus.t2 = s.t2 := rfl
@[simp] theorem State.seeStatus_tok (s : State) : s.seeStatus.tok = s.tok := rfl
@[simp] theorem State.seeStatus_ht (s : State) : s.seeStatus.ht = s.ht := rfl
@[simp] theorem State.seeStatus_cd (s : State) : s.seeStatus.cd = s.cd := rfl
@[simp] theorem State.seeStatus_lit (s : State) : s.seeStatus.lit = s.lit := rfl
@[simp] theorem State.seeStatus_out (s : State) : s.seeStatus.out = s.out := rfl
@[simp] theorem State.seeStatus_maxTokens (s : State) : s.seeStatus.maxTokens = s.maxTokens := rfl
@[simp] theorem State.seeStatus_fe (s : State) : s.seeStatus.fe = s.fe := rfl
@[simp] theorem State.seeStatus_symOut (s : State) : s.seeStatus.symOut = s.symOut := rfl
@[simp] theorem State.seeStatus_hostData (s : State) : s.seeStatus.hostData = s.hostData := rfl
@[simp] theorem State.seeStatus_hostByte (s : State) : s.seeStatus.hostByte = s.hostByte := rfl
@[simp] theorem State.seeStatus_outBefore (s : State) : s.seeStatus.outBefore = s.outBefore := rfl
@[simp] theorem State.seeStatus_outSynced (s : State) : s.seeStatus.outSynced = (s.outSynced || (decide (s.phase = .done) || decide (s.phase = .error))) := rfl
@[simp] theorem State.seeStatus_agenda (s : State) : s.seeStatus.agenda = s.agenda := rfl
@[simp] theorem State.seeStatus_free (s : State) : s.seeStatus.free = s.free := rfl

/-! ## hostReadReg -/

@[simp] theorem State.hostReadReg_phase (s : State) (o : Word) : (s.hostReadReg o).phase = s.phase := by unfold State.hostReadReg; dsimp only; split <;> simp_all
@[simp] theorem State.hostReadReg_errKind (s : State) (o : Word) : (s.hostReadReg o).errKind = s.errKind := by unfold State.hostReadReg; dsimp only; split <;> simp_all
@[simp] theorem State.hostReadReg_errIndex (s : State) (o : Word) : (s.hostReadReg o).errIndex = s.errIndex := by unfold State.hostReadReg; dsimp only; split <;> simp_all
@[simp] theorem State.hostReadReg_errTable (s : State) (o : Word) : (s.hostReadReg o).errTable = s.errTable := by unfold State.hostReadReg; dsimp only; split <;> simp_all
@[simp] theorem State.hostReadReg_warn (s : State) (o : Word) : (s.hostReadReg o).warn = s.warn := by unfold State.hostReadReg; dsimp only; split <;> simp_all
@[simp] theorem State.hostReadReg_htLen (s : State) (o : Word) : (s.hostReadReg o).htLen = s.htLen := by unfold State.hostReadReg; dsimp only; split <;> simp_all
@[simp] theorem State.hostReadReg_cdLen (s : State) (o : Word) : (s.hostReadReg o).cdLen = s.cdLen := by unfold State.hostReadReg; dsimp only; split <;> simp_all
@[simp] theorem State.hostReadReg_tokCount (s : State) (o : Word) : (s.hostReadReg o).tokCount = s.tokCount := by unfold State.hostReadReg; dsimp only; split <;> simp_all
@[simp] theorem State.hostReadReg_litLen (s : State) (o : Word) : (s.hostReadReg o).litLen = s.litLen := by unfold State.hostReadReg; dsimp only; split <;> simp_all
@[simp] theorem State.hostReadReg_outCap (s : State) (o : Word) : (s.hostReadReg o).outCap = s.outCap := by unfold State.hostReadReg; dsimp only; split <;> simp_all
@[simp] theorem State.hostReadReg_outLen (s : State) (o : Word) : (s.hostReadReg o).outLen = s.outLen := by unfold State.hostReadReg; dsimp only; split <;> simp_all
@[simp] theorem State.hostReadReg_buildIdx (s : State) (o : Word) : (s.hostReadReg o).buildIdx = s.buildIdx := by unfold State.hostReadReg; dsimp only; split <;> simp_all
@[simp] theorem State.hostReadReg_tokIdx (s : State) (o : Word) : (s.hostReadReg o).tokIdx = s.tokIdx := by unfold State.hostReadReg; dsimp only; split <;> simp_all
@[simp] theorem State.hostReadReg_htPos (s : State) (o : Word) : (s.hostReadReg o).htPos = s.htPos := by unfold State.hostReadReg; dsimp only; split <;> simp_all
@[simp] theorem State.hostReadReg_cdPos (s : State) (o : Word) : (s.hostReadReg o).cdPos = s.cdPos := by unfold State.hostReadReg; dsimp only; split <;> simp_all
@[simp] theorem State.hostReadReg_bitCnt (s : State) (o : Word) : (s.hostReadReg o).bitCnt = s.bitCnt := by unfold State.hostReadReg; dsimp only; split <;> simp_all
@[simp] theorem State.hostReadReg_bitBuf (s : State) (o : Word) : (s.hostReadReg o).bitBuf = s.bitBuf := by unfold State.hostReadReg; dsimp only; split <;> simp_all
@[simp] theorem State.hostReadReg_litPos (s : State) (o : Word) : (s.hostReadReg o).litPos = s.litPos := by unfold State.hostReadReg; dsimp only; split <;> simp_all
@[simp] theorem State.hostReadReg_t0 (s : State) (o : Word) : (s.hostReadReg o).t0 = s.t0 := by unfold State.hostReadReg; dsimp only; split <;> simp_all
@[simp] theorem State.hostReadReg_t1 (s : State) (o : Word) : (s.hostReadReg o).t1 = s.t1 := by unfold State.hostReadReg; dsimp only; split <;> simp_all
@[simp] theorem State.hostReadReg_t2 (s : State) (o : Word) : (s.hostReadReg o).t2 = s.t2 := by unfold State.hostReadReg; dsimp only; split <;> simp_all
@[simp] theorem State.hostReadReg_tok (s : State) (o : Word) : (s.hostReadReg o).tok = s.tok := by unfold State.hostReadReg; dsimp only; split <;> simp_all
@[simp] theorem State.hostReadReg_ht (s : State) (o : Word) : (s.hostReadReg o).ht = s.ht := by unfold State.hostReadReg; dsimp only; split <;> simp_all
@[simp] theorem State.hostReadReg_cd (s : State) (o : Word) : (s.hostReadReg o).cd = s.cd := by unfold State.hostReadReg; dsimp only; split <;> simp_all
@[simp] theorem State.hostReadReg_lit (s : State) (o : Word) : (s.hostReadReg o).lit = s.lit := by unfold State.hostReadReg; dsimp only; split <;> simp_all
@[simp] theorem State.hostReadReg_out (s : State) (o : Word) : (s.hostReadReg o).out = s.out := by unfold State.hostReadReg; dsimp only; split <;> simp_all
@[simp] theorem State.hostReadReg_maxTokens (s : State) (o : Word) : (s.hostReadReg o).maxTokens = s.maxTokens := by unfold State.hostReadReg; dsimp only; split <;> simp_all
@[simp] theorem State.hostReadReg_fe (s : State) (o : Word) : (s.hostReadReg o).fe = s.fe := by unfold State.hostReadReg; dsimp only; split <;> simp_all
@[simp] theorem State.hostReadReg_symOut (s : State) (o : Word) : (s.hostReadReg o).symOut = s.symOut := by unfold State.hostReadReg; dsimp only; split <;> simp_all
@[simp] theorem State.hostReadReg_hostData (s : State) (o : Word) : (s.hostReadReg o).hostData = s.readWord o := by unfold State.hostReadReg; dsimp only; split <;> simp_all
@[simp] theorem State.hostReadReg_hostByte (s : State) (o : Word) : (s.hostReadReg o).hostByte = s.hostByte := by unfold State.hostReadReg; dsimp only; split <;> simp_all
@[simp] theorem State.hostReadReg_outBefore (s : State) (o : Word) : (s.hostReadReg o).outBefore = s.outBefore := by unfold State.hostReadReg; dsimp only; split <;> simp_all
@[simp] theorem State.hostReadReg_outSynced (s : State) (o : Word) : (s.hostReadReg o).outSynced = (s.outSynced || (decide (o = statusOffset) && (decide (s.phase = .done) || decide (s.phase = .error)))) := by unfold State.hostReadReg; dsimp only; split <;> simp_all
@[simp] theorem State.hostReadReg_agenda (s : State) (o : Word) : (s.hostReadReg o).agenda = s.agenda := by unfold State.hostReadReg; dsimp only; split <;> simp_all
@[simp] theorem State.hostReadReg_free (s : State) (o : Word) : (s.hostReadReg o).free = s.free := by unfold State.hostReadReg; dsimp only; split <;> simp_all

/-! ## setTable -/

@[simp] theorem State.setTable_phase (s : State) (k : CodeSpace) (t : Table) : (s.setTable k t).phase = s.phase := by unfold State.setTable; split <;> rfl
@[simp] theorem State.setTable_errKind (s : State) (k : CodeSpace) (t : Table) : (s.setTable k t).errKind = s.errKind := by unfold State.setTable; split <;> rfl
@[simp] theorem State.setTable_errIndex (s : State) (k : CodeSpace) (t : Table) : (s.setTable k t).errIndex = s.errIndex := by unfold State.setTable; split <;> rfl
@[simp] theorem State.setTable_errTable (s : State) (k : CodeSpace) (t : Table) : (s.setTable k t).errTable = s.errTable := by unfold State.setTable; split <;> rfl
@[simp] theorem State.setTable_warn (s : State) (k : CodeSpace) (t : Table) : (s.setTable k t).warn = s.warn := by unfold State.setTable; split <;> rfl
@[simp] theorem State.setTable_htLen (s : State) (k : CodeSpace) (t : Table) : (s.setTable k t).htLen = s.htLen := by unfold State.setTable; split <;> rfl
@[simp] theorem State.setTable_cdLen (s : State) (k : CodeSpace) (t : Table) : (s.setTable k t).cdLen = s.cdLen := by unfold State.setTable; split <;> rfl
@[simp] theorem State.setTable_tokCount (s : State) (k : CodeSpace) (t : Table) : (s.setTable k t).tokCount = s.tokCount := by unfold State.setTable; split <;> rfl
@[simp] theorem State.setTable_litLen (s : State) (k : CodeSpace) (t : Table) : (s.setTable k t).litLen = s.litLen := by unfold State.setTable; split <;> rfl
@[simp] theorem State.setTable_outCap (s : State) (k : CodeSpace) (t : Table) : (s.setTable k t).outCap = s.outCap := by unfold State.setTable; split <;> rfl
@[simp] theorem State.setTable_outLen (s : State) (k : CodeSpace) (t : Table) : (s.setTable k t).outLen = s.outLen := by unfold State.setTable; split <;> rfl
@[simp] theorem State.setTable_buildIdx (s : State) (k : CodeSpace) (t : Table) : (s.setTable k t).buildIdx = s.buildIdx := by unfold State.setTable; split <;> rfl
@[simp] theorem State.setTable_tokIdx (s : State) (k : CodeSpace) (t : Table) : (s.setTable k t).tokIdx = s.tokIdx := by unfold State.setTable; split <;> rfl
@[simp] theorem State.setTable_htPos (s : State) (k : CodeSpace) (t : Table) : (s.setTable k t).htPos = s.htPos := by unfold State.setTable; split <;> rfl
@[simp] theorem State.setTable_cdPos (s : State) (k : CodeSpace) (t : Table) : (s.setTable k t).cdPos = s.cdPos := by unfold State.setTable; split <;> rfl
@[simp] theorem State.setTable_bitCnt (s : State) (k : CodeSpace) (t : Table) : (s.setTable k t).bitCnt = s.bitCnt := by unfold State.setTable; split <;> rfl
@[simp] theorem State.setTable_bitBuf (s : State) (k : CodeSpace) (t : Table) : (s.setTable k t).bitBuf = s.bitBuf := by unfold State.setTable; split <;> rfl
@[simp] theorem State.setTable_litPos (s : State) (k : CodeSpace) (t : Table) : (s.setTable k t).litPos = s.litPos := by unfold State.setTable; split <;> rfl
@[simp] theorem State.setTable_tok (s : State) (k : CodeSpace) (t : Table) : (s.setTable k t).tok = s.tok := by unfold State.setTable; split <;> rfl
@[simp] theorem State.setTable_ht (s : State) (k : CodeSpace) (t : Table) : (s.setTable k t).ht = s.ht := by unfold State.setTable; split <;> rfl
@[simp] theorem State.setTable_cd (s : State) (k : CodeSpace) (t : Table) : (s.setTable k t).cd = s.cd := by unfold State.setTable; split <;> rfl
@[simp] theorem State.setTable_lit (s : State) (k : CodeSpace) (t : Table) : (s.setTable k t).lit = s.lit := by unfold State.setTable; split <;> rfl
@[simp] theorem State.setTable_out (s : State) (k : CodeSpace) (t : Table) : (s.setTable k t).out = s.out := by unfold State.setTable; split <;> rfl
@[simp] theorem State.setTable_maxTokens (s : State) (k : CodeSpace) (t : Table) : (s.setTable k t).maxTokens = s.maxTokens := by unfold State.setTable; split <;> rfl
@[simp] theorem State.setTable_fe (s : State) (k : CodeSpace) (t : Table) : (s.setTable k t).fe = s.fe := by unfold State.setTable; split <;> rfl
@[simp] theorem State.setTable_symOut (s : State) (k : CodeSpace) (t : Table) : (s.setTable k t).symOut = s.symOut := by unfold State.setTable; split <;> rfl
@[simp] theorem State.setTable_hostData (s : State) (k : CodeSpace) (t : Table) : (s.setTable k t).hostData = s.hostData := by unfold State.setTable; split <;> rfl
@[simp] theorem State.setTable_hostByte (s : State) (k : CodeSpace) (t : Table) : (s.setTable k t).hostByte = s.hostByte := by unfold State.setTable; split <;> rfl
@[simp] theorem State.setTable_outBefore (s : State) (k : CodeSpace) (t : Table) : (s.setTable k t).outBefore = s.outBefore := by unfold State.setTable; split <;> rfl
@[simp] theorem State.setTable_outSynced (s : State) (k : CodeSpace) (t : Table) : (s.setTable k t).outSynced = s.outSynced := by unfold State.setTable; split <;> rfl
@[simp] theorem State.setTable_agenda (s : State) (k : CodeSpace) (t : Table) : (s.setTable k t).agenda = s.agenda := by unfold State.setTable; split <;> rfl
@[simp] theorem State.setTable_free (s : State) (k : CodeSpace) (t : Table) : (s.setTable k t).free = s.free := by unfold State.setTable; split <;> rfl

/-! ## checkIdentifier -/

@[simp] theorem State.checkIdentifier_phase (s : State) (k : CodeSpace) (id : Byte) : (s.checkIdentifier k id).phase = s.phase := by unfold State.checkIdentifier; split <;> rfl
@[simp] theorem State.checkIdentifier_errKind (s : State) (k : CodeSpace) (id : Byte) : (s.checkIdentifier k id).errKind = s.errKind := by unfold State.checkIdentifier; split <;> rfl
@[simp] theorem State.checkIdentifier_errIndex (s : State) (k : CodeSpace) (id : Byte) : (s.checkIdentifier k id).errIndex = s.errIndex := by unfold State.checkIdentifier; split <;> rfl
@[simp] theorem State.checkIdentifier_errTable (s : State) (k : CodeSpace) (id : Byte) : (s.checkIdentifier k id).errTable = s.errTable := by unfold State.checkIdentifier; split <;> rfl
@[simp] theorem State.checkIdentifier_warn (s : State) (k : CodeSpace) (id : Byte) : (s.checkIdentifier k id).warn = if id = identifier k then s.warn else s.warn ||| warnMask k := by unfold State.checkIdentifier; split <;> rfl
@[simp] theorem State.checkIdentifier_htLen (s : State) (k : CodeSpace) (id : Byte) : (s.checkIdentifier k id).htLen = s.htLen := by unfold State.checkIdentifier; split <;> rfl
@[simp] theorem State.checkIdentifier_cdLen (s : State) (k : CodeSpace) (id : Byte) : (s.checkIdentifier k id).cdLen = s.cdLen := by unfold State.checkIdentifier; split <;> rfl
@[simp] theorem State.checkIdentifier_tokCount (s : State) (k : CodeSpace) (id : Byte) : (s.checkIdentifier k id).tokCount = s.tokCount := by unfold State.checkIdentifier; split <;> rfl
@[simp] theorem State.checkIdentifier_litLen (s : State) (k : CodeSpace) (id : Byte) : (s.checkIdentifier k id).litLen = s.litLen := by unfold State.checkIdentifier; split <;> rfl
@[simp] theorem State.checkIdentifier_outCap (s : State) (k : CodeSpace) (id : Byte) : (s.checkIdentifier k id).outCap = s.outCap := by unfold State.checkIdentifier; split <;> rfl
@[simp] theorem State.checkIdentifier_outLen (s : State) (k : CodeSpace) (id : Byte) : (s.checkIdentifier k id).outLen = s.outLen := by unfold State.checkIdentifier; split <;> rfl
@[simp] theorem State.checkIdentifier_buildIdx (s : State) (k : CodeSpace) (id : Byte) : (s.checkIdentifier k id).buildIdx = s.buildIdx := by unfold State.checkIdentifier; split <;> rfl
@[simp] theorem State.checkIdentifier_tokIdx (s : State) (k : CodeSpace) (id : Byte) : (s.checkIdentifier k id).tokIdx = s.tokIdx := by unfold State.checkIdentifier; split <;> rfl
@[simp] theorem State.checkIdentifier_htPos (s : State) (k : CodeSpace) (id : Byte) : (s.checkIdentifier k id).htPos = s.htPos := by unfold State.checkIdentifier; split <;> rfl
@[simp] theorem State.checkIdentifier_cdPos (s : State) (k : CodeSpace) (id : Byte) : (s.checkIdentifier k id).cdPos = s.cdPos := by unfold State.checkIdentifier; split <;> rfl
@[simp] theorem State.checkIdentifier_bitCnt (s : State) (k : CodeSpace) (id : Byte) : (s.checkIdentifier k id).bitCnt = s.bitCnt := by unfold State.checkIdentifier; split <;> rfl
@[simp] theorem State.checkIdentifier_bitBuf (s : State) (k : CodeSpace) (id : Byte) : (s.checkIdentifier k id).bitBuf = s.bitBuf := by unfold State.checkIdentifier; split <;> rfl
@[simp] theorem State.checkIdentifier_litPos (s : State) (k : CodeSpace) (id : Byte) : (s.checkIdentifier k id).litPos = s.litPos := by unfold State.checkIdentifier; split <;> rfl
@[simp] theorem State.checkIdentifier_t0 (s : State) (k : CodeSpace) (id : Byte) : (s.checkIdentifier k id).t0 = s.t0 := by unfold State.checkIdentifier; split <;> rfl
@[simp] theorem State.checkIdentifier_t1 (s : State) (k : CodeSpace) (id : Byte) : (s.checkIdentifier k id).t1 = s.t1 := by unfold State.checkIdentifier; split <;> rfl
@[simp] theorem State.checkIdentifier_t2 (s : State) (k : CodeSpace) (id : Byte) : (s.checkIdentifier k id).t2 = s.t2 := by unfold State.checkIdentifier; split <;> rfl
@[simp] theorem State.checkIdentifier_tok (s : State) (k : CodeSpace) (id : Byte) : (s.checkIdentifier k id).tok = s.tok := by unfold State.checkIdentifier; split <;> rfl
@[simp] theorem State.checkIdentifier_ht (s : State) (k : CodeSpace) (id : Byte) : (s.checkIdentifier k id).ht = s.ht := by unfold State.checkIdentifier; split <;> rfl
@[simp] theorem State.checkIdentifier_cd (s : State) (k : CodeSpace) (id : Byte) : (s.checkIdentifier k id).cd = s.cd := by unfold State.checkIdentifier; split <;> rfl
@[simp] theorem State.checkIdentifier_lit (s : State) (k : CodeSpace) (id : Byte) : (s.checkIdentifier k id).lit = s.lit := by unfold State.checkIdentifier; split <;> rfl
@[simp] theorem State.checkIdentifier_out (s : State) (k : CodeSpace) (id : Byte) : (s.checkIdentifier k id).out = s.out := by unfold State.checkIdentifier; split <;> rfl
@[simp] theorem State.checkIdentifier_maxTokens (s : State) (k : CodeSpace) (id : Byte) : (s.checkIdentifier k id).maxTokens = s.maxTokens := by unfold State.checkIdentifier; split <;> rfl
@[simp] theorem State.checkIdentifier_fe (s : State) (k : CodeSpace) (id : Byte) : (s.checkIdentifier k id).fe = s.fe := by unfold State.checkIdentifier; split <;> rfl
@[simp] theorem State.checkIdentifier_symOut (s : State) (k : CodeSpace) (id : Byte) : (s.checkIdentifier k id).symOut = s.symOut := by unfold State.checkIdentifier; split <;> rfl
@[simp] theorem State.checkIdentifier_hostData (s : State) (k : CodeSpace) (id : Byte) : (s.checkIdentifier k id).hostData = s.hostData := by unfold State.checkIdentifier; split <;> rfl
@[simp] theorem State.checkIdentifier_hostByte (s : State) (k : CodeSpace) (id : Byte) : (s.checkIdentifier k id).hostByte = s.hostByte := by unfold State.checkIdentifier; split <;> rfl
@[simp] theorem State.checkIdentifier_outBefore (s : State) (k : CodeSpace) (id : Byte) : (s.checkIdentifier k id).outBefore = s.outBefore := by unfold State.checkIdentifier; split <;> rfl
@[simp] theorem State.checkIdentifier_outSynced (s : State) (k : CodeSpace) (id : Byte) : (s.checkIdentifier k id).outSynced = s.outSynced := by unfold State.checkIdentifier; split <;> rfl
@[simp] theorem State.checkIdentifier_agenda (s : State) (k : CodeSpace) (id : Byte) : (s.checkIdentifier k id).agenda = s.agenda := by unfold State.checkIdentifier; split <;> rfl
@[simp] theorem State.checkIdentifier_free (s : State) (k : CodeSpace) (id : Byte) : (s.checkIdentifier k id).free = s.free := by unfold State.checkIdentifier; split <;> rfl

/-! ## The table of a code space -/

@[simp] theorem State.table_setTable_same (s : State) (k : CodeSpace) (t : Table) : (s.setTable k t).table k = t := by
  unfold State.setTable State.table; split <;> rfl

@[simp] theorem State.table_setHtPos (s : State) (p : Word) (k : CodeSpace) : (s.setHtPos p).table k = s.table k := rfl

@[simp] theorem State.table_setWarn (s : State) (w : BitVec 3) (k : CodeSpace) : (s.setWarn w).table k = s.table k := rfl

theorem State.table_setTable_other (s : State) (k j : CodeSpace) (t : Table) (h : j ≠ k) :
    (s.setTable k t).table j = s.table j := by
  unfold State.setTable State.table; split <;> split <;> first | rfl | exact absurd rfl h

/-! ## The updates of a build, in the order table, HT_POS, WARN -/

@[simp] theorem State.setTable_setTable (s : State) (k : CodeSpace) (t u : Table) : (s.setTable k t).setTable k u = s.setTable k u := by
  unfold State.setTable; split <;> rfl

@[simp] theorem State.setHtPos_setTable (s : State) (k : CodeSpace) (p : Word) (t : Table) :
    (s.setHtPos p).setTable k t = (s.setTable k t).setHtPos p := by
  unfold State.setTable; split <;> rfl

@[simp] theorem State.setWarn_setTable (s : State) (k : CodeSpace) (w : BitVec 3) (t : Table) :
    (s.setWarn w).setTable k t = (s.setTable k t).setWarn w := by
  unfold State.setTable; split <;> rfl

@[simp] theorem State.setHtPos_setHtPos (s : State) (p q : Word) : (s.setHtPos p).setHtPos q = s.setHtPos q := rfl

@[simp] theorem State.setWarn_setWarn (s : State) (w x : BitVec 3) : (s.setWarn w).setWarn x = s.setWarn x := rfl

@[simp] theorem State.setWarn_setHtPos (s : State) (w : BitVec 3) (p : Word) : (s.setWarn w).setHtPos p = (s.setHtPos p).setWarn w := rfl

/-- The identifier check writes WARN only (R123). -/
theorem State.checkIdentifier_eq (s : State) (k : CodeSpace) (id : Byte) :
    s.checkIdentifier k id = s.setWarn (if id = identifier k then s.warn else s.warn ||| warnMask k) := by
  unfold State.checkIdentifier State.raiseWarning; split <;> rfl

end Sys2Proof.Machine
end

