-- ==== Sys2Proof/Laws/Stores.lean ====
section
/-! SUPPORT. Laws/Stores.lean: the laws of the prefix tables and of the token store. -/

namespace Sys2Proof.Machine

/-- A cleared table reads as the sentinel everywhere (R122). -/
@[simp] theorem Table.read_cleared (w : Half) : Table.cleared.read w = 0#16 := rfl

/-- A fill decides the slots it covers and no other (R127). -/
theorem Table.read_fill (t : Table) (first count : Nat) (e w : Half) :
    (t.fill first count e).read w = if first ≤ w.toNat ∧ w.toNat < first + count then e else t.read w := rfl

/-- A codeword's fill makes every window that starts with the codeword map to its entry (R98, R127). -/
theorem Table.fill_codes (t : Table) (code len : Nat) (sym : Byte) (h1 : 1 ≤ len) (h2 : len ≤ 16) (h3 : code < 2 ^ len) :
    (t.fill (firstSlot code len) (slotCount len) (entryOf len sym)).Codes code len sym := by
  refine ⟨h1, h2, h3, fun w hw => ?_⟩
  have hp : 0 < 2 ^ (16 - len) := by positivity
  rw [Table.read_fill, if_pos]
  unfold firstSlot slotCount
  rw [← hw]
  refine ⟨Nat.div_mul_le_self _ _, ?_⟩
  have := Nat.lt_div_mul_add (a := w.toNat) hp
  omega

/-- A cleared table is sound. -/
theorem Table.cleared_sound : Table.cleared.Sound := fun w => Or.inl (Table.read_cleared w)

/-- Filling with an entry of a legal length keeps a table sound (R126). -/
theorem Table.fill_sound (t : Table) (first count : Nat) (e : Half) (ht : t.Sound) (h1 : 1 ≤ entryLength e)
    (h2 : entryLength e ≤ 16) : (t.fill first count e).Sound := by
  intro w
  rw [Table.read_fill]
  split
  · exact Or.inr ⟨h1, h2⟩
  · exact ht w

/-- The high byte of a concatenation of two bytes. -/
theorem extract_high_append (x y : Byte) : BitVec.extractLsb' 8 8 (x ++ y : BitVec (8 + 8)) = x := by
  ext i hi
  rw [BitVec.getElem_extractLsb', BitVec.getLsbD_append]
  simp [BitVec.getLsbD_eq_getElem hi]

/-- The low byte of a concatenation of two bytes. -/
theorem extract_low_append (x y : Byte) : BitVec.extractLsb' 0 8 (x ++ y : BitVec (8 + 8)) = y := by
  ext i hi
  rw [BitVec.getElem_extractLsb', BitVec.getLsbD_append]
  simp [hi]

/-- LEN of a built entry (R95). -/
theorem entryLength_entryOf (len : Nat) (sym : Byte) (h : len ≤ 16) : entryLength (entryOf len sym) = len := by
  unfold entryLength entryOf
  rw [extract_high_append, BitVec.toNat_ofNat]
  omega

/-- SYM of a built entry (R95). -/
theorem entrySymbol_entryOf (len : Nat) (sym : Byte) : entrySymbol (entryOf len sym) = sym :=
  extract_low_append _ _

/-- A built entry is never the sentinel (R96). -/
theorem entryOf_ne_zero (len : Nat) (sym : Byte) (h1 : 1 ≤ len) (h2 : len ≤ 16) : entryOf len sym ≠ 0#16 := by
  intro h
  have := entryLength_entryOf len sym h2
  rw [h] at this
  have h0 : entryLength 0#16 = 0 := by decide
  omega

/-- A written token is found, and no other index changes, in every store (R173). -/
theorem findToken_insertToken (l : List (Nat × Token)) (i j : Nat) (t : Token) :
    findToken (insertToken l i t) j = if i = j then some t else findToken l j := by
  induction l with
  | nil => rfl
  | cons c rest ih =>
    obtain ⟨k, u⟩ := c
    simp only [insertToken]
    split
    · simp [findToken]
    · split
      · rename_i _ h
        subst h
        by_cases hij : i = j <;> simp [findToken, hij]
      · rename_i _ h
        simp only [findToken]
        split
        · rename_i e
          have : i ≠ j := fun e2 => h (e2.trans e.symm)
          simp [this]
        · exact ih

/-- TOK[i] reads as written (R45). -/
theorem TokenStore.read_write_same (ts : TokenStore) (i : Nat) (t : Token) : (ts.write i t).read i = t := by
  unfold TokenStore.read TokenStore.write
  rw [findToken_insertToken]
  simp

/-- A write leaves every other token alone (R173). -/
theorem TokenStore.read_write_other (ts : TokenStore) (i j : Nat) (t : Token) (h : i ≠ j) : (ts.write i t).read j = ts.read j := by
  unfold TokenStore.read TokenStore.write
  rw [findToken_insertToken]
  simp [h]

/-- Which tokens are written after a write. -/
theorem TokenStore.holds_write (ts : TokenStore) (i j : Nat) (t : Token) :
    (ts.write i t).holds j = (decide (i = j) || ts.holds j) := by
  unfold TokenStore.holds TokenStore.write
  rw [findToken_insertToken]
  by_cases hij : i = j <;> simp [hij]

theorem insertToken_wfFrom (l : List (Nat × Token)) (i : Nat) (t : Token) : ∀ (lo : Nat), lo ≤ i → tokensWfFrom lo l = true →
    tokensWfFrom lo (insertToken l i t) = true := by
  induction l with
  | nil => intro lo h _; simp [insertToken, tokensWfFrom, h]
  | cons c rest ih =>
    obtain ⟨k, u⟩ := c
    intro lo hlo h
    simp only [tokensWfFrom, Bool.and_eq_true, decide_eq_true_eq] at h
    simp only [insertToken]
    split
    · simp only [tokensWfFrom, Bool.and_eq_true, decide_eq_true_eq]
      exact ⟨hlo, by omega, h.2⟩
    · split
      · rename_i _ e
        simp only [tokensWfFrom, Bool.and_eq_true, decide_eq_true_eq]
        exact ⟨hlo, e ▸ h.2⟩
      · simp only [tokensWfFrom, Bool.and_eq_true, decide_eq_true_eq]
        exact ⟨h.1, ih (k + 1) (by omega) h.2⟩

/-- Every write of the token store keeps its canonical form. -/
theorem TokenStore.write_wf (ts : TokenStore) (i : Nat) (t : Token) (h : ts.wf = true) : (ts.write i t).wf = true :=
  insertToken_wfFrom _ _ _ 0 (Nat.zero_le i) h

end Sys2Proof.Machine
end

