-- ==== Sys2Proof/Laws/Decoder.lean ====
section
/-! SUPPORT. Laws/Decoder.lean: what an operation's ending can be, and what the refill, DECODE_SYMBOL and DECODE_TOKEN can do. -/

namespace Sys2Proof.Machine

/-! ## Endings -/

/-- A step that ends an operation always answers a next state. -/
theorem Res.finish_next {α : Type} (r : Res α) (f : State → State) : ∃ t, r.finish f = .next t := by
  cases r with
  | done a s => exact ⟨f s, rfl⟩
  | fatal s => exact ⟨s, rfl⟩

/-- The two ways an operation's step ends. -/
theorem Res.finish_cases {α : Type} {r : Res α} {f : State → State} {t : State} (h : r.finish f = .next t) :
    (∃ a s, r = .done a s ∧ t = f s) ∨ r = .fatal t := by
  cases r with
  | done a s => cases h; exact Or.inl ⟨a, s, rfl, rfl⟩
  | fatal s => cases h; exact Or.inr rfl

/-- A composed operation completes when both parts do. -/
theorem Res.andThen_done {α β : Type} {r : Res α} {f : α → State → Res β} {b : β} {t : State} (h : r.andThen f = .done b t) :
    ∃ a s, r = .done a s ∧ f a s = .done b t := by
  cases r with
  | done a s => exact ⟨a, s, rfl, h⟩
  | fatal s => cases h

/-- A composed operation ends with an error in its first or its second part. -/
theorem Res.andThen_fatal {α β : Type} {r : Res α} {f : α → State → Res β} {t : State} (h : r.andThen f = .fatal t) :
    r = .fatal t ∨ ∃ a s, r = .done a s ∧ f a s = .fatal t := by
  cases r with
  | done a s => exact Or.inr ⟨a, s, rfl, h⟩
  | fatal s => cases h; exact Or.inl rfl

/-! ## The refill (R151) -/

/-- The refill writes the bit cursor only. -/
theorem State.refill_frame (s : State) :
    s.refill = { s with bitBuf := s.refill.bitBuf, bitCnt := s.refill.bitCnt, cdPos := s.refill.cdPos } := by
  unfold State.refill refillUpTo refillUpTo refillUpTo
  split
  · split <;> rfl
  · rfl

/-- One byte shifted in adds 8 buffered bits while fewer than 16 are buffered. -/
theorem State.shiftIn_bitCnt_toNat (s : State) (h : s.bitCnt.toNat < 16) : s.shiftIn.bitCnt.toNat = s.bitCnt.toNat + 8 := by
  rw [State.shiftIn_bitCnt, BitVec.toNat_add]
  simp; omega

/-- The refill shifts in 0, 1 or 2 bytes, until 16 bits are buffered. -/
theorem State.refill_cases (s : State) :
    (16 ≤ s.bitCnt.toNat ∧ s.refill = s) ∨
    (8 ≤ s.bitCnt.toNat ∧ s.bitCnt.toNat < 16 ∧ s.refill = s.shiftIn) ∨
    (s.bitCnt.toNat < 8 ∧ s.refill = s.shiftIn.shiftIn) := by
  unfold State.refill refillUpTo refillUpTo refillUpTo
  by_cases h : s.bitCnt.toNat < 16
  · have h8 := s.shiftIn_bitCnt_toNat h
    by_cases h2 : s.bitCnt.toNat < 8
    · right; right
      refine ⟨h2, ?_⟩
      rw [if_pos h, if_pos (by omega)]
    · right; left
      refine ⟨by omega, h, ?_⟩
      rw [if_pos h, if_neg (by omega)]
  · left
    exact ⟨by omega, by rw [if_neg h]⟩

/-- After a refill 16 to 23 bits are buffered, and no bit was consumed (R151, R49). -/
theorem State.refill_bits (s : State) (h : s.bitCnt.toNat ≤ 23) :
    16 ≤ s.refill.bitCnt.toNat ∧ s.refill.bitCnt.toNat ≤ 23 ∧
      8 * s.refill.cdPos + s.bitCnt.toNat = 8 * s.cdPos + s.refill.bitCnt.toNat ∧ s.refill.cdPos ≤ s.cdPos + 2 := by
  rcases s.refill_cases with ⟨h1, e⟩ | ⟨h1, h2, e⟩ | ⟨h1, e⟩
  · rw [e]; omega
  · have := s.shiftIn_bitCnt_toNat h2
    rw [e]; simp only [State.shiftIn_cdPos]; omega
  · have h3 := s.shiftIn_bitCnt_toNat (by omega)
    have h4 := s.shiftIn.shiftIn_bitCnt_toNat (by omega)
    rw [e]; simp only [State.shiftIn_cdPos]; omega

/-- The byte a refill shifts in holds the next eight stream bits, the first of them in bit 7 (R68, R152). -/
theorem State.refillInput_getLsbD (s : State) (j : Nat) (h : j < 8) : s.refillInput.getLsbD j = s.streamBit (8 * s.cdPos + 7 - j) := by
  unfold State.refillInput State.streamBit
  rw [show (8 * s.cdPos + 7 - j) / 8 = s.cdPos by omega, show 7 - (8 * s.cdPos + 7 - j) % 8 = j by omega]
  split <;> simp

/-- Shifting a byte in keeps the buffered bits those of the stream. -/
theorem State.shiftIn_cursorInv (s : State) (h : s.CursorInv) (h16 : s.bitCnt.toNat < 16) : s.shiftIn.CursorInv := by
  have h8 := s.shiftIn_bitCnt_toNat h16
  have h1 := h.shifted
  refine ⟨by omega, by simp only [State.shiftIn_cdPos]; omega, ?_⟩
  intro j hj
  have e : s.shiftIn.streamBit = s.streamBit := rfl
  rw [e, State.shiftIn_bitBuf, State.shiftIn_cdPos, BitVec.getLsbD_or, BitVec.getLsbD_shiftLeft, BitVec.getLsbD_setWidth]
  by_cases hlt : j < 8
  · rw [State.refillInput_getLsbD s j hlt, show 8 * (s.cdPos + 1) - 1 - j = 8 * s.cdPos + 7 - j by omega]
    simp [hlt]; omega
  · have := h.shows (j - 8) (by omega)
    rw [this, show 8 * (s.cdPos + 1) - 1 - j = 8 * s.cdPos - 1 - (j - 8) by omega]
    simp [hlt, show j < 32 by omega, BitVec.getLsbD_of_ge s.refillInput j (by omega)]

/-- A refill keeps the buffered bits those of the stream (R151). -/
theorem State.refill_cursorInv (s : State) (h : s.CursorInv) : s.refill.CursorInv := by
  rcases s.refill_cases with ⟨_, e⟩ | ⟨_, h2, e⟩ | ⟨h1, e⟩ <;> rw [e]
  · exact h
  · exact s.shiftIn_cursorInv h h2
  · refine s.shiftIn.shiftIn_cursorInv (s.shiftIn_cursorInv h (by omega)) ?_
    have := s.shiftIn_bitCnt_toNat (by omega); omega

/-- A refill writes nothing the stream is read from. -/
theorem State.refill_streamBit (s : State) : s.refill.streamBit = s.streamBit := by
  rw [State.refill_frame]; rfl

/-- Consuming bits that are buffered keeps the rest those of the stream and moves the position on (R156, R49). -/
theorem State.consume_cursorInv (s : State) (e : Half) (h : s.CursorInv) (hl : entryLength e ≤ s.bitCnt.toNat) :
    (s.consume e).CursorInv ∧ (s.consume e).consumed = s.consumed + entryLength e := by
  have hr := h.range
  have hs := h.shifted
  have hb : (s.consume e).bitCnt.toNat = s.bitCnt.toNat - entryLength e := by
    simp only [State.consume_bitCnt]
    rw [BitVec.toNat_sub]
    simp only [BitVec.toNat_ofNat]
    omega
  refine ⟨⟨by omega, by rw [hb]; simp only [State.consume_cdPos]; omega, fun j hj => h.shows j (by omega)⟩, ?_⟩
  unfold State.consumed; rw [hb]; simp only [State.consume_cdPos]; omega

/-! ## DECODE_SYMBOL (R150) -/

/-- The three ways a DECODE_SYMBOL ends. -/
theorem decodeSymbol_cases (t : CodeSpace) (s : State) :
    ((s.refill.table t).read s.refill.window = 0#16 ∧
      decodeSymbol t s = .fatal (s.refill.raiseFatal .invalidPrefixCode s.tokIdx t)) ∨
    ((s.refill.table t).read s.refill.window ≠ 0#16 ∧
      s.refill.pastEnd (entryLength ((s.refill.table t).read s.refill.window)) = true ∧
      decodeSymbol t s = .fatal (s.refill.raiseFatal .outOfCompressedData s.tokIdx t)) ∨
    ((s.refill.table t).read s.refill.window ≠ 0#16 ∧
      s.refill.pastEnd (entryLength ((s.refill.table t).read s.refill.window)) = false ∧
      decodeSymbol t s = .done (entrySymbol ((s.refill.table t).read s.refill.window))
        (s.refill.consume ((s.refill.table t).read s.refill.window))) := by
  have hi : s.refill.tokIdx = s.tokIdx := by rw [State.refill_frame]
  unfold decodeSymbol lookUp
  by_cases h0 : (s.refill.table t).read s.refill.window = 0#16
  · simp [h0, hi]
  · by_cases h1 : s.refill.pastEnd (entryLength ((s.refill.table t).read s.refill.window)) = true
    · simp [h0, h1, hi]
    · simp [h0, h1]

/-- A completed DECODE_SYMBOL writes the bit cursor and the symbol only. -/
theorem decodeSymbol_done_frame {t : CodeSpace} {s u : State} {b : Byte} (h : decodeSymbol t s = .done b u) :
    u = { s with bitBuf := u.bitBuf, bitCnt := u.bitCnt, cdPos := u.cdPos, symOut := b } := by
  rcases decodeSymbol_cases t s with ⟨_, e⟩ | ⟨_, _, e⟩ | ⟨_, _, e⟩ <;> rw [e] at h <;> cases h
  rw [State.refill_frame]; rfl

/-- A faulting DECODE_SYMBOL records its error over the refilled cursor (R158). -/
theorem decodeSymbol_fatal_frame {t : CodeSpace} {s u : State} (h : decodeSymbol t s = .fatal u) :
    (u.errKind = .invalidPrefixCode ∨ u.errKind = .outOfCompressedData) ∧
      u = State.raiseFatal { s with bitBuf := u.bitBuf, bitCnt := u.bitCnt, cdPos := u.cdPos } u.errKind s.tokIdx t := by
  rcases decodeSymbol_cases t s with ⟨_, e⟩ | ⟨_, _, e⟩ | ⟨_, _, e⟩ <;> rw [e] at h <;> cases h
  · exact ⟨Or.inl rfl, by rw [State.refill_frame]; rfl⟩
  · exact ⟨Or.inr rfl, by rw [State.refill_frame]; rfl⟩

/-- A completed DECODE_SYMBOL from a sound table consumes LEN bits, 1 to 16, all of them inside CD (R155, R156). -/
theorem decodeSymbol_done_bits {t : CodeSpace} {s u : State} {b : Byte} (h : decodeSymbol t s = .done b u)
    (ht : (s.table t).Sound) (hb : s.bitCnt.toNat ≤ 23) :
    ∃ len, 1 ≤ len ∧ len ≤ 16 ∧ u.bitCnt.toNat + len = s.refill.bitCnt.toNat ∧ u.cdPos = s.refill.cdPos ∧ u.bitBuf = s.refill.bitBuf ∧
      8 * u.cdPos ≤ 8 * s.cdLen.toNat + u.bitCnt.toNat := by
  have htab : s.refill.table t = s.table t := by rw [State.refill_frame]; rfl
  have hcd : s.refill.cdLen = s.cdLen := by rw [State.refill_frame]
  have hr := s.refill_bits hb
  rcases decodeSymbol_cases t s with ⟨_, e⟩ | ⟨_, _, e⟩ | ⟨h0, h1, e⟩ <;> rw [e] at h <;> cases h
  rw [htab] at h0 h1 ⊢
  have hl := (ht s.refill.window).resolve_left h0
  refine ⟨entryLength ((s.table t).read s.refill.window), hl.1, hl.2, ?_, rfl, rfl, ?_⟩
  · simp only [State.consume_bitCnt]
    rw [BitVec.toNat_sub]
    simp only [BitVec.toNat_ofNat]
    omega
  · simp only [State.pastEnd, decide_eq_false_iff_not, not_lt, hcd] at h1
    simp only [State.consume_bitCnt, State.consume_cdPos]
    rw [BitVec.toNat_sub]
    simp only [BitVec.toNat_ofNat]
    omega

/-! ## DECODE_TOKEN (R170) -/

/-- A completed DECODE_TOKEN is three completed symbols and one stored token. -/
theorem decodeToken_done {s u : State} (h : decodeToken s = .done () u) :
    ∃ c s1 lo s2 hi s3, decodeSymbol 0 s = .done c s1 ∧ decodeSymbol 1 s1 = .done lo s2 ∧ decodeSymbol 2 s2 = .done hi s3 ∧
      u = s3.storeToken c lo hi := by
  obtain ⟨c, s1, h1, h⟩ := Res.andThen_done h
  obtain ⟨lo, s2, h2, h⟩ := Res.andThen_done h
  obtain ⟨hi, s3, h3, h⟩ := Res.andThen_done h
  cases h
  exact ⟨c, s1, lo, s2, hi, s3, h1, h2, h3, rfl⟩

/-- A faulting DECODE_TOKEN faults in its first, second or third symbol (R175). -/
theorem decodeToken_fatal {s u : State} (h : decodeToken s = .fatal u) :
    decodeSymbol 0 s = .fatal u ∨
    (∃ c s1, decodeSymbol 0 s = .done c s1 ∧ decodeSymbol 1 s1 = .fatal u) ∨
    (∃ c s1 lo s2, decodeSymbol 0 s = .done c s1 ∧ decodeSymbol 1 s1 = .done lo s2 ∧ decodeSymbol 2 s2 = .fatal u) := by
  rcases Res.andThen_fatal h with h | ⟨c, s1, h1, h⟩
  · exact Or.inl h
  · rcases Res.andThen_fatal h with h | ⟨lo, s2, h2, h⟩
    · exact Or.inr (Or.inl ⟨c, s1, h1, h⟩)
    · rcases Res.andThen_fatal h with h | ⟨hi, s3, h3, h⟩
      · exact Or.inr (Or.inr ⟨c, s1, lo, s2, h1, h2, h⟩)
      · cases h

end Sys2Proof.Machine
end

