-- ==== Sys2Proof/Laws/Builder.lean ====
section
/-! SUPPORT. Laws/Builder.lean: what the reads of a table-definition record, the code assignment and BUILD_TABLE can do. -/

namespace Sys2Proof.Machine

/-- HtNext reads the byte at HT_POS and moves on, or is HT_TRUNCATED and moves nothing (R121). -/
theorem htNext_cases (k : CodeSpace) (s : State) :
    (s.htPos.toNat < s.htLen.toNat ∧ htNext k s = .done (s.ht.read s.htPos.toNat) (s.setHtPos (s.htPos + 1#32)) ∧
      (s.htPos + 1#32).toNat = s.htPos.toNat + 1) ∨
    (s.htLen.toNat ≤ s.htPos.toNat ∧ htNext k s = .fatal (s.raiseFatal .htTruncated (spaceIndex k) 0)) := by
  unfold htNext
  by_cases h : s.htPos.toNat < s.htLen.toNat
  · left
    refine ⟨h, by rw [if_pos h], ?_⟩
    have := s.htLen.isLt
    rw [BitVec.toNat_add]; simp; omega
  · right
    exact ⟨by omega, by rw [if_neg h]⟩

/-- n record bytes that are there are read and HT_POS moves past them (R124). -/
theorem htNextMany_done (k : CodeSpace) (n : Nat) : ∀ s : State, s.htPos.toNat + n ≤ s.htLen.toNat →
    ∃ p : Word, p.toNat = s.htPos.toNat + n ∧ htNextMany k n s = .done (s.ht.readBytes s.htPos.toNat n) (s.setHtPos p) := by
  induction n with
  | zero => intro s _; exact ⟨s.htPos, rfl, rfl⟩
  | succ n ih =>
    intro s h
    rcases htNext_cases k s with ⟨h1, e, hp⟩ | ⟨h1, _⟩
    · obtain ⟨p, hp2, e2⟩ := ih (s.setHtPos (s.htPos + 1#32)) (by simp only [State.setHtPos_htPos, State.setHtPos_htLen, hp]; omega)
      simp only [State.setHtPos_htPos, State.setHtPos_ht, State.setHtPos_setHtPos, hp] at hp2 e2
      refine ⟨p, by omega, ?_⟩
      rw [htNextMany, e]
      simp only [Res.andThen]
      rw [e2]
      simp only [Memory.readBytes]
      rw [List.range_succ_eq_map, List.map_cons, List.map_map]
      congr 2
      apply List.map_congr_left
      intro j _
      simp only [Function.comp_apply]
      congr 1
      omega
    · omega

/-- Where a read of record bytes runs out, HT_POS is left at HT_LEN and the error is HT_TRUNCATED (R121). -/
theorem htNextMany_fatal (k : CodeSpace) (n : Nat) : ∀ s : State, s.htPos.toNat ≤ s.htLen.toNat → s.htLen.toNat < s.htPos.toNat + n →
    htNextMany k n s = .fatal ((s.setHtPos s.htLen).raiseFatal .htTruncated (spaceIndex k) 0) := by
  induction n with
  | zero => intro s h1 h2; omega
  | succ n ih =>
    intro s h1 h2
    rcases htNext_cases k s with ⟨h, e, hp⟩ | ⟨h, e⟩
    · rw [htNextMany, e]
      simp only [Res.andThen]
      rw [ih (s.setHtPos (s.htPos + 1#32)) (by simp only [State.setHtPos_htPos, State.setHtPos_htLen, hp]; omega)
        (by simp only [State.setHtPos_htPos, State.setHtPos_htLen, hp]; omega)]
      rfl
    · have : s.htLen = s.htPos := BitVec.eq_of_toNat_eq (by omega)
      rw [htNextMany, e, this]
      rfl

/-- The reads of a record write HT_POS only, never past HT_LEN, or raise HT_TRUNCATED. -/
theorem htNextMany_frame (k : CodeSpace) (n : Nat) (s : State) :
    (∃ bs p, htNextMany k n s = .done bs (s.setHtPos p) ∧ bs.length = n ∧
      (s.htPos.toNat ≤ s.htLen.toNat → p.toNat ≤ s.htLen.toNat)) ∨
    (∃ p, htNextMany k n s = .fatal ((s.setHtPos p).raiseFatal .htTruncated (spaceIndex k) 0)) := by
  induction n generalizing s with
  | zero => exact Or.inl ⟨[], s.htPos, rfl, rfl, id⟩
  | succ n ih =>
    rcases htNext_cases k s with ⟨h, e, hp⟩ | ⟨h, e⟩
    · rcases ih (s.setHtPos (s.htPos + 1#32)) with ⟨bs, p, e2, hl, hle⟩ | ⟨p, e2⟩
      · refine Or.inl ⟨s.ht.read s.htPos.toNat :: bs, p, ?_, by simp [hl], ?_⟩
        · rw [htNextMany, e]; simp only [Res.andThen]; rw [e2]; rfl
        · intro _; exact hle (by simp only [State.setHtPos_htPos, State.setHtPos_htLen, hp]; omega)
      · refine Or.inr ⟨p, ?_⟩
        rw [htNextMany, e]; simp only [Res.andThen]; rw [e2]; rfl
    · exact Or.inr ⟨s.htPos, by rw [htNextMany, e]; rfl⟩

/-- The symbol block is read whole, or nothing of it is (R124). -/
theorem readSymbols_cases (k : CodeSpace) (n : Nat) (s : State) :
    (s.htPos.toNat + n ≤ s.htLen.toNat ∧
      readSymbols k n s = .done (s.ht.readBytes s.htPos.toNat n) (s.setHtPos (Word.store (s.htPos.toNat + n))) ∧
      (Word.store (s.htPos.toNat + n)).toNat = s.htPos.toNat + n) ∨
    (s.htLen.toNat < s.htPos.toNat + n ∧ readSymbols k n s = .fatal (s.raiseFatal .htTruncated (spaceIndex k) 0)) := by
  unfold readSymbols
  by_cases h : s.htPos.toNat + n > s.htLen.toNat
  · exact Or.inr ⟨h, by rw [if_pos h]⟩
  · have := s.htLen.isLt
    refine Or.inl ⟨by omega, by rw [if_neg h], ?_⟩
    simp only [Word.store, BitVec.toNat_ofNat]
    omega

/-- Every length of a record is 1 to 16 (R92). -/
theorem lengthCounts_range (counts : List Byte) (p : Nat × Nat) (h : p ∈ lengthCounts counts) : 1 ≤ p.1 ∧ p.1 ≤ 16 := by
  have := (List.of_mem_zip h).1
  simp only [List.mem_range'] at this
  omega

/-- Assigning the codewords of one length keeps the table sound, whether it completes or not (R126). -/
theorem assignLength_sound (len : Nat) (h1 : 1 ≤ len) (h2 : len ≤ 16) (n : Nat) : ∀ a : Assign, a.table.Sound →
    (∀ b, assignLength len n a = .ok b → b.table.Sound) ∧ (∀ t, assignLength len n a = .error t → t.Sound) := by
  induction n with
  | zero =>
    intro a ha
    refine ⟨?_, ?_⟩
    · intro b hb; cases hb; exact ha
    · intro t ht; cases ht
  | succ n ih =>
    intro a ha
    simp only [assignLength]
    split
    · refine ⟨?_, ?_⟩
      · intro b hb; cases hb
      · intro t ht; cases ht; exact ha
    · refine ih _ ?_
      have hl := entryLength_entryOf len (a.symbols.headD 0#8) h2
      exact Table.fill_sound _ _ _ _ ha (by omega) (by omega)

/-- A whole assignment keeps the table sound. -/
theorem assignLengths_sound (l : List (Nat × Nat)) (hl : ∀ p ∈ l, 1 ≤ p.1 ∧ p.1 ≤ 16) : ∀ a : Assign, a.table.Sound →
    (∀ t, assignLengths l a = .ok t → t.Sound) ∧ (∀ t, assignLengths l a = .error t → t.Sound) := by
  induction l with
  | nil =>
    intro a ha
    refine ⟨?_, ?_⟩
    · intro t ht; cases ht; exact ha
    · intro t ht; cases ht
  | cons p rest ih =>
    obtain ⟨len, n⟩ := p
    intro a ha
    have hp := hl (len, n) (by simp)
    have hs := assignLength_sound len hp.1 hp.2 n a ha
    simp only [assignLengths]
    split
    · rename_i t e
      refine ⟨?_, ?_⟩
      · intro t' ht; cases ht
      · intro t' ht; cases ht; exact hs.2 t e
    · rename_i b e
      exact ih (fun p hp => hl p (by simp [hp])) { b with code := b.code * 2 } (hs.1 b e)

/-- What code assignment leaves is a sound table (R97). -/
theorem assignCodes_sound (counts symbols : List Byte) :
    (∀ t, assignCodes counts symbols = .ok t → t.Sound) ∧ (∀ t, assignCodes counts symbols = .error t → t.Sound) :=
  assignLengths_sound _ (lengthCounts_range counts) _ Table.cleared_sound

/-- The slots two runs of codewords claim one behind the other (R133). -/
theorem slotLayout_append (xs ys : List (Nat × Byte)) : ∀ slot, slotLayout (xs ++ ys) slot =
    if slot < (xs.map fun c => slotCount c.1).sum then slotLayout xs slot
    else slotLayout ys (slot - (xs.map fun c => slotCount c.1).sum) := by
  induction xs with
  | nil => intro slot; simp
  | cons c xs ih =>
    obtain ⟨len, sym⟩ := c
    intro slot
    simp only [List.cons_append, slotLayout, List.map_cons, List.sum_cons]
    by_cases h : slot < slotCount len
    · simp [h, show slot < slotCount len + (xs.map fun c => slotCount c.1).sum by omega]
    · rw [if_neg h, if_neg h, ih]
      by_cases h2 : slot - slotCount len < (xs.map fun c => slotCount c.1).sum
      · rw [if_pos h2, if_pos (by omega)]
      · rw [if_neg h2, if_neg (by omega), Nat.sub_sub]

/-- Slots behind the claimed ones hold the sentinel (R133). -/
theorem slotLayout_beyond (xs : List (Nat × Byte)) : ∀ slot, (xs.map fun c => slotCount c.1).sum ≤ slot → slotLayout xs slot = 0#16 := by
  induction xs with
  | nil => intro slot _; rfl
  | cons c xs ih =>
    obtain ⟨len, sym⟩ := c
    intro slot h
    simp only [List.map_cons, List.sum_cons] at h
    rw [slotLayout, if_neg (by omega)]
    exact ih _ (by omega)

/-- Replacing a table replaces that one only. -/
theorem State.table_setTable (s : State) (k j : CodeSpace) (t : Table) : (s.setTable k t).table j = if j = k then t else s.table j := by
  fin_cases k <;> fin_cases j <;> rfl

/-- The state while a build reads its record. -/
def State.building (s : State) (k : CodeSpace) (t : Table) (p : Word) (w : BitVec 3) : State := ((s.setTable k t).setHtPos p).setWarn w

/-- What BUILD_TABLE(k) can do (R128, R130, R131): complete with a sound T[k] and HT_POS inside HT, or raise HT_TRUNCATED over a cleared
T[k], or raise TABLE_OVERSUBSCRIBED over the entries written so far. It writes T[k], HT_POS and WARN and, on an error, the error. -/
theorem buildTable_cases (k : CodeSpace) (s : State) :
    (∃ t p w, buildTable k s = .done () (s.building k t p w) ∧ t.Sound ∧ p.toNat ≤ s.htLen.toNat) ∨
    (∃ p w, buildTable k s = .fatal ((s.building k Table.cleared p w).raiseFatal .htTruncated (spaceIndex k) 0)) ∨
    (∃ t p w, buildTable k s = .fatal ((s.building k t p w).raiseFatal .tableOversubscribed (spaceIndex k) 0) ∧ t.Sound) := by
  unfold buildTable
  rcases htNext_cases k (s.setTable k Table.cleared) with ⟨_, e1, _⟩ | ⟨_, e1⟩
  swap
  · exact Or.inr (Or.inl ⟨s.htPos, s.warn, by rw [e1]; unfold State.building State.setTable; split <;> rfl⟩)
  rw [e1]
  simp only [Res.andThen, State.checkIdentifier_eq]
  obtain ⟨w, hw⟩ : ∃ w : BitVec 3, (if (s.setTable k Table.cleared).ht.read (s.setTable k Table.cleared).htPos.toNat = identifier k then
      ((s.setTable k Table.cleared).setHtPos ((s.setTable k Table.cleared).htPos + 1#32)).warn else
      ((s.setTable k Table.cleared).setHtPos ((s.setTable k Table.cleared).htPos + 1#32)).warn ||| warnMask k) = w := ⟨_, rfl⟩
  rw [hw]
  rcases htNextMany_frame k 16 (((s.setTable k Table.cleared).setHtPos ((s.setTable k Table.cleared).htPos + 1#32)).setWarn w) with
    ⟨counts, p, e2, _, _⟩ | ⟨p, e2⟩
  swap
  · exact Or.inr (Or.inl ⟨p, w, by rw [e2]; rfl⟩)
  rw [e2]
  simp only [State.setWarn_setHtPos, State.setHtPos_setHtPos]
  rcases readSymbols_cases k (countSum counts) (((s.setTable k Table.cleared).setHtPos p).setWarn w) with ⟨h, e3, hp⟩ | ⟨_, e3⟩
  swap
  · exact Or.inr (Or.inl ⟨p, w, by rw [e3]; rfl⟩)
  rw [e3]
  simp only [State.setWarn_htPos, State.setHtPos_htPos, State.setWarn_htLen, State.setHtPos_htLen, State.setTable_htLen] at h hp ⊢
  simp only [installTable]
  split
  · rename_i t et
    refine Or.inl ⟨t, _, w, ?_, (assignCodes_sound _ _).1 t et, le_of_eq_of_le hp h⟩
    simp [State.building]
  · rename_i t et
    refine Or.inr (Or.inr ⟨t, Word.store (p.toNat + countSum counts), w, ?_, (assignCodes_sound _ _).2 t et⟩)
    simp [State.building]

end Sys2Proof.Machine
end

