-- ==== Sys2Proof/Laws/Memory.lean ====
section
/-! SUPPORT. Laws/Memory.lean: the laws of buffer memory: a read after a write, the canonical form, block moves. -/

namespace Sys2Proof.Machine

theorem Memory.read_cell_append (a b : Nat) (v : Byte) (m : Memory) (h : a ≠ b) :
    Memory.read (Memory.cell a v ++ m) b = m.read b := by
  unfold Memory.cell; split <;> simp [Memory.read, h]

/-- An index below all listed ones reads as unlisted. -/
theorem Memory.read_of_wfFrom (m : Memory) : ∀ (lo a : Nat), Memory.wfFrom lo m = true → a < lo → m.read a = Config.unlistedByte := by
  induction m with
  | nil => intro lo a _ _; rfl
  | cons c rest ih =>
    obtain ⟨k, b⟩ := c
    intro lo a h hlt
    simp only [Memory.wfFrom, Bool.and_eq_true, decide_eq_true_eq] at h
    have hk : k ≠ a := by omega
    simp only [Memory.read, hk, if_false]
    exact ih (k + 1) a h.2 (by omega)

/-- A write leaves every other index alone, in every memory. -/
theorem Memory.read_write_other (m : Memory) (a b : Nat) (v : Byte) (h : a ≠ b) : (m.write a v).read b = m.read b := by
  induction m with
  | nil => simpa [Memory.write] using Memory.read_cell_append a b v [] h
  | cons c rest ih =>
    obtain ⟨k, x⟩ := c
    simp only [Memory.write]
    split
    · exact Memory.read_cell_append a b v _ h
    · split
      · rename_i h1
        have : k ≠ b := by omega
        rw [Memory.read_cell_append a b v _ h]
        simp [Memory.read, this]
      · simp only [Memory.read, ih]

theorem Memory.read_cell_append_same (lo a : Nat) (v : Byte) (m : Memory) (hm : Memory.wfFrom lo m = true) (h : a < lo) :
    Memory.read (Memory.cell a v ++ m) a = v := by
  unfold Memory.cell; split
  · rename_i hv
    simp [Memory.read_of_wfFrom m lo a hm h, hv]
  · simp [Memory.read]

theorem Memory.wfFrom_mono (m : Memory) (lo lo' : Nat) (h : Memory.wfFrom lo m = true) (hle : lo' ≤ lo) : Memory.wfFrom lo' m = true := by
  cases m with
  | nil => rfl
  | cons c rest =>
    obtain ⟨k, b⟩ := c
    simp only [Memory.wfFrom, Bool.and_eq_true, decide_eq_true_eq] at h ⊢
    exact ⟨⟨by omega, h.1.2⟩, h.2⟩

theorem Memory.read_write_same_from (m : Memory) : ∀ (lo a : Nat) (v : Byte), Memory.wfFrom lo m = true → (m.write a v).read a = v := by
  induction m with
  | nil =>
    intro lo a v _
    simpa [Memory.write] using Memory.read_cell_append_same (a + 1) a v [] rfl (by omega)
  | cons c rest ih =>
    obtain ⟨k, b⟩ := c
    intro lo a v h
    simp only [Memory.write]
    have h' := h
    simp only [Memory.wfFrom, Bool.and_eq_true, decide_eq_true_eq] at h'
    split
    · exact Memory.read_cell_append_same k a v _ (by simp [Memory.wfFrom, h'.1.2, h'.2]) (by omega)
    · split
      · rename_i _ h2
        exact Memory.read_cell_append_same (k + 1) a v rest h'.2 (by omega)
      · rename_i h1 h2
        have : k ≠ a := fun e => h2 e.symm
        simp only [Memory.read, this, if_false]
        exact ih (k + 1) a v h'.2

/-- In canonical memory a read after a write to the same index gives the byte written. -/
theorem Memory.read_write_same (m : Memory) (a : Nat) (v : Byte) (h : m.wf = true) : (m.write a v).read a = v :=
  Memory.read_write_same_from m 0 a v h

theorem Memory.wfFrom_cell_append (lo a : Nat) (v : Byte) (m : Memory) (hlo : lo ≤ a) (hm : Memory.wfFrom (a + 1) m = true) :
    Memory.wfFrom lo (Memory.cell a v ++ m) = true := by
  unfold Memory.cell; split
  · exact Memory.wfFrom_mono m (a + 1) lo hm (by omega)
  · rename_i hv
    simp [Memory.wfFrom, hlo, hv, hm]

theorem Memory.write_wfFrom (m : Memory) : ∀ (lo a : Nat) (v : Byte), lo ≤ a → Memory.wfFrom lo m = true →
    Memory.wfFrom lo (m.write a v) = true := by
  induction m with
  | nil =>
    intro lo a v h _
    simpa [Memory.write] using Memory.wfFrom_cell_append lo a v [] h rfl
  | cons c rest ih =>
    obtain ⟨k, b⟩ := c
    intro lo a v hlo h
    simp only [Memory.write]
    have h' := h
    simp only [Memory.wfFrom, Bool.and_eq_true, decide_eq_true_eq] at h'
    split
    · refine Memory.wfFrom_cell_append lo a v _ hlo ?_
      simp only [Memory.wfFrom, Bool.and_eq_true, decide_eq_true_eq]
      exact ⟨⟨by omega, h'.1.2⟩, h'.2⟩
    · split
      · rename_i _ h2
        exact Memory.wfFrom_cell_append lo a v rest hlo (h2 ▸ h'.2)
      · rename_i h1 h2
        simp only [Memory.wfFrom, Bool.and_eq_true, decide_eq_true_eq]
        exact ⟨h'.1, ih (k + 1) a v (by omega) h'.2⟩

/-- Every write keeps the canonical form. -/
theorem Memory.write_wf (m : Memory) (a : Nat) (v : Byte) (h : m.wf = true) : (m.write a v).wf = true :=
  Memory.write_wfFrom m 0 a v (Nat.zero_le a) h

/-- Writing a block keeps the canonical form. -/
theorem Memory.writeBytes_wf (bs : List Byte) : ∀ (m : Memory) (a : Nat), m.wf = true → (m.writeBytes a bs).wf = true := by
  induction bs with
  | nil => intro m a h; exact h
  | cons b bs ih => intro m a h; exact ih _ _ (Memory.write_wf m a b h)

/-- Writing a block leaves the indices outside it alone. -/
theorem Memory.read_writeBytes_other (bs : List Byte) : ∀ (m : Memory) (a i : Nat), i < a ∨ a + bs.length ≤ i →
    (m.writeBytes a bs).read i = m.read i := by
  induction bs with
  | nil => intro m a i _; rfl
  | cons b bs ih =>
    intro m a i h
    simp only [List.length_cons] at h
    rw [Memory.writeBytes, ih _ _ _ (by omega), Memory.read_write_other _ _ _ _ (by omega)]

/-- Writing a block makes its indices read as its bytes. -/
theorem Memory.read_writeBytes_inside (bs : List Byte) : ∀ (m : Memory) (a j : Nat) (h : j < bs.length), m.wf = true →
    (m.writeBytes a bs).read (a + j) = bs[j] := by
  induction bs with
  | nil => intro m a j h; simp at h
  | cons b bs ih =>
    intro m a j h hm
    cases j with
    | zero =>
      rw [Memory.writeBytes, Memory.read_writeBytes_other _ _ _ _ (by omega)]
      exact Memory.read_write_same m a b hm
    | succ j =>
      have h' : j < bs.length := by simpa using h
      have := ih (m.write a b) (a + 1) j h' (Memory.write_wf m a b hm)
      rw [Memory.writeBytes, show a + (j + 1) = a + 1 + j by omega, this]
      rfl

/-- A literal move keeps the canonical form. -/
theorem Memory.copyFrom_wf (src : Memory) (n : Nat) : ∀ (i : Nat) (dst : Memory) (j : Nat), dst.wf = true →
    (Memory.copyFrom src i dst j n).wf = true := by
  induction n with
  | zero => intro i dst j h; exact h
  | succ n ih => intro i dst j h; exact ih _ _ _ (Memory.write_wf _ _ _ h)

/-- A literal move leaves the indices outside its range alone. -/
theorem Memory.read_copyFrom_other (src : Memory) (n : Nat) : ∀ (i : Nat) (dst : Memory) (j a : Nat), a < j ∨ j + n ≤ a →
    (Memory.copyFrom src i dst j n).read a = dst.read a := by
  induction n with
  | zero => intro i dst j a _; rfl
  | succ n ih =>
    intro i dst j a h
    rw [Memory.copyFrom, ih _ _ _ _ (by omega), Memory.read_write_other _ _ _ _ (by omega)]

/-- A literal move makes its range read as the source (R195). -/
theorem Memory.read_copyFrom_inside (src : Memory) (n : Nat) : ∀ (i : Nat) (dst : Memory) (j m : Nat), m < n → dst.wf = true →
    (Memory.copyFrom src i dst j n).read (j + m) = src.read (i + m) := by
  induction n with
  | zero => intro i dst j m h; omega
  | succ n ih =>
    intro i dst j m h hd
    rw [Memory.copyFrom]
    cases m with
    | zero =>
      rw [Memory.read_copyFrom_other _ _ _ _ _ _ (by omega)]
      exact Memory.read_write_same dst j _ hd
    | succ m =>
      have := ih (i + 1) (dst.write j (src.read i)) (j + 1) m (by omega) (Memory.write_wf _ _ _ hd)
      rw [show j + (m + 1) = j + 1 + m by omega, this, show i + 1 + m = i + (m + 1) by omega]

/-- The memories of the reset state are in the canonical form. -/
theorem reset_memories_wf : State.reset.ht.wf = true ∧ State.reset.cd.wf = true ∧ State.reset.lit.wf = true ∧
    State.reset.out.wf = true ∧ State.reset.outBefore.wf = true := by decide

/-- A host fill keeps every canonical form. -/
theorem State.fillByte_wf (s : State) (p : Port) (i : Nat) (v : Byte)
    (h : s.ht.wf = true ∧ s.cd.wf = true ∧ s.lit.wf = true ∧ s.out.wf = true) :
    (s.fillByte p i v).ht.wf = true ∧ (s.fillByte p i v).cd.wf = true ∧ (s.fillByte p i v).lit.wf = true ∧
      (s.fillByte p i v).out.wf = true := by
  obtain ⟨h1, h2, h3, h4⟩ := h
  cases p <;> simp only [State.fillByte] <;> refine ⟨?_, ?_, ?_, ?_⟩ <;>
    first | assumption | exact Memory.write_wf _ _ _ ‹_›

end Sys2Proof.Machine
end

