-- ==== Sys2Proof/Laws/Expander.lean ====
section
/-! SUPPORT. Laws/Expander.lean: what LIT, COPY and EXPAND_TOKEN can do. -/

namespace Sys2Proof.Machine

/-- The output after a token wrote m bytes of OUT. -/
def State.setOut (s : State) (m : Memory) (len : Word) : State := { s with out := m, outLen := len }

/-- A back-reference copy writes OUT and OUT_LEN only, keeps OUT's canonical form and leaves OUT below and above its range alone. -/
theorem copyBytes_frame (d n : Nat) : ∀ s : State, s.outLen.toNat + n < 2 ^ 32 →
    ∃ m len, copyBytes d n s = s.setOut m len ∧ len.toNat = s.outLen.toNat + n ∧ (s.out.wf = true → m.wf = true) ∧
      ∀ a, a < s.outLen.toNat ∨ s.outLen.toNat + n ≤ a → m.read a = s.out.read a := by
  induction n with
  | zero => intro s _; exact ⟨s.out, s.outLen, rfl, rfl, id, fun _ _ => rfl⟩
  | succ n ih =>
    intro s h
    have h1 : (s.copyByte d).outLen.toNat = s.outLen.toNat + 1 := by
      rw [State.copyByte_outLen, BitVec.toNat_add]; simp; omega
    obtain ⟨m, len, e, hl, hw, hr⟩ := ih (s.copyByte d) (by omega)
    refine ⟨m, len, ?_, by omega, ?_, ?_⟩
    · rw [copyBytes, e]; rfl
    · intro hs; exact hw (by rw [State.copyByte_out]; exact Memory.write_wf _ _ _ hs)
    · intro a ha
      rw [hr a (by omega), State.copyByte_out, Memory.read_write_other _ _ _ _ (by omega)]

/-- The three ways a LIT ends (R192 to R194, R200). -/
theorem tokenLit_cases (c : Byte) (s : State) :
    (s.litPos.toNat + litLength c > s.litLen.toNat ∧ tokenLit c s = .fatal (s.raiseFatal .outOfLiteralData s.tokIdx 0)) ∨
    (s.litPos.toNat + litLength c ≤ s.litLen.toNat ∧ s.outLen.toNat + litLength c > s.outCap.toNat ∧
      tokenLit c s = .fatal (s.raiseFatal .outputOverflow s.tokIdx 0)) ∨
    (s.litPos.toNat + litLength c ≤ s.litLen.toNat ∧ s.outLen.toNat + litLength c ≤ s.outCap.toNat ∧
      tokenLit c s = .done () (s.copyLiterals (litLength c))) := by
  unfold tokenLit
  by_cases h1 : s.litPos.toNat + litLength c > s.litLen.toNat
  · exact Or.inl ⟨h1, by simp only [h1, if_true]⟩
  · by_cases h2 : s.outLen.toNat + litLength c > s.outCap.toNat
    · exact Or.inr (Or.inl ⟨by omega, h2, by simp only [h1, h2, if_true, if_false]⟩)
    · exact Or.inr (Or.inr ⟨by omega, by omega, by simp only [h1, h2, if_false]⟩)

/-- The three ways a COPY ends (R194, R196, R197, R200). -/
theorem tokenCopy_cases (o : Half) (c : Byte) (s : State) :
    (copyDistance o > s.outLen.toNat ∧ tokenCopy o c s = .fatal (s.raiseFatal .invalidReference s.tokIdx 0)) ∨
    (copyDistance o ≤ s.outLen.toNat ∧ s.outLen.toNat + copyLength c > s.outCap.toNat ∧
      tokenCopy o c s = .fatal (s.raiseFatal .outputOverflow s.tokIdx 0)) ∨
    (copyDistance o ≤ s.outLen.toNat ∧ s.outLen.toNat + copyLength c ≤ s.outCap.toNat ∧
      tokenCopy o c s = .done () (copyBytes (copyDistance o) (copyLength c) s)) := by
  unfold tokenCopy
  by_cases h1 : copyDistance o > s.outLen.toNat
  · exact Or.inl ⟨h1, by simp only [h1, if_true]⟩
  · by_cases h2 : s.outLen.toNat + copyLength c > s.outCap.toNat
    · exact Or.inr (Or.inl ⟨by omega, h2, by simp only [h1, h2, if_true, if_false]⟩)
    · exact Or.inr (Or.inr ⟨by omega, by omega, by simp only [h1, h2, if_false]⟩)

/-- EXPAND_TOKEN is the operation of the token's kind (R190). -/
theorem expandToken_cases (s : State) :
    expandToken s = tokenNop s ∨ (∃ c, expandToken s = tokenLit c s) ∨ (∃ o c, expandToken s = tokenCopy o c s) := by
  unfold expandToken
  dsimp only
  split
  · exact Or.inl rfl
  · split
    · exact Or.inr (Or.inl ⟨_, rfl⟩)
    · exact Or.inr (Or.inr ⟨_, _, rfl⟩)

/-- What EXPAND_TOKEN can do (R191 to R202): complete, writing OUT between the old and the new OUT_LEN, OUT_LEN and LIT_POS within OUT_CAP
and LIT_LEN, or raise an error and write nothing else. -/
theorem expandToken_effect (s : State) :
    (∃ m len pos, expandToken s = .done () { s.setOut m len with litPos := pos } ∧ (s.out.wf = true → m.wf = true) ∧
      (s.outLen.toNat ≤ s.outCap.toNat → len.toNat ≤ s.outCap.toNat) ∧ (s.litPos.toNat ≤ s.litLen.toNat → pos.toNat ≤ s.litLen.toNat) ∧
      s.outLen.toNat ≤ len.toNat ∧ ∀ a, a < s.outLen.toNat ∨ len.toNat ≤ a → m.read a = s.out.read a) ∨
    (∃ kind, (kind = .outOfLiteralData ∨ kind = .outputOverflow ∨ kind = .invalidReference) ∧
      expandToken s = .fatal (s.raiseFatal kind s.tokIdx 0)) := by
  have hcap := s.outCap.isLt
  have hlit := s.litLen.isLt
  rcases expandToken_cases s with e | ⟨c, e⟩ | ⟨o, c, e⟩
  · exact Or.inl ⟨s.out, s.outLen, s.litPos, e, id, id, id, le_refl _, fun _ _ => rfl⟩
  · rcases tokenLit_cases c s with ⟨_, e2⟩ | ⟨_, _, e2⟩ | ⟨h1, h2, e2⟩ <;> rw [e2] at e
    · exact Or.inr ⟨_, Or.inl rfl, e⟩
    · exact Or.inr ⟨_, Or.inr (Or.inl rfl), e⟩
    · refine Or.inl ⟨(s.copyLiterals (litLength c)).out, (s.copyLiterals (litLength c)).outLen, (s.copyLiterals (litLength c)).litPos, e,
        fun h => Memory.copyFrom_wf _ _ _ _ _ h, ?_, ?_, ?_, fun a ha => Memory.read_copyFrom_other _ _ _ _ _ _ ?_⟩ <;>
        simp only [State.copyLiterals_outLen, State.copyLiterals_litPos, Word.store, BitVec.toNat_ofNat] at * <;> intros <;> omega
  · rcases tokenCopy_cases o c s with ⟨_, e2⟩ | ⟨_, _, e2⟩ | ⟨h1, h2, e2⟩ <;> rw [e2] at e
    · exact Or.inr ⟨_, Or.inr (Or.inr rfl), e⟩
    · exact Or.inr ⟨_, Or.inr (Or.inl rfl), e⟩
    · obtain ⟨m, len, e3, hl, hw, hr⟩ := copyBytes_frame (copyDistance o) (copyLength c) s (by omega)
      rw [e3] at e
      exact Or.inl ⟨m, len, s.litPos, e, hw, by omega, id, by omega, fun a ha => hr a (by omega)⟩

end Sys2Proof.Machine
end

