-- ==== Sys2Proof/Laws/Host.lean ====
section
/-! SUPPORT. Laws/Host.lean: what the host's register accesses and the front end's chunks can do. -/

namespace Sys2Proof.Machine

/-! ## The register port -/

/-- A mapped offset stands in the register map (R41). -/
theorem regAt_mem {offset : Word} {r : Reg} (h : regAt offset = some r) : (offset, r) ∈ regMap := by
  unfold regAt at h
  obtain ⟨p, hp, rfl⟩ := Option.map_eq_some_iff.mp h
  have h1 := List.mem_of_find?_eq_some hp
  have h2 : p.1 = offset := by simpa using List.find?_some hp
  rw [← h2]
  exact h1

/-- Every mapped offset is a multiple of 4 up to 0x48 (R41, R64). -/
theorem regAt_range {offset : Word} {r : Reg} (h : regAt offset = some r) : offset.toNat ≤ 0x48 ∧ offset.toNat % 4 = 0 := by
  have hall : ∀ p ∈ regMap, p.1.toNat ≤ 0x48 ∧ p.1.toNat % 4 = 0 := by decide
  exact hall _ (regAt_mem h)

/-- A START command starts a run or does nothing (R222, R223). -/
theorem State.startCommand_cases (s : State) : (s.busy = true ∧ s.startCommand = s) ∨ (s.busy = false ∧ s.startCommand = s.beginRun) := by
  unfold State.startCommand
  cases h : s.busy
  · exact Or.inr ⟨rfl, by simp⟩
  · exact Or.inl ⟨rfl, by simp⟩

/-- What a host write can do: nothing; nothing while busy; while idle, one of the five RW registers, or a START (R222 to R225). -/
theorem State.writeWord_cases (s : State) (offset data : Word) :
    s.writeWord offset data = s ∨
    (s.busy = false ∧
      (s.writeWord offset data = { s with htLen := data } ∨ s.writeWord offset data = { s with cdLen := data } ∨
        s.writeWord offset data = { s with tokCount := data } ∨ s.writeWord offset data = { s with litLen := data } ∨
        s.writeWord offset data = { s with outCap := data } ∨ s.writeWord offset data = s.beginRun)) := by
  cases hb : s.busy
  · cases hr : regAt offset with
    | none => exact Or.inl (by simp [State.writeWord, hb, hr])
    | some r =>
      have e : s.writeWord offset data = s.writeReg r data := by simp [State.writeWord, hb, hr]
      rw [e]
      cases r <;> first
        | exact Or.inl rfl
        | exact Or.inr ⟨rfl, Or.inl rfl⟩
        | exact Or.inr ⟨rfl, Or.inr (Or.inl rfl)⟩
        | exact Or.inr ⟨rfl, Or.inr (Or.inr (Or.inl rfl))⟩
        | exact Or.inr ⟨rfl, Or.inr (Or.inr (Or.inr (Or.inl rfl)))⟩
        | exact Or.inr ⟨rfl, Or.inr (Or.inr (Or.inr (Or.inr (Or.inl rfl))))⟩
        | skip
      have e2 : s.writeReg .ctrl data = if data.getLsbD 0 then s.startCommand else s := rfl
      rw [e2]
      by_cases hd : data.getLsbD 0 = true
      · rw [if_pos hd]
        rcases s.startCommand_cases with ⟨h, _⟩ | ⟨_, h⟩
        · rw [hb] at h; cases h
        · exact Or.inr ⟨rfl, Or.inr (Or.inr (Or.inr (Or.inr (Or.inr h))))⟩
      · rw [if_neg hd]; exact Or.inl rfl
  · refine Or.inl ?_
    unfold State.writeWord; rw [if_pos hb]

/-- A host read of a register writes what the host got and, for STATUS, the point of synchronisation (R221, R78). -/
theorem State.hostReadReg_frame (s : State) (offset : Word) :
    s.hostReadReg offset = { s with hostData := s.readWord offset, outSynced := (s.hostReadReg offset).outSynced } := by
  unfold State.hostReadReg
  dsimp only
  split <;> rfl

/-- A host read of OUT writes what the host got and the counter of free values (R77). -/
theorem State.hostReadOut_frame (s : State) (i : Nat) :
    s.hostReadOut i = { s with hostByte := (s.hostReadOut i).hostByte, free := (s.hostReadOut i).free } := by
  unfold State.hostReadOut
  split <;> rfl

/-- A host read of a buffer writes what the host got and, for OUT, the counter of free values (R71, R77). -/
theorem State.hostReadByte_frame (s : State) (p : Port) (i : Nat) :
    s.hostReadByte p i = { s with hostByte := (s.hostReadByte p i).hostByte, free := (s.hostReadByte p i).free } := by
  cases p
  case out => exact s.hostReadOut_frame i
  all_goals rfl

/-! ## The front end -/

/-- A front-end operation writes the front end and the counter of free values only. -/
def Res.HostSide {α : Type} (s : State) (r : Res α) : Prop :=
  match r with
  | .done _ t => s.SameBlock t
  | .fatal t => s.SameBlock t

theorem State.SameBlock.trans {s t u : State} (h1 : s.SameBlock t) (h2 : t.SameBlock u) : s.SameBlock u := by
  unfold State.SameBlock at *
  rw [h2, h1]

theorem Res.HostSide.andThen {α β : Type} {s : State} {r : Res α} {f : α → State → Res β} (h : r.HostSide s)
    (hf : ∀ a t, s.SameBlock t → (f a t).HostSide s) : (r.andThen f).HostSide s := by
  cases r with
  | done a t => exact hf a t h
  | fatal t => exact h

/-- The bytes asked for, with the position moved on, or FE_TRUNCATED_INPUT (R251, R252). -/
theorem feTake_cases (n : Nat) (s : State) :
    (s.fe.pos + n ≤ s.fe.stream.length ∧
      feTake n s = .done ((s.fe.stream.drop s.fe.pos).take n) { s with fe := { s.fe with pos := s.fe.pos + n } }) ∨
    (s.fe.stream.length < s.fe.pos + n ∧ feTake n s = .fatal (s.feFail .truncatedInput)) := by
  unfold feTake
  by_cases h : s.fe.pos + n ≤ s.fe.stream.length
  · exact Or.inl ⟨h, by rw [if_pos h]⟩
  · exact Or.inr ⟨by omega, by rw [if_neg h]⟩

/-- A byte below a bit vector, as numbers. -/
theorem append_byte_toNat {m : Nat} (a : BitVec m) (b : Byte) : (a ++ b).toNat = a.toNat * 256 + b.toNat := by
  rw [BitVec.toNat_append, Nat.shiftLeft_eq, Nat.mul_comm, ← Nat.two_pow_add_eq_or_of_lt b.isLt]

/-- A 16-bit field is big-endian (R251). -/
theorem beHalf_pair (a b : Byte) : beHalf [a, b] = a ++ b := by
  apply BitVec.eq_of_toNat_eq
  rw [append_byte_toNat]
  simp only [beHalf, bigEndian, List.foldl, BitVec.toNat_ofNat]
  have := a.isLt
  have := b.isLt
  omega

/-- A 32-bit field is big-endian (R251). -/
theorem beWord_four (a b c d : Byte) : beWord [a, b, c, d] = a ++ b ++ c ++ d := by
  apply BitVec.eq_of_toNat_eq
  rw [append_byte_toNat, append_byte_toNat, append_byte_toNat]
  simp only [beWord, bigEndian, List.foldl, BitVec.toNat_ofNat]
  have := a.isLt
  have := b.isLt
  have := c.isLt
  have := d.isLt
  omega

/-- A 16-bit field equals two bytes when its bytes do. -/
theorem beHalf_eq_iff (a b x y : Byte) : beHalf [a, b] = (x ++ y : BitVec (8 + 8)) ↔ a = x ∧ b = y := by
  rw [beHalf_pair]
  constructor
  · intro h
    have h1 := congrArg (BitVec.extractLsb' 8 8) h
    have h2 := congrArg (BitVec.extractLsb' 0 8) h
    rw [extract_high_append, extract_high_append] at h1
    rw [extract_low_append, extract_low_append] at h2
    exact ⟨h1, h2⟩
  · rintro ⟨rfl, rfl⟩; rfl

/-- A read of bytes that stand at the position returns them and moves on. -/
theorem feTake_of_drop (s : State) (xs rest : List Byte) (hp : s.fe.pos ≤ s.fe.stream.length) (h : s.fe.stream.drop s.fe.pos = xs ++ rest) :
    feTake xs.length s = .done xs { s with fe := { s.fe with pos := s.fe.pos + xs.length } } ∧
      s.fe.pos + xs.length ≤ s.fe.stream.length ∧ s.fe.stream.drop (s.fe.pos + xs.length) = rest := by
  have hl := congrArg List.length h
  simp only [List.length_drop, List.length_append] at hl
  unfold feTake
  refine ⟨?_, by omega, ?_⟩
  · rw [if_pos (by omega), h]; simp
  · rw [← List.drop_drop, h]; simp

/-- A field with an expected value is read whatever it holds; another value only warns (R259, R260). -/
theorem feExpect_of_drop (s : State) (b0 b1 x y : Byte) (rest : List Byte) (v : Half) (w : FeWarning)
    (hv : v = (x ++ y : BitVec (8 + 8))) (hp : s.fe.pos ≤ s.fe.stream.length) (h : s.fe.stream.drop s.fe.pos = b0 :: b1 :: rest) :
    feExpect v w s = .done (beHalf [b0, b1])
        { s with fe := { s.fe with
          pos := s.fe.pos + 2, warnings := s.fe.warnings ++ (if b0 = x ∧ b1 = y then [] else [w]) } } ∧
      s.fe.pos + 2 ≤ s.fe.stream.length ∧ s.fe.stream.drop (s.fe.pos + 2) = rest := by
  obtain ⟨e, h1, h2⟩ := feTake_of_drop s [b0, b1] rest hp h
  refine ⟨?_, h1, h2⟩
  unfold feExpect
  have e : feTake 2 s = _ := e
  rw [e]
  simp only [Res.andThen, hv, beHalf_eq_iff]
  split
  · simp
  · rfl

theorem feTake_hostSide (n : Nat) (s t : State) (h : s.SameBlock t) : (feTake n t).HostSide s := by
  rcases feTake_cases n t with ⟨_, e⟩ | ⟨_, e⟩ <;> rw [e] <;> exact h.trans rfl

theorem feExpect_hostSide (v : Half) (w : FeWarning) (s t : State) (h : s.SameBlock t) : (feExpect v w t).HostSide s := by
  refine (feTake_hostSide 2 s t h).andThen fun bs u hu => ?_
  simp only [Res.HostSide]
  split
  · exact hu
  · exact hu.trans rfl

/-- No chunk changes the block (R6). -/
theorem feMagic_hostSide (s : State) : (feMagic s).HostSide s := by
  refine (feTake_hostSide 4 s s rfl).andThen fun bs t ht => ?_
  split
  · exact ht.trans rfl
  · exact ht.trans rfl

theorem feSoi_hostSide (s : State) : (feSoi s).HostSide s :=
  Res.HostSide.andThen (feExpect_hostSide _ _ s { s with fe := { s.fe with warnings := [] } } rfl) fun _ _ ht => ht.trans rfl

theorem feDht_hostSide (s : State) : (feDht s).HostSide s := by
  refine (feExpect_hostSide _ _ s s rfl).andThen fun _ t ht => ?_
  refine (feTake_hostSide 2 s t ht).andThen fun _ u hu => ?_
  dsimp only
  split
  · exact hu.trans rfl
  · exact (feTake_hostSide _ s u hu).andThen fun _ _ hv => hv.trans rfl

theorem feB1_hostSide (s : State) : (feB1 s).HostSide s := by
  refine (feExpect_hostSide _ _ s s rfl).andThen fun _ t1 h1 => ?_
  refine (feExpect_hostSide _ _ s t1 h1).andThen fun _ t2 h2 => ?_
  refine (feTake_hostSide _ s t2 h2).andThen fun _ t3 h3 => ?_
  refine (feTake_hostSide _ s t3 h3).andThen fun _ t4 h4 => ?_
  refine (feTake_hostSide _ s t4 h4).andThen fun _ t5 h5 => ?_
  exact (feTake_hostSide _ s t5 h5).andThen fun _ _ h6 => h6.trans rfl

theorem feB2_hostSide (s : State) : (feB2 s).HostSide s := by
  refine (feExpect_hostSide _ _ s s rfl).andThen fun _ t1 h1 => ?_
  refine (feExpect_hostSide _ _ s t1 h1).andThen fun _ t2 h2 => ?_
  refine (feTake_hostSide _ s t2 h2).andThen fun _ t3 h3 => ?_
  exact (feTake_hostSide _ s t3 h3).andThen fun _ _ h4 => h4.trans rfl

/-- A step that ends a front-end operation keeps the block as it is. -/
theorem Res.HostSide.finish {α : Type} {s t : State} {r : Res α} (h : r.HostSide s) (e : r.finish id = .next t) : s.SameBlock t := by
  rcases Res.finish_cases e with ⟨a, u, hr, ht⟩ | hr
  · rw [hr] at h; rw [ht]; exact h
  · rw [hr] at h; exact h

end Sys2Proof.Machine
end

