-- ==== Sys2Proof/Laws/PerInstr.lean ====
section
/-! SUPPORT. Laws/PerInstr.lean: the family `RoundTrip`, one lemma per constructor: an instruction is selected by its own encoding. -/

namespace Sys2Proof.Laws.RoundTrip

/-- A well-formed instruction is decoded from its encoding. -/
def Statement (i : Instr) : Prop := i.WellFormed → decode (encode i) = .ok i

theorem nop : Statement .nop := fun _ => rfl

theorem lit (control : Byte) : Statement (.lit control) := by
  intro h
  have hc : control ≠ 0xFF#8 := by simpa [Instr.WellFormed, Instr.wellFormed] using h
  show Except.ok (decodeTokenFields 0#16 control) = _
  simp [decodeTokenFields, hc]

theorem copy (offset : Half) (control : Byte) : Statement (.copy offset control) := by
  intro h
  have ho : offset ≠ 0#16 := by simpa [Instr.WellFormed, Instr.wellFormed] using h
  have e : (offset.extractLsb' 8 8 ++ offset.extractLsb' 0 8 : BitVec (8 + 8)) = offset :=
    (BitVec.extractLsb'_append_extractLsb'_eq_extractLsb' (show 8 = 0 + 8 from rfl)).trans BitVec.extractLsb'_eq_self
  show Except.ok (decodeTokenFields (offset.extractLsb' 8 8 ++ offset.extractLsb' 0 8 : BitVec (8 + 8)) control) = _
  rw [e]
  simp [decodeTokenFields, ho]

theorem buildTable : Statement .buildTable := fun _ => rfl

theorem buildToDecode : Statement .buildToDecode := fun _ => rfl

theorem decodeToken : Statement .decodeToken := fun _ => rfl

theorem decodeSymbol (t : CodeSpace) : Statement (.decodeSymbol t) := fun _ => rfl

theorem decodeToExpand : Statement .decodeToExpand := fun _ => rfl

theorem expandToken : Statement .expandToken := fun _ => rfl

theorem complete : Statement .complete := fun _ => rfl

theorem start : Statement .start := fun _ => rfl

theorem regWrite (offset data : Word) : Statement (.regWrite offset data) := by
  intro h
  have hs : isStartWrite offset data = false := by simpa [Instr.WellFormed, Instr.wellFormed] using h
  show Except.ok (decodeHostWrite offset data) = _
  simp [decodeHostWrite, hs]

theorem regRead (offset : Word) : Statement (.regRead offset) := fun _ => rfl

theorem magic : Statement .magic := fun _ => by decide

theorem soi : Statement .soi := fun _ => by decide

theorem dht : Statement .dht := fun _ => by decide

theorem b1 : Statement .b1 := fun _ => by decide

theorem b2 : Statement .b2 := fun _ => by decide

end Sys2Proof.Laws.RoundTrip
end

