-- ==== Sys2Proof/Laws/Step.lean ====
section
/-! SUPPORT. Laws/Step.lean: every instruction answers a next state, and what a step runs. -/

namespace Sys2Proof.Machine

/-- No instruction stops the machine: errors are next states (R284), accesses without effect are ignored (R294). -/
theorem exec_next (i : Instr) (s : State) : ∃ t, exec i s = .next t := by
  cases i <;> first
    | exact Res.finish_next _ _
    | exact ⟨_, rfl⟩

/-- What a block step runs, from the state it starts in (R227, R228). -/
theorem fetchBlock_cases (s : State) :
    (s.busy = false ∧ fetchBlock s = .moved s) ∨
    (s.phase = .build ∧ fetchBlock s = .run .buildTable s) ∨
    (s.phase = .decode ∧ s.tokIdx.toNat < s.tokCount.toNat ∧ fetchBlock s = .run .decodeToken s) ∨
    (s.phase = .decode ∧ s.tokIdx.toNat = s.tokCount.toNat ∧ fetchBlock s = .run .decodeToExpand s) ∨
    (s.phase = .expand ∧ s.tokIdx.toNat < s.tokCount.toNat ∧ fetchBlock s = .run .expandToken s) ∨
    (s.phase = .expand ∧ s.tokIdx.toNat = s.tokCount.toNat ∧ fetchBlock s = .run .complete s) ∨
    ((s.phase = .decode ∨ s.phase = .expand) ∧ s.tokCount.toNat < s.tokIdx.toNat ∧ fetchBlock s = .stuck .noSequencerRule) := by
  rcases lt_trichotomy s.tokIdx.toNat s.tokCount.toNat with h | h | h <;>
    cases hp : s.phase <;>
    simp [fetchBlock, State.busy, Phase.busy, decode, decodeSelection, State.selection, Phase.code, hp, h, compare_lt_iff_lt.mpr,
      compare_gt_iff_gt.mpr, Nat.lt_asymm, Nat.ne_of_gt, Nat.ne_of_lt]

/-- A step runs what was fetched. -/
theorem step_run {s t : State} {i : Instr} (h : fetch s = .run i t) : step s = exec i t := by
  unfold step; rw [h]

/-- A step answers the state a move leads to. -/
theorem step_moved {s t : State} (h : fetch s = .moved t) : step s = .next t := by
  unfold step; rw [h]

/-- The two ways a step answers a next state. -/
theorem step_next_cases {s u : State} (h : step s = .next u) : (∃ i t, fetch s = .run i t ∧ exec i t = .next u) ∨ fetch s = .moved u := by
  unfold step at h
  split at h
  · rename_i i t e; exact Or.inl ⟨i, t, e, h⟩
  · rename_i t e; cases h; exact Or.inr e
  · cases h
  · cases h

end Sys2Proof.Machine
end

