-- ==== Sys2Proof/Tests/Slice0.lean ====
section
/-! SUPPORT. Tests/Slice0.lean: small tests. Expected values come from the spec: the opcode table's encodings, the worked examples and the
vectors of spec/95_test_vectors.md (named in each comment). The `test_witness_…` theorems show inputs that meet the hypotheses of the
statements in Certificates/Slice0/Obligations.lean. -/

namespace Sys2Proof.Tests

open Sys2Proof Sys2Proof.Machine

/-! ## Small states -/

/-- A check of the state an outcome answers. -/
def next (o : Outcome) (p : State → Bool) : Bool :=
  match o with
  | .next s => p s
  | .fault _ => false
  | .refused _ => false

/-- The bytes as a buffer from index 0. -/
def buf (bs : List Byte) : Memory := Memory.writeBytes [] 0 bs

/-- A build of code space k about to start at HT_POS = 0 (section 2.1). -/
def building (k : CodeSpace) (bs : List Byte) : State :=
  { State.reset with phase := .build, buildIdx := k, ht := buf bs, htLen := Word.store bs.length, outSynced := false }

/-- A table of one codeword: value 0, length L. -/
def oneCode (len : Nat) (sym : Byte) : Table := Table.cleared.fill (firstSlot 0 len) (slotCount len) (entryOf len sym)

/-- A run in its DECODE phase with one table for all code spaces (section 2.2). -/
def decoding (t0 t1 t2 : Table) (cd : List Byte) (n : Word) : State :=
  { State.reset with
    phase := .decode, buildIdx := 2, tokCount := n, t0 := t0, t1 := t1, t2 := t2
    cd := buf cd, cdLen := Word.store cd.length, outSynced := false }

/-- A run in its EXPAND phase before its only token (section 2.4). -/
def expanding (out lit : List Byte) (litPos outCap : Word) (tk : Token) : State :=
  { State.reset with
    phase := .expand, buildIdx := 2, tokCount := 1#32, tok := ⟨[(0, tk)], 3⟩, out := buf out, outLen := Word.store out.length
    lit := buf lit, litLen := Word.store lit.length, litPos := litPos, outCap := outCap, outSynced := false }

/-- The front end before a chunk, with the stream's bytes. -/
def parsing (p : FePhase) (bs : List Byte) : State := { State.reset with fe := { FrontEnd.initial with phase := p, stream := bs } }

/-- A state with the host's next moves. -/
def withAgenda (s : State) (a : List HostMove) : State := { s with agenda := a }

/-! ## WellFormed refuses -/

theorem test_wf_refuses_lit_ff : ¬ (Instr.lit 0xFF#8).WellFormed := by decide
theorem test_wf_refuses_copy_zero : ¬ (Instr.copy 0#16 5#8).WellFormed := by decide
theorem test_wf_refuses_start_write : ¬ (Instr.regWrite 0x00#32 0xFFFFFFFF#32).WellFormed := by decide

/-! ## Decoding: words from the opcode table's encoding column -/

/-- NOP 0000000000000000 11111111. -/
theorem test_decode_nop : decodeTableWord 24 0b000000000000000011111111 = some .nop := by decide
/-- LIT 0000000000000000 cccccccc with c = 00000001 (E3's `LIT 2`). -/
theorem test_decode_lit : decodeTableWord 24 0b000000000000000000000001 = some (.lit 1#8) := by decide
/-- COPY oooooooooooooooo cccccccc with o = 1, c = 5 (E4's `COPY 7, 1`). -/
theorem test_decode_copy : decodeTableWord 24 0b000000000000000100000101 = some (.copy 1#16 5#8) := by decide
theorem test_decode_magic : decodeTableWord 32 0b01000011010100100100111101001101 = some .magic := by decide
theorem test_decode_soi : decodeTableWord 16 0b1111111111011000 = some .soi := by decide
theorem test_decode_dht : decodeTableWord 16 0b1111111111000100 = some .dht := by decide
theorem test_decode_b1 : decodeTableWord 16 0b1111111110110001 = some .b1 := by decide
theorem test_decode_b2 : decodeTableWord 16 0b1111111110110010 = some .b2 := by decide
/-- The sequencer rows' STATE values 1, 2, 3. -/
theorem test_decode_sequencer :
    decode (.sequencer ⟨0b001#3, false, .eq⟩) = .ok .buildTable ∧ decode (.sequencer ⟨0b001#3, true, .eq⟩) = .ok .buildToDecode ∧
    decode (.sequencer ⟨0b010#3, false, .lt⟩) = .ok .decodeToken ∧ decode (.sequencer ⟨0b010#3, false, .eq⟩) = .ok .decodeToExpand ∧
    decode (.sequencer ⟨0b011#3, false, .lt⟩) = .ok .expandToken ∧ decode (.sequencer ⟨0b011#3, false, .eq⟩) = .ok .complete ∧
    decode (.sequencer ⟨0b100#3, false, .eq⟩) = .error .noSequencerRule := by decide
/-- The codeword row: an entry that is not 0 selects DECODE_SYMBOL. -/
theorem test_decode_codeword : decode (.codeword 1 0x0205#16) = .ok (.decodeSymbol 1) ∧ decode (.codeword 1 0x0000#16) = .error .sentinel := by
  decide
/-- The host_register rows: offset 0x00 with data bit 0, any other write, any read (R-5, R-2). -/
theorem test_decode_host :
    decode (.hostWrite 0x00#32 0xFFFFFFFF#32) = .ok .start ∧ decode (.hostWrite 0x00#32 0xFFFFFFFE#32) = .ok (.regWrite 0x00#32 0xFFFFFFFE#32) ∧
    decode (.hostWrite 0x18#32 57#32) = .ok (.regWrite 0x18#32 57#32) ∧ decode (.hostRead 0x4C#32) = .ok (.regRead 0x4C#32) := by decide
/-- Container bytes are read in stream order; bytes that are no tag and short input are refused by name. -/
theorem test_decode_bytes :
    decodeBytes .tag16 [0xFF#8, 0xC4#8, 0x00#8] = .ok (.dht, [0x00#8]) ∧ decode (.bytes .tag16 [0xFF#8, 0xD9#8]) = .error .unknownTag ∧
    decode (.bytes .tag16 [0xFF#8]) = .error .truncated ∧ decode (.bytes .containerBytes [0x43#8, 0x52#8, 0x4F#8, 0x4E#8]) = .error .badMagic ∧
    decode (.bytes .token24 [0x05#8, 0x01#8, 0x00#8]) = .ok (.copy 1#16 5#8) := by decide

/-! ## The host's placed words run as the next step -/

/-- E6: `LIT 1` copies one literal byte. -/
theorem test_placed_lit : next (step (State.withFetchWord (expanding [] [0x41#8, 0x42#8] 0#32 8#32 ⟨0xFF#8, 0#16⟩) 24 0x000000))
    (fun t => t.outLen = 1#32 ∧ t.litPos = 1#32 ∧ t.out.read 0 = 0x41#8) = true := by decide
theorem test_placed_nop : next (step (State.reset.withFetchWord 24 0x0000FF)) (fun t => t.tokIdx = 1#32 ∧ t.errKind = .none) = true := by decide
theorem test_placed_magic : next (step (State.reset.withFetchWord 32 0x43524F4D)) (fun t => t.fe.phase = .soi) = true := by decide
theorem test_placed_tags :
    next (step (State.reset.withFetchWord 16 0xFFD8)) (fun t => t.fe.phase = .dht ∧ t.fe.warnings = []) = true ∧
    next (step (State.reset.withFetchWord 16 0xFFB2)) (fun t => t.fe.phase = .ready ∧ t.fe.warnings = [.b2Len]) = true := by decide

/-! ## BUILD_TABLE (section 2.1) -/

/-- B1. -/
theorem test_build_b1 : next (exec .buildTable (building 0 ([0xF0#8, 1#8, 2#8] ++ List.replicate 14 0#8 ++ [0x00#8, 0x05#8, 0xFF#8])))
    (fun t => t.htPos = 20#32 ∧ t.warn = 0#3 ∧ t.buildIdx = 1 ∧ t.t0.read 0x7FFF#16 = 0x0100#16 ∧ t.t0.read 0x8000#16 = 0x0205#16 ∧
      t.t0.read 0xBFFF#16 = 0x0205#16 ∧ t.t0.read 0xC000#16 = 0x02FF#16) = true := by decide
/-- B7: F = 65537, the error at the length-16 codeword; the earlier entries stay. -/
theorem test_build_b7 : next (exec .buildTable (building 2 ([0xF2#8, 2#8] ++ List.replicate 14 0#8 ++ [1#8, 0xA0#8, 0xA1#8, 0xA2#8])))
    (fun t => t.phase = .error ∧ t.errKind = .tableOversubscribed ∧ t.errIndex = 2#32 ∧ t.htPos = 20#32 ∧ t.t2.read 0x7FFF#16 = 0x01A0#16 ∧
      t.t2.read 0xFFFF#16 = 0x01A1#16) = true := by decide
/-- B10: truncated at count byte 10. -/
theorem test_build_b10 : next (exec .buildTable (building 0 (0xF0#8 :: List.replicate 9 0#8)))
    (fun t => t.errKind = .htTruncated ∧ t.errIndex = 0#32 ∧ t.htPos = 10#32 ∧ t.t0.read 0#16 = 0#16) = true := by decide
/-- K3's check: TOK_COUNT 3 above MAX_TOKENS 2. -/
theorem test_build_to_decode : next (exec .buildToDecode { State.reset with phase := .build, tokCount := 3#32, maxTokens := 2#32 })
    (fun t => t.phase = .error ∧ t.errKind = .tokenCapacity ∧ t.errIndex = 0#32) = true := by decide

/-! ## DECODE_SYMBOL and DECODE_TOKEN (sections 2.2, 2.3) -/

/-- D1: w = 9C80, symbol 01, cursor (2, 15, 0x9C80). -/
theorem test_decode_symbol_d1 :
    next (exec (.decodeSymbol 0) (decoding (((oneCode 1 0#8)).fill 0x8000 0x8000 0x0101#16) Table.cleared Table.cleared [0x9C#8, 0x80#8] 1#32))
      (fun t => t.symOut = 1#8 ∧ t.cdPos = 2 ∧ t.bitCnt = 15#5 ∧ t.bitBuf = 0x9C80#32) = true := by decide
/-- D3: the only codeword bit is virtual. -/
theorem test_decode_symbol_d3 : next (exec (.decodeSymbol 0) (decoding (oneCode 1 0#8) Table.cleared Table.cleared [] 1#32))
    (fun t => t.errKind = .outOfCompressedData ∧ t.errTable = 0 ∧ t.cdPos = 2 ∧ t.bitCnt = 16#5 ∧ t.bitBuf = 0#32) = true := by decide
/-- T2: bits 0 0 0 give (00, 0100). -/
theorem test_decode_token_t2 : next (exec .decodeToken (decoding (oneCode 1 0#8) (oneCode 1 0#8) (oneCode 1 1#8) [0x1F#8] 1#32))
    (fun t => t.tok.read 0 = ⟨0#8, 0x0100#16⟩ ∧ t.tokIdx = 1#32 ∧ t.consumed = 3) = true := by decide
/-- T5: code space 1 is empty. -/
theorem test_decode_token_t5 : next (exec .decodeToken (decoding (oneCode 1 0#8) Table.cleared (oneCode 1 0#8) [0x00#8] 1#32))
    (fun t => t.errKind = .invalidPrefixCode ∧ t.errIndex = 0#32 ∧ t.errTable = 1 ∧ t.tok.holds 0 = false ∧ t.tokIdx = 0#32) = true := by
  decide

/-! ## EXPAND_TOKEN (section 2.4) -/

/-- X1. -/
theorem test_nop_x1 : next (exec .expandToken (expanding [0x41#8, 0x42#8] [0x41#8, 0x42#8] 2#32 8#32 ⟨0xFF#8, 0#16⟩))
    (fun t => t.outLen = 2#32 ∧ t.litPos = 2#32 ∧ t.errKind = .none) = true := by decide
/-- X3. -/
theorem test_lit_x3 : next (exec (.lit 1#8) (expanding [] [0x41#8, 0x42#8] 0#32 8#32 ⟨1#8, 0#16⟩))
    (fun t => t.out.readBytes 0 2 = [0x41#8, 0x42#8] ∧ t.outLen = 2#32 ∧ t.litPos = 2#32) = true := by decide
/-- X6: both checks fail, the data check is first. -/
theorem test_lit_x6 : next (exec (.lit 1#8) (expanding [0x41#8] [0x41#8, 0x42#8] 1#32 1#32 ⟨1#8, 0#16⟩))
    (fun t => t.errKind = .outOfLiteralData ∧ t.outLen = 1#32 ∧ t.litPos = 1#32) = true := by decide
/-- X8: the source and destination ranges overlap. -/
theorem test_copy_x8 : next (exec (.copy 2#16 3#8) (expanding [0x41#8, 0x42#8] [] 0#32 8#32 ⟨3#8, 2#16⟩))
    (fun t => t.out.readBytes 0 7 = [0x41#8, 0x42#8, 0x41#8, 0x42#8, 0x41#8, 0x42#8, 0x41#8] ∧ t.outLen = 7#32) = true := by decide
/-- X12: both checks fail, the reference check is first. -/
theorem test_copy_x12 : next (exec (.copy 4#16 0#8) (expanding [0x41#8, 0x42#8, 0x43#8] [] 0#32 3#32 ⟨0#8, 4#16⟩))
    (fun t => t.errKind = .invalidReference ∧ t.outLen = 3#32) = true := by decide

/-! ## The host's registers (section 2.5) -/

/-- R-2. -/
theorem test_reg_write_read : next (exec (.regWrite 0x18#32 57#32) State.reset) (fun t => t.readWord 0x18#32 = 57#32) = true := by decide
/-- R-3. -/
theorem test_reg_unmapped : State.reset.readWord 0x4C#32 = 0#32 ∧ State.reset.readWord 0x02#32 = 0#32 ∧
    next (exec (.regWrite 0x02#32 0xFFFFFFFF#32) State.reset) (fun t => decide (t = State.reset)) = true := by decide
/-- R-5. -/
theorem test_start : next (step (withAgenda State.reset [.write 0x00#32 0xFFFFFFFF#32]))
    (fun t => t.phase = .build ∧ t.readWord 0x04#32 = 1#32 ∧ t.readWord 0x00#32 = 0#32) = true := by decide
/-- R-7: a write while busy is ignored. -/
theorem test_busy_write : next (exec (.regWrite 0x20#32 1#32) { State.reset with phase := .decode, tokCount := 3#32 })
    (fun t => t.readWord 0x20#32 = 3#32) = true := by decide

/-- R78: reading STATUS as DONE makes OUT defined to the host, and reading ERR_KIND does not. -/
theorem test_status_read :
    next (exec (.regRead 0x04#32) { State.reset with phase := .done, outSynced := false }) (fun t => t.outSynced ∧ t.hostData = 4#32) = true ∧
    next (exec (.regRead 0x08#32) { State.reset with phase := .done, outSynced := false }) (fun t => !t.outSynced) = true ∧
    next (exec (.regRead 0x04#32) { State.reset with phase := .expand, outSynced := false }) (fun t => !t.outSynced) = true := by decide

/-- R220: the host reads a byte of HT, CD and LIT, busy and idle; the block stays as it is (R71). -/
theorem test_host_reads_inputs :
    next (step (withAgenda (building 0 [0xF0#8, 0x12#8]) [.peek .ht 1])) (fun t => t.hostByte = 0x12#8 ∧ t.ht = buf [0xF0#8, 0x12#8] ∧
      t.phase = .build) = true ∧
    next (step (withAgenda { State.reset with cd := buf [0x9C#8] } [.peek .cd 0])) (fun t => t.hostByte = 0x9C#8) = true ∧
    next (step (withAgenda { State.reset with lit := buf [0x41#8] } [.peek .lit 0])) (fun t => t.hostByte = 0x41#8) = true := by decide

/-! ## The front end (section 2.6) -/

/-- F1. -/
theorem test_magic_f1 : next (exec .magic (parsing .magic [0x43#8, 0x52#8, 0x4F#8, 0x4E#8])) (fun t => t.fe.phase = .failed .badMagic) = true := by
  decide
/-- F4. -/
theorem test_dht_f4 : next (exec .dht (parsing .dht [0xFF#8, 0xC4#8, 0x00#8, 0x01#8])) (fun t => t.fe.phase = .failed .badLength) = true := by
  decide
/-- F6's 0xFFB1 chunk: length 000c warns, the skipped byte 5A is ignored, nine body bytes all the same. -/
theorem test_b1_f6 : next (exec .b1 (parsing .b1
      [0xFF#8, 0xB1#8, 0x00#8, 0x0C#8, 0x5A#8, 0#8, 0#8, 0#8, 1#8, 0#8, 0#8, 0#8, 1#8, 0x00#8, 0xFF#8]))
    (fun t => t.fe.phase = .b2 ∧ t.fe.cdBytes = [0x00#8] ∧ t.fe.tokN = 1#32 ∧ t.fe.warnings = [.b1Len] ∧ t.fe.pos = 14) = true := by decide

/-! ## Witnesses: inputs that meet the hypotheses of the statements, at the ends of their ranges -/

/-- Encodings: well-formed instructions at the ends of the constrained ranges. -/
theorem test_witness_encodings :
    (Instr.lit 0xFE#8).WellFormed ∧ (Instr.copy 1#16 0#8).WellFormed ∧ (Instr.regWrite 0x00#32 0xFFFFFFFE#32).WellFormed ∧
    (Instr.regWrite 0x01#32 1#32).WellFormed ∧ encode .nop = .bytes .token24 [0xFF#8, 0x00#8, 0x00#8] := by decide
/-- Token words where the three kinds meet. -/
theorem test_witness_token_words :
    decodeTokenWord 0x0000FE#24 = .lit 0xFE#8 ∧ decodeTokenWord 0x0000FF#24 = .nop ∧ decodeTokenWord 0x000100#24 = .copy 1#16 0#8 ∧
    (0x0000FE#24).toNat ≤ 0x0000FE ∧ 0x000100 ≤ (0x000100#24).toNat := by decide
/-- The sequencer's five selections, with an empty agenda and while the host polls. -/
theorem test_witness_selection :
    (∃ s : State, s.agenda = [] ∧ s.phase = .build) ∧
    (∃ s : State, (∃ rest, s.agenda = .await :: rest) ∧ s.phase = .decode ∧ s.tokIdx.toNat < s.tokCount.toNat) ∧
    (∃ s : State, s.agenda = [] ∧ s.phase = .decode ∧ s.tokIdx = s.tokCount) ∧
    (∃ s : State, s.agenda = [] ∧ s.phase = .expand ∧ s.tokIdx.toNat < s.tokCount.toNat) ∧
    (∃ s : State, s.agenda = [] ∧ s.phase = .expand ∧ s.tokIdx = s.tokCount) :=
  ⟨⟨building 0 [], rfl, rfl⟩,
   ⟨withAgenda (decoding Table.cleared Table.cleared Table.cleared [] 1#32) [.await], ⟨[], rfl⟩, rfl, by decide⟩,
   ⟨decoding Table.cleared Table.cleared Table.cleared [] 0#32, rfl, rfl, rfl⟩,
   ⟨expanding [] [] 0#32 0#32 ⟨0#8, 0#16⟩, rfl, rfl, by decide⟩,
   ⟨{ expanding [] [] 0#32 0#32 ⟨0#8, 0#16⟩ with tokIdx := 1#32 }, rfl, rfl, rfl⟩⟩
/-- Host moves: one state for each. -/
theorem test_witness_host_moves :
    (∃ s : State, s.agenda = .read 0x48#32 :: []) ∧
    (∃ s : State, ∃ data : Word, s.agenda = .write 0x00#32 data :: [] ∧ data.getLsbD 0 = true) ∧
    (∃ s : State, ∃ data : Word, s.agenda = .write 0x00#32 data :: [] ∧ ¬ ((0x00#32 : Word) = 0x00#32 ∧ data.getLsbD 0 = true)) ∧
    (∀ p ∈ [FePhase.magic, .soi, .dht, .b1, .b2], ∃ s : State, s.agenda = .parse :: [] ∧ s.fe.phase = p) :=
  ⟨⟨withAgenda State.reset [.read 0x48#32], rfl⟩, ⟨withAgenda State.reset [.write 0x00#32 1#32], 1#32, rfl, by decide⟩,
   ⟨withAgenda State.reset [.write 0x00#32 2#32], 2#32, rfl, by decide⟩, fun p _ => ⟨withAgenda (parsing p []) [.parse], rfl, rfl⟩⟩
/-- Idle states. -/
theorem test_witness_idle :
    ∀ p ∈ [Phase.idle, .done, .error], ∃ s : State, s.agenda = [] ∧ s.phase = p ∧ s.busy = false :=
  fun p hp => ⟨{ State.reset with phase := p }, rfl, rfl, by revert p; decide⟩
/-- A record that ends exactly at HT_LEN, for a build that goes on (B4, k = 0), the last build with and without room in the token store,
and an oversubscribed record (B7). -/
theorem test_witness_build :
    (let s := building 0 ([0xF0#8, 1#8, 1#8, 2#8] ++ List.replicate 13 0#8 ++ [0x41#8, 0x42#8, 0x43#8, 0x44#8])
     0 + 17 + countSum (s.ht.readBytes 1 16) = s.htLen.toNat ∧ slotsClaimed (s.ht.readBytes 1 16) = 65536 ∧ s.buildIdx ≠ 2) ∧
    (let s := building 2 (0xF2#8 :: List.replicate 16 0#8)
     0 + 17 + countSum (s.ht.readBytes 1 16) = s.htLen.toNat ∧ slotsClaimed (s.ht.readBytes 1 16) ≤ 65536 ∧ s.buildIdx = 2 ∧
       s.tokCount.toNat ≤ s.maxTokens.toNat ∧ ({ s with tokCount := 3#32, maxTokens := 2#32 } : State).maxTokens.toNat < (3#32).toNat) ∧
    (let s := building 2 ([0xF2#8, 2#8] ++ List.replicate 14 0#8 ++ [1#8, 0xA0#8, 0xA1#8, 0xA2#8])
     0 + 17 + countSum (s.ht.readBytes 1 16) ≤ s.htLen.toNat ∧ slotsClaimed (s.ht.readBytes 1 16) = 65537) := by decide
/-- Truncated records: no byte, one byte short of the counts, one byte short of the symbols (B9, B11). -/
theorem test_witness_truncation :
    ((building 0 []).htPos = (building 0 []).htLen) ∧
    (let s := building 0 (0xF0#8 :: List.replicate 15 0#8)
     s.htPos.toNat < s.htLen.toNat ∧ s.htLen.toNat + 1 = s.htPos.toNat + 17) ∧
    (let s := building 0 ([0xF0#8, 2#8] ++ List.replicate 15 0#8 ++ [0x61#8])
     s.htPos.toNat + 17 ≤ s.htLen.toNat ∧ s.htLen.toNat + 1 = s.htPos.toNat + 17 + countSum (s.ht.readBytes 1 16) ∧ s.ht.wf = true) := by
  decide
/-- The codewords of a record, cut behind the first one (B1). -/
theorem test_witness_built_codewords :
    let s := building 0 ([0xF0#8, 1#8, 2#8] ++ List.replicate 14 0#8 ++ [0x00#8, 0x05#8, 0xFF#8])
    0 + 17 + countSum (s.ht.readBytes 1 16) ≤ s.htLen.toNat ∧ slotsClaimed (s.ht.readBytes 1 16) ≤ 65536 ∧
      (codewordLengths (s.ht.readBytes 1 16)).zip (s.ht.readBytes 17 3) = [(1, 0x00#8)] ++ (2, 0x05#8) :: [(2, 0xFF#8)] := by decide
/-- Instructions that enter ERROR from a state outside it. -/
theorem test_witness_error_entry :
    next (exec .buildTable (building 1 [])) (fun t => t.phase = .error ∧ t.errKind = .htTruncated) = true ∧
    next (exec (.decodeSymbol 2) (decoding Table.cleared Table.cleared Table.cleared [] 1#32))
      (fun t => t.phase = .error ∧ t.errKind = .invalidPrefixCode ∧ t.errTable = 2) = true ∧
    next (exec (.lit 0#8) (expanding [0x41#8] [0x41#8, 0x42#8] 1#32 1#32 ⟨0#8, 0#16⟩))
      (fun t => t.phase = .error ∧ t.errKind = .outputOverflow) = true := by decide
/-- Steps out of an idle state: START, the handover of a segment, and a reset after an error. -/
theorem test_witness_idle_left :
    next (step (withAgenda State.reset [.write 0x00#32 1#32])) (fun t => t.phase = .build) = true ∧
    next (step (withAgenda (parsing .ready []) [.decodeSegment 8#32])) (fun t => t.phase = .build) = true ∧
    next (step (withAgenda { State.reset with phase := .error } [.reset])) (fun t => t.phase = .idle) = true := by decide
/-- A cursor in the middle of a byte: D1's, after its call. -/
theorem test_witness_cursor :
    ({ decoding (oneCode 1 0#8) Table.cleared Table.cleared [0x9C#8, 0x80#8] 1#32 with cdPos := 2, bitCnt := 15#5, bitBuf := 0x9C80#32 } :
      State).CursorInv :=
  ⟨by decide, by decide, by decide⟩
/-- A lookup of each outcome: the sentinel (D4), one bit past the end (D3), the last bit of CD (D5). -/
theorem test_witness_lookup :
    (let s := decoding Table.cleared Table.cleared Table.cleared [] 1#32
     (s.table 0).read 0#16 = 0#16 ∧ ∀ j < 16, (0#16).getLsbD (15 - j) = s.streamBit (s.consumed + j)) ∧
    (let s := decoding (oneCode 1 0#8) Table.cleared Table.cleared [] 1#32
     (s.table 0).read 0#16 ≠ 0#16 ∧ s.consumed + entryLength ((s.table 0).read 0#16) = 8 * s.cdLen.toNat + 1 ∧
       ∀ j < 16, (0#16).getLsbD (15 - j) = s.streamBit (s.consumed + j)) ∧
    (let s := decoding (oneCode 8 0x33#8) Table.cleared Table.cleared [0#8] 1#32
     (s.table 0).read 0#16 ≠ 0#16 ∧ s.consumed + entryLength ((s.table 0).read 0#16) = 8 * s.cdLen.toNat ∧
       ∀ j < 16, (0#16).getLsbD (15 - j) = s.streamBit (s.consumed + j)) := by decide
/-- A token's three codewords in the stream, from an empty cursor (T2); the stream of a phase of one token. -/
theorem test_witness_token :
    let s := decoding (oneCode 1 0#8) (oneCode 1 0#8) (oneCode 1 1#8) [0x1F#8] 1#32
    s.CursorInv ∧ s.t0.Codes 0 1 0#8 ∧ s.t1.Codes 0 1 0#8 ∧ s.t2.Codes 0 1 1#8 ∧ s.StreamHas 0 0 1 ∧ s.StreamHas 1 0 1 ∧ s.StreamHas 2 0 1 ∧
      s.agenda = [] ∧ s.phase = .decode ∧ s.tokIdx.toNat + [(⟨0#8, 0x0100#16⟩ : Token)].length = s.tokCount.toNat ∧
      s.StreamHasTokens s.consumed [⟨0#8, 0x0100#16⟩] := by
  intro s
  have k0 : s.t0.Codes 0 1 0#8 := Table.fill_codes _ _ _ _ (by decide) (by decide) (by decide)
  have k2 : s.t2.Codes 0 1 1#8 := Table.fill_codes _ _ _ _ (by decide) (by decide) (by decide)
  have h : s.StreamHas 0 0 1 ∧ s.StreamHas 1 0 1 ∧ s.StreamHas 2 0 1 := by unfold State.StreamHas; decide
  exact ⟨⟨by decide, by decide, by decide⟩, k0, k0, k2, h.1, h.2.1, h.2.2, rfl, rfl, rfl,
    0, 1, 0, 1, 0, 1, k0, k0, k2, h.1, h.2.1, h.2.2, by decide, trivial⟩
/-- Both endings of a DECODE_TOKEN. -/
theorem test_witness_decode_token :
    (∃ t, exec .decodeToken (decoding (oneCode 1 0#8) (oneCode 1 0#8) (oneCode 1 1#8) [0x1F#8] 1#32) = .next t) ∧
    (∃ t, exec .decodeToken (decoding Table.cleared Table.cleared Table.cleared [] 1#32) = .next t) :=
  ⟨⟨_, rfl⟩, ⟨_, rfl⟩⟩
/-- LIT: the last literal and the last output byte used exactly, one literal short, one output byte short (X17b, X4, X5). -/
theorem test_witness_lit :
    (let s := expanding [0x41#8] [0x42#8] 0#32 2#32 ⟨0#8, 0#16⟩
     s.litPos.toNat + (0 + 1) = s.litLen.toNat ∧ s.outLen.toNat + (0 + 1) = s.outCap.toNat ∧ s.out.wf = true) ∧
    (let s := expanding [] [0x41#8, 0x42#8] 1#32 8#32 ⟨1#8, 0#16⟩
     s.litLen.toNat + 1 = s.litPos.toNat + (1 + 1)) ∧
    (let s := expanding [0x41#8] [0x41#8, 0x42#8] 1#32 1#32 ⟨0#8, 0#16⟩
     s.litPos.toNat + (0 + 1) ≤ s.litLen.toNat ∧ s.outCap.toNat + 1 = s.outLen.toNat + (0 + 1)) := by decide
/-- COPY: d = OUT_LEN and OUT_CAP used exactly, d = OUT_LEN + 1, one output byte short (X13, X10, X14). -/
theorem test_witness_copy :
    (let s := expanding [0x41#8, 0x42#8, 0x43#8] [] 0#32 5#32 ⟨0#8, 3#16⟩
     (3#16).toNat = s.outLen.toNat ∧ s.outLen.toNat + (0 + 2) = s.outCap.toNat ∧ s.out.wf = true) ∧
    (let s := expanding [0x41#8, 0x42#8, 0x43#8] [] 0#32 8#32 ⟨0#8, 4#16⟩
     s.outLen.toNat + 1 = (4#16).toNat) ∧
    (let s := expanding [0x41#8, 0x42#8, 0x43#8] [] 0#32 4#32 ⟨0#8, 3#16⟩
     (3#16).toNat ≤ s.outLen.toNat ∧ s.outCap.toNat + 1 = s.outLen.toNat + (0 + 2)) := by decide
/-- EXPAND_TOKEN's three kinds, each with its checks passing at the limit. -/
theorem test_witness_expand :
    ((expanding [] [] 0#32 0#32 ⟨0xFF#8, 0#16⟩).tok.read 0 = ⟨0xFF#8, 0#16⟩) ∧
    (let s := expanding [] [0x41#8] 0#32 1#32 ⟨0#8, 0#16⟩
     s.tok.read 0 = ⟨0#8, 0#16⟩ ∧ s.litPos.toNat + (0 + 1) = s.litLen.toNat ∧ s.outLen.toNat + (0 + 1) = s.outCap.toNat) ∧
    (let s := expanding [0x41#8] [] 0#32 3#32 ⟨0#8, 1#16⟩
     s.tok.read 0 = ⟨0#8, 1#16⟩ ∧ (1#16).toNat = s.outLen.toNat ∧ s.outLen.toNat + (0 + 2) = s.outCap.toNat) := by decide
/-- Host port: idle and busy states, a read-only and an unmapped offset, offsets next to the map's end. -/
theorem test_witness_host_port :
    State.reset.busy = false ∧ (building 0 []).busy = true ∧ (0xFFFFFFFE#32).getLsbD 0 = false ∧
    0x2C#32 ∉ [0x00#32, 0x18#32, 0x1C#32, 0x20#32, 0x24#32, 0x28#32] ∧ 0x02#32 ∉ [0x00#32, 0x18#32, 0x1C#32, 0x20#32, 0x24#32, 0x28#32] ∧
    (0x48 < (0x4C#32).toNat ∧ (0x4C#32).toNat % 4 = 0) ∧ ((0x47#32).toNat ≤ 0x48 ∧ (0x47#32).toNat % 4 ≠ 0) := by decide
/-- Moves of the host with their hypotheses, idle and busy, before and after the point of synchronisation. -/
theorem test_witness_moves :
    ((withAgenda (building 0 []) [.reset]).agenda = .reset :: []) ∧
    ((withAgenda (building 0 []) [.peek .out 0]).agenda = .peek .out 0 :: [] ∧ (building 0 []).outSynced = false ∧ State.reset.outSynced = true) ∧
    ((withAgenda (building 0 [0xF0#8]) [.peek .ht 0]).agenda = .peek .ht 0 :: [] ∧ (building 0 [0xF0#8]).busy = true ∧ Port.ht ≠ .out) ∧
    ((withAgenda State.reset [.peek .lit 0]).agenda = .peek .lit 0 :: [] ∧ State.reset.busy = false ∧ Port.lit ≠ .out) ∧
    ((withAgenda State.reset [.fill .out 0 1#8]).agenda = .fill .out 0 1#8 :: [] ∧ (State.reset.buffer .out).wf = true) := by decide
/-- Streams that meet the chunk statements, each ending where the chunk does. -/
theorem test_witness_chunks :
    ((parsing .magic [0x43#8, 0x52#8, 0x4F#8, 0x4D#8]).fe.stream.drop 0 = [0x43#8, 0x52#8, 0x4F#8, 0x4D#8] ++ []) ∧
    ((parsing .magic [0x43#8, 0x52#8, 0x4F#8, 0x4E#8]).fe.stream.drop 0 = [0x43#8, 0x52#8, 0x4F#8, 0x4E#8] ++ [] ∧
      ¬(0x43#8 = 0x43#8 ∧ 0x52#8 = 0x52#8 ∧ 0x4F#8 = 0x4F#8 ∧ 0x4E#8 = 0x4D#8)) ∧
    (((parsing .magic [0x43#8, 0x52#8, 0x4F#8]).fe.stream.drop 0).length < 4) ∧
    ((parsing .soi [0xFF#8, 0xD9#8]).fe.stream.drop 0 = [0xFF#8, 0xD9#8] ++ []) ∧
    ((parsing .dht [0xFF#8, 0xC4#8, 0#8, 2#8]).fe.stream.drop 0 = [0xFF#8, 0xC4#8, 0#8, 2#8] ++ [] ++ [] ∧
      ([] : List Byte).length + 2 = 256 * (0#8).toNat + (2#8).toNat ∧ 256 * (0#8).toNat + (1#8).toNat < 2) ∧
    ((parsing .b1 [0xFF#8, 0xB1#8, 0#8, 11#8, 0#8, 0#8, 0#8, 0#8, 1#8, 0#8, 0#8, 0#8, 0#8, 0x9C#8]).fe.stream.drop 0 =
      [0xFF#8, 0xB1#8, 0#8, 11#8, 0#8, 0#8, 0#8, 0#8, 1#8, 0#8, 0#8, 0#8, 0#8] ++ [0x9C#8] ++ [] ∧
      [0x9C#8].length = 0x1000000 * (0#8).toNat + 0x10000 * (0#8).toNat + 0x100 * (0#8).toNat + (1#8).toNat) ∧
    ((parsing .b2 [0xFF#8, 0xB2#8, 0#8, 6#8, 0#8, 0#8, 0#8, 0#8]).fe.stream.drop 0 =
      [0xFF#8, 0xB2#8, 0#8, 6#8, 0#8, 0#8, 0#8, 0#8] ++ [] ++ []) := by decide
/-- Chunks one byte short, in the fixed part and in the counted bytes. -/
theorem test_witness_short_chunks :
    ((parsing .soi [0xFF#8]).fe.stream.drop 0).length < 2 ∧ ((parsing .dht [0xFF#8, 0xC4#8, 0#8]).fe.stream.drop 0).length < 4 ∧
    ((parsing .b1 (List.replicate 12 0#8)).fe.stream.drop 0).length < 13 ∧ ((parsing .b2 (List.replicate 7 0#8)).fe.stream.drop 0).length < 8 ∧
    ((parsing .dht [0xFF#8, 0xC4#8, 0#8, 3#8]).fe.stream.drop 0 = [0xFF#8, 0xC4#8, 0#8, 3#8] ++ [] ∧
      ([] : List Byte).length + 2 < 256 * (0#8).toNat + (3#8).toNat) ∧
    ((parsing .b1 [0xFF#8, 0xB1#8, 0#8, 11#8, 0#8, 0#8, 0#8, 0#8, 1#8, 0#8, 0#8, 0#8, 0#8]).fe.stream.drop 0 =
      [0xFF#8, 0xB1#8, 0#8, 11#8, 0#8, 0#8, 0#8, 0#8, 1#8, 0#8, 0#8, 0#8, 0#8] ++ [] ∧
      ([] : List Byte).length < 0x1000000 * (0#8).toNat + 0x10000 * (0#8).toNat + 0x100 * (0#8).toNat + (1#8).toNat) ∧
    ((parsing .b2 [0xFF#8, 0xB2#8, 0#8, 6#8, 0#8, 0#8, 0#8, 1#8]).fe.stream.drop 0 = [0xFF#8, 0xB2#8, 0#8, 6#8, 0#8, 0#8, 0#8, 1#8] ++ []) := by
  decide
/-- A segment of one table byte, one compressed byte and one literal, as R261 lays it out, with a byte behind it. -/
theorem test_witness_segment :
    (parsing .soi [0xFF#8, 0xD8#8, 0xFF#8, 0xC4#8, 0#8, 3#8, 0xF0#8, 0xFF#8, 0xB1#8, 0#8, 11#8, 0x5A#8, 0#8, 0#8, 0#8, 1#8, 0#8, 0#8, 0#8, 2#8,
        0x9C#8, 0xFF#8, 0xB2#8, 0#8, 6#8, 0#8, 0#8, 0#8, 1#8, 0x41#8, 0xFF#8]).fe.stream.drop 0 =
      segmentBytes [0xF0#8] [0x9C#8] [0x41#8] 0x5A#8 2#32 ++ [0xFF#8] := by decide
/-- The end-of-input check in its two outcomes, after the end and after an error. -/
theorem test_witness_end_of_input :
    (∃ s : State, s.agenda = .parse :: [] ∧ s.fe.phase = .ready ∧ s.fe.pos = s.fe.stream.length) ∧
    (∃ s : State, s.agenda = .parse :: [] ∧ s.fe.phase = .taken ∧ s.fe.pos < s.fe.stream.length) ∧
    (∃ s : State, s.agenda = .parse :: [] ∧ s.fe.phase = .ended) ∧
    (∃ s : State, s.agenda = .parse :: [] ∧ s.fe.phase = .failed .badLength) :=
  ⟨⟨withAgenda (parsing .ready []) [.parse], rfl, rfl, rfl⟩, ⟨withAgenda (parsing .taken [0xFF#8]) [.parse], rfl, rfl, by decide⟩,
   ⟨withAgenda (parsing .ended []) [.parse], rfl, rfl⟩, ⟨withAgenda (parsing (.failed .badLength) []) [.parse], rfl, rfl⟩⟩
/-- A segment ready for the block, and a front end without one. -/
theorem test_witness_handover :
    (let s := withAgenda (parsing .ready []) [.decodeSegment 8#32]
     s.agenda = .decodeSegment 8#32 :: [] ∧ s.busy = false ∧ s.fe.phase = .ready ∧ s.ht.wf = true ∧ s.cd.wf = true ∧ s.lit.wf = true) ∧
    (let s := withAgenda (parsing .soi []) [.decodeSegment 8#32]
     s.agenda = .decodeSegment 8#32 :: [] ∧ s.busy = false ∧ s.fe.phase ≠ .ready) := by decide
/-- A busy state that meets the invariant and takes a step: a DECODE phase over built tables with bits buffered. -/
theorem test_witness_invariant :
    let s : State := { decoding (oneCode 1 0#8) (oneCode 1 0#8) (oneCode 1 1#8) [0x9C#8, 0x80#8] 1#32 with
      cdPos := 2, bitCnt := 15#5, bitBuf := 0x9C80#32 }
    s.Inv ∧ s.busy = true ∧ ∃ t, step s = .next t := by
  intro s
  have hs : ∀ b : Byte, (oneCode 1 b).Sound := fun b =>
    Table.fill_sound _ _ _ _ Table.cleared_sound (by rw [entryLength_entryOf 1 b (by decide)])
      (by rw [entryLength_entryOf 1 b (by decide)]; decide)
  refine ⟨⟨by decide, by decide, by decide, by decide, by decide, by decide, ?_, ?_, ?_, ?_, ?_⟩, rfl, ?_⟩
  · intro _; decide
  · intro _; exact ⟨rfl, fun _ _ => rfl⟩
  · intro _; exact ⟨by decide, by decide, by decide⟩
  · refine ⟨rfl, by decide, by decide, rfl, rfl, ?_⟩
    intro i hi
    exact absurd hi (Nat.not_lt_zero i)
  · intro k
    match k with
    | 0 => exact hs 0#8
    | 1 => exact hs 0#8
    | 2 => exact hs 1#8
  · rw [step_run (show fetch s = .run .decodeToken s from rfl)]
    exact exec_next _ _
/-- A busy block left alone, with TOK_IDX at TOK_COUNT, and one in BUILD with TOK_IDX above it. -/
theorem test_witness_count_down :
    (let s := decoding Table.cleared Table.cleared Table.cleared [] 0#32
     s.agenda = [] ∧ s.busy = true ∧ s.tokIdx.toNat = s.tokCount.toNat ∧ s.stepsLeft = 2) ∧
    (let s : State := { building 2 [] with tokIdx := 1#32 }
     s.agenda = [] ∧ s.busy = true ∧ s.phase = .build ∧ s.stepsLeft = 3) := by decide
/-- Two states with the same inputs: LIT_LEN is 1, and LIT above it, OUT, a table and the token store differ. -/
theorem test_witness_leftovers :
    let s : State := { State.reset with litLen := 1#32, lit := buf [0x41#8] }
    let s' : State := { s with lit := buf [0x41#8, 0x42#8], t0 := oneCode 1 0#8, out := buf [0x41#8], tok := ⟨[], 9⟩ }
    s.agenda = [] ∧ s'.agenda = [] ∧ s.htLen = s'.htLen ∧ s.cdLen = s'.cdLen ∧ s.litLen = s'.litLen ∧ s.tokCount = s'.tokCount ∧
      s.outCap = s'.outCap ∧ s.maxTokens = s'.maxTokens ∧ (∀ a < s.htLen.toNat, s.ht.read a = s'.ht.read a) ∧
      (∀ a < s.cdLen.toNat, s.cd.read a = s'.cd.read a) ∧ (∀ a < s.litLen.toNat, s.lit.read a = s'.lit.read a) ∧ s.out.wf = true ∧
      s'.out.wf = true ∧ s.lit ≠ s'.lit ∧ s.t0 ≠ s'.t0 ∧ s.out ≠ s'.out := by decide
/-- Two states of one run in EXPAND that differ above LIT_LEN, above OUT_LEN and in a table; the first takes a step. And one whose step is the
fault, with TOK_IDX above TOK_COUNT. -/
theorem test_witness_same_run :
    (let s := expanding [0x41#8] [0x42#8] 0#32 2#32 ⟨0#8, 0#16⟩
     let s' : State := { s with lit := buf [0x42#8, 0x43#8], out := buf [0x41#8, 0x44#8], t0 := oneCode 1 0#8 }
     s.agenda = [] ∧ s'.agenda = [] ∧ s.SameRun s' ∧ s.lit ≠ s'.lit ∧ s.out ≠ s'.out ∧ ∃ t, step s = .next t) ∧
    (let s : State := { decoding Table.cleared Table.cleared Table.cleared [] 0#32 with tokIdx := 1#32 }
     s.agenda = [] ∧ s.SameRun s ∧ step s = .fault .noSequencerRule) := by
  refine ⟨?_, rfl, ⟨fun _ => rfl, rfl, rfl, fun _ _ => rfl, fun _ _ => rfl, fun _ _ => rfl, fun _ _ => rfl, by decide, fun _ _ _ => rfl,
    fun _ _ => rfl⟩, rfl⟩
  intro s s'
  refine ⟨rfl, rfl, ⟨?_, rfl, rfl, fun _ _ => rfl, fun _ _ => rfl, by decide, by decide, by decide, ?_, fun _ _ => rfl⟩, by decide, by decide,
    _, rfl⟩
  · intro r
    cases r <;> rfl
  · rintro k (⟨h, _⟩ | h) <;> cases h
/-- The point of synchronisation: a read of STATUS and the poll in DONE, and a START after it. -/
theorem test_witness_sync :
    (∃ s t : State, step s = .next t ∧ s.outSynced = false ∧ t.outSynced = true ∧ s.agenda = .read 0x04#32 :: []) ∧
    (∃ s t : State, step s = .next t ∧ s.outSynced = false ∧ t.outSynced = true ∧ s.agenda = .await :: []) ∧
    (∃ s t : State, step s = .next t ∧ s.outSynced = true ∧ t.outSynced = false) ∧
    (∃ s t : State, step s = .next t ∧ s.agenda = .fill .out 0 1#8 :: [] ∧ t.outBefore ≠ s.outBefore) :=
  ⟨⟨withAgenda { State.reset with phase := .done, outSynced := false } [.read 0x04#32], _, rfl, rfl, rfl, rfl⟩,
   ⟨withAgenda { State.reset with phase := .error, outSynced := false } [.await], _, rfl, rfl, rfl, rfl⟩,
   ⟨withAgenda State.reset [.write 0x00#32 1#32], _, rfl, rfl, rfl⟩,
   ⟨withAgenda State.reset [.fill .out 0 1#8], _, rfl, rfl, by decide⟩⟩
/-- A DECODE_TOKEN whose second lookup fails (T5): the first completes, the second fails with code space 1. -/
theorem test_witness_first_failing :
    let s := decoding (oneCode 1 0#8) Table.cleared (oneCode 1 0#8) [0x00#8] 1#32
    s.phase ≠ .error ∧ ∃ t, exec .decodeToken s = .next t ∧ t.phase = .error ∧ t.errTable = 1 ∧ FirstFailingLookup s t 1 :=
  ⟨by decide, _, rfl, rfl, rfl, _, rfl, by decide, rfl⟩
/-- An idle block, still in DONE from the run before, with a segment ready. -/
theorem test_witness_segment_result :
    let s : State := { withAgenda (parsing .ready []) [.decodeSegment 8#32] with phase := .done }
    s.agenda = [.decodeSegment 8#32] ∧ s.busy = false ∧ s.fe.phase = .ready := by decide
/-- Magic: a step from the magic to the magic leaves it there (no front-end move). -/
theorem test_witness_magic_stays :
    ∃ s t : State, step s = .next t ∧ t.fe.phase = .magic ∧ s.agenda = [.read 0x04#32] :=
  ⟨withAgenda State.reset [.read 0x04#32], _, rfl, rfl, rfl⟩
/-- Busy states whose next step is no reset: of the sequencer, and of the host. -/
theorem test_witness_busy_steps :
    (∃ s t : State, s.busy = true ∧ (∀ rest, s.agenda ≠ .reset :: rest) ∧ step s = .next t ∧ s.phase = .expand) ∧
    (∃ s t : State, s.busy = true ∧ (∀ rest, s.agenda ≠ .reset :: rest) ∧ step s = .next t ∧ s.agenda = [.read 0x04#32]) :=
  ⟨⟨expanding [] [0x41#8] 0#32 1#32 ⟨0#8, 0#16⟩, _, rfl, (by intro r h; cases h), rfl, rfl⟩,
   ⟨withAgenda (building 0 []) [.read 0x04#32], _, rfl, (by intro r h; cases h), rfl, rfl⟩⟩

end Sys2Proof.Tests
end

section
/-! SUPPORT. Front-end moves: which operation a move runs, and that it is on the host's side of the machine only (R6, R264). -/

namespace Sys2Proof.Machine

/-- A front-end move is carried out without the move itself on the agenda. -/
theorem fetch_of_parse {s : State} {rest : List HostMove} (h : s.agenda = .parse :: rest) :
    fetch s = fetchParse { s with agenda := rest } := by
  unfold fetch
  rw [h]

/-- The end-of-input check after a segment reads and writes the front end only (R262). -/
theorem State.feNextSegment_sameBlock (s : State) : s.SameBlock s.feNextSegment := by
  unfold State.feNextSegment
  split
  · rfl
  · rfl

/-- A front-end move reads a chunk, an operation of the host's side, or answers a state with the same block. -/
theorem fetchParse_cases (s : State) :
    (∃ (i : Instr) (r : Res Unit), fetchParse s = .run i s ∧ exec i s = r.finish id ∧ r.HostSide s) ∨
    (∃ t, fetchParse s = .moved t ∧ s.SameBlock t) := by
  unfold fetchParse
  cases s.fe.phase with
  | magic => exact .inl ⟨.magic, _, rfl, rfl, feMagic_hostSide s⟩
  | soi => exact .inl ⟨.soi, _, rfl, rfl, feSoi_hostSide s⟩
  | dht => exact .inl ⟨.dht, _, rfl, rfl, feDht_hostSide s⟩
  | b1 => exact .inl ⟨.b1, _, rfl, rfl, feB1_hostSide s⟩
  | b2 => exact .inl ⟨.b2, _, rfl, rfl, feB2_hostSide s⟩
  | ready => exact .inr ⟨_, rfl, s.feNextSegment_sameBlock⟩
  | taken => exact .inr ⟨_, rfl, s.feNextSegment_sameBlock⟩
  | ended => exact .inr ⟨s, rfl, rfl⟩
  | failed e => exact .inr ⟨s, rfl, rfl⟩

/-- Settles O43: a front-end move runs a chunk's operation, which is on the host's side, or the end-of-input check (R6, R264). -/
theorem parsingLeavesTheBlockAlone : Obligations.ParsingLeavesTheBlockAlone := by
  intro s rest hparse
  have hfetch := fetch_of_parse hparse
  rcases fetchParse_cases { s with agenda := rest } with ⟨i, r, hrun, hexec, hside⟩ | ⟨t, hmoved, hblock⟩
  · obtain ⟨t, hnext⟩ := Res.finish_next r id
    exact ⟨t, (step_run (hfetch.trans hrun)).trans (hexec.trans hnext), hside.finish hnext⟩
  · exact ⟨t, step_moved (hfetch.trans hmoved), hblock⟩

end Sys2Proof.Machine
end

section
/-! SUPPORT. What a step can do: the transitions of the machine, one constructor per kind of host move and per row of the sequencer
(R220 to R228), and that every step is one of them. -/

namespace Sys2Proof.Machine

/-- The ways a step answers a next state, but for a reset, from the state whose agenda has lost the move that is carried out. -/
inductive State.Transition (s : State) : State → Prop where
  /-- Nothing of the block changes: a front-end move, or no move at all (R227, R264). -/
  | hostSide {t : State} : s.SameBlock t → s.Transition t
  /-- The host reads a register (R221). -/
  | readReg (offset : Word) : s.Transition (s.hostReadReg offset)
  /-- The host reads a byte of a buffer (R71, R77). -/
  | readByte (p : Port) (i : Nat) : s.Transition (s.hostReadByte p i)
  /-- The host's poll sees the block idle (R313, R78). -/
  | poll : s.busy = false → s.Transition s.seeStatus
  /-- The host writes START (R222, R223). -/
  | start : s.Transition s.startCommand
  /-- The host writes another register (R224, R225). -/
  | writeReg (offset data : Word) : s.Transition (s.writeWord offset data)
  /-- The host fills a byte of a buffer (R76). -/
  | fill (p : Port) (i : Nat) (v : Byte) : s.busy = false → s.Transition (s.fillByte p i v)
  /-- The host hands over a segment and starts a run (R226). -/
  | handOver (outCap : Word) : s.busy = false → s.Transition (s.loadSegment outCap).beginRun
  /-- BUILD_TABLE (R229). -/
  | build {t : State} : s.phase = .build → execBuildTable s = .next t → s.Transition t
  /-- DECODE_TOKEN (R231). -/
  | decode {t : State} : s.phase = .decode → s.tokIdx.toNat < s.tokCount.toNat → execDecodeToken s = .next t → s.Transition t
  /-- DECODE_TO_EXPAND (R232). -/
  | decoded : s.phase = .decode → s.tokIdx.toNat = s.tokCount.toNat → s.Transition { s with phase := .expand, tokIdx := 0#32 }
  /-- EXPAND_TOKEN (R235). -/
  | expand {t : State} : s.phase = .expand → s.tokIdx.toNat < s.tokCount.toNat → execExpandToken s = .next t → s.Transition t
  /-- COMPLETE (R236). -/
  | complete : s.phase = .expand → s.tokIdx.toNat = s.tokCount.toNat → s.Transition { s with phase := .done }

/-- What follows from a fetched operation that answers a next state. -/
def NextOp.Answers (op : NextOp) (t : State) : Prop := (∃ i u, op = .run i u ∧ exec i u = .next t) ∨ op = .moved t

theorem NextOp.answers_run {i : Instr} {u t : State} (h : (NextOp.run i u).Answers t) : exec i u = .next t := by
  rcases h with ⟨_, _, e, h⟩ | e
  · cases e; exact h
  · cases e

theorem NextOp.answers_moved {u t : State} (h : (NextOp.moved u).Answers t) : t = u := by
  rcases h with ⟨_, _, e, _⟩ | e
  · cases e
  · cases e; rfl

theorem NextOp.not_answers_stuck {f : Fault} {t : State} : ¬ (NextOp.stuck f).Answers t := by
  rintro (⟨_, _, e, _⟩ | e) <;> cases e

/-- A block step is a transition of the sequencer (R227, R228). -/
theorem fetchBlock_transition {s t : State} (h : (fetchBlock s).Answers t) : s.Transition t := by
  rcases fetchBlock_cases s with ⟨_, e⟩ | ⟨hp, e⟩ | ⟨hp, hi, e⟩ | ⟨hp, hi, e⟩ | ⟨hp, hi, e⟩ | ⟨hp, hi, e⟩ | ⟨_, _, e⟩ <;>
    rw [e] at h
  · exact NextOp.answers_moved h ▸ .hostSide rfl
  · exact .build hp (NextOp.answers_run h)
  · exact .decode hp hi (NextOp.answers_run h)
  · cases NextOp.answers_run h; exact .decoded hp hi
  · exact .expand hp hi (NextOp.answers_run h)
  · cases NextOp.answers_run h; exact .complete hp hi
  · exact absurd h NextOp.not_answers_stuck

/-- A front-end move is on the host's side (R264). -/
theorem fetchParse_transition {s t : State} (h : (fetchParse s).Answers t) : s.Transition t := by
  rcases fetchParse_cases s with ⟨i, r, e, hexec, hside⟩ | ⟨u, e, hblock⟩ <;> rw [e] at h
  · exact .hostSide (hside.finish (hexec ▸ NextOp.answers_run h))
  · exact NextOp.answers_moved h ▸ .hostSide hblock

/-- A host write is a START or a write of another register (R222 to R225). -/
theorem fetchAccess_write_transition {s t : State} {offset data : Word} (h : (fetchAccess (.hostWrite offset data) s).Answers t) :
    s.Transition t := by
  change (NextOp.run (decodeHostWrite offset data) s).Answers t at h
  have hexec := NextOp.answers_run h
  unfold decodeHostWrite at hexec
  split at hexec
  · cases hexec; exact .start
  · cases hexec; exact .writeReg offset data

/-- The handover starts a run where a segment is ready, and does nothing otherwise (R226, R264). -/
theorem fetchSegment_transition {s t : State} {outCap : Word} (hidle : s.busy = false) (h : (fetchSegment outCap s).Answers t) :
    s.Transition t := by
  unfold fetchSegment at h
  split at h
  case h_1 =>
    have hstart : (s.loadSegment outCap).startCommand = (s.loadSegment outCap).beginRun := if_neg (Bool.eq_false_iff.mp hidle)
    cases NextOp.answers_run h
    exact hstart ▸ .handOver outCap hidle
  all_goals exact NextOp.answers_moved h ▸ .hostSide rfl

/-- Every step that answers a next state is a reset or a transition, once the move carried out has left the agenda (R220). -/
theorem step_transition {s t : State} (h : step s = .next t) :
    (∃ rest, s.agenda = .reset :: rest ∧ t = ({ s with agenda := rest } : State).resetBlock) ∨
    ∃ rest, ({ s with agenda := rest } : State).Transition t := by
  have hf : (fetch s).Answers t := step_next_cases h
  unfold fetch at hf
  split at hf
  case h_1 => exact .inr ⟨s.agenda, fetchBlock_transition hf⟩
  case h_2 offset rest _ => cases NextOp.answers_run hf; exact .inr ⟨rest, .readReg offset⟩
  case h_3 rest _ => exact .inr ⟨rest, fetchAccess_write_transition hf⟩
  case h_4 p i v rest _ =>
    split at hf
    · rcases hf with ⟨_, _, e, _⟩ | e <;> cases e
    · exact .inr ⟨rest, NextOp.answers_moved hf ▸ .fill p i v (Bool.eq_false_iff.mpr ‹_›)⟩
  case h_5 p i rest _ => exact .inr ⟨rest, NextOp.answers_moved hf ▸ .readByte p i⟩
  case h_6 rest _ => exact .inr ⟨rest, fetchParse_transition hf⟩
  case h_7 rest _ =>
    split at hf
    · exact .inr ⟨s.agenda, fetchBlock_transition hf⟩
    · exact .inr ⟨rest, fetchSegment_transition (Bool.eq_false_iff.mpr ‹_›) hf⟩
  case h_8 rest _ => exact .inr ⟨rest, fetchBlock_transition hf⟩
  case h_9 rest _ =>
    split at hf
    · exact .inr ⟨s.agenda, fetchBlock_transition hf⟩
    · exact .inr ⟨rest, NextOp.answers_moved hf ▸ .poll (Bool.eq_false_iff.mpr ‹_›)⟩
  case h_10 rest hr => exact .inl ⟨rest, hr, NextOp.answers_moved hf⟩

end Sys2Proof.Machine
end

section
/-! SUPPORT. The output over a step of a busy block (R33, R202, R230). -/

namespace Sys2Proof.Machine

/-- OUT and OUT_LEN are the same in both states. -/
def State.SameOut (s t : State) : Prop := t.out = s.out ∧ t.outLen = s.outLen

theorem State.SameOut.refl (s : State) : s.SameOut s := ⟨rfl, rfl⟩

theorem State.SameOut.of_eq {s t u : State} (h : t = u) (hu : s.SameOut u) : s.SameOut t := h ▸ hu

theorem State.SameOut.trans {s t u : State} (h1 : s.SameOut t) (h2 : t.SameOut u) : s.SameOut u :=
  ⟨h2.1.trans h1.1, h2.2.trans h1.2⟩

theorem State.SameBlock.sameOut {s t : State} (h : s.SameBlock t) : s.SameOut t :=
  .of_eq h ⟨rfl, rfl⟩

theorem State.hostReadByte_sameOut (s : State) (p : Port) (i : Nat) : s.SameOut (s.hostReadByte p i) :=
  .of_eq (s.hostReadByte_frame p i) ⟨rfl, rfl⟩

/-- START does nothing while busy (R223). -/
theorem State.startCommand_of_busy {s : State} (h : s.busy = true) : s.startCommand = s := if_pos h

/-- A register write does nothing while busy (R224). -/
theorem State.writeWord_of_busy {s : State} (h : s.busy = true) (offset data : Word) : s.writeWord offset data = s := if_pos h

theorem State.building_sameOut (s : State) (k : CodeSpace) (t : Table) (p : Word) (w : BitVec 3) : s.SameOut (s.building k t p w) :=
  ⟨s.setTable_out k t, s.setTable_outLen k t⟩

theorem State.afterBuild_sameOut (s : State) : s.SameOut s.afterBuild := by
  unfold State.afterBuild State.buildToDecode
  split
  · exact ⟨rfl, rfl⟩
  · exact ⟨rfl, rfl⟩
  · split <;> exact ⟨rfl, rfl⟩

/-- The BUILD step writes no output (R230). -/
theorem execBuildTable_sameOut {s t : State} (h : execBuildTable s = .next t) : s.SameOut t := by
  unfold execBuildTable at h
  rcases buildTable_cases s.buildIdx s with ⟨T, p, w, e, _, _⟩ | ⟨p, w, e⟩ | ⟨T, p, w, e, _⟩ <;> rw [e] at h <;> cases h
  · exact (s.building_sameOut _ T p w).trans (State.afterBuild_sameOut _)
  · exact s.building_sameOut _ Table.cleared p w
  · exact s.building_sameOut _ T p w

theorem decodeSymbol_done_sameOut {k : CodeSpace} {s t : State} {b : Byte} (h : decodeSymbol k s = .done b t) : s.SameOut t :=
  .of_eq (decodeSymbol_done_frame h) ⟨rfl, rfl⟩

theorem decodeSymbol_fatal_sameOut {k : CodeSpace} {s t : State} (h : decodeSymbol k s = .fatal t) : s.SameOut t :=
  .of_eq (decodeSymbol_fatal_frame h).2 ⟨rfl, rfl⟩

/-- The DECODE step writes no output (R230). -/
theorem execDecodeToken_sameOut {s t : State} (h : execDecodeToken s = .next t) : s.SameOut t := by
  rcases Res.finish_cases h with ⟨⟨⟩, u, e, rfl⟩ | e
  · obtain ⟨c, s1, lo, s2, hi, s3, h1, h2, h3, rfl⟩ := decodeToken_done e
    have hout : s.SameOut s3 := ((decodeSymbol_done_sameOut h1).trans (decodeSymbol_done_sameOut h2)).trans (decodeSymbol_done_sameOut h3)
    exact hout
  · rcases decodeToken_fatal e with h0 | ⟨c, s1, h0, h1⟩ | ⟨c, s1, lo, s2, h0, h1, h2⟩
    · exact decodeSymbol_fatal_sameOut h0
    · exact (decodeSymbol_done_sameOut h0).trans (decodeSymbol_fatal_sameOut h1)
    · exact ((decodeSymbol_done_sameOut h0).trans (decodeSymbol_done_sameOut h1)).trans (decodeSymbol_fatal_sameOut h2)

/-- A completed EXPAND_TOKEN writes no OUT byte at OUT_CAP or above, whatever OUT_LEN was (R200, R202). -/
theorem expandToken_done_above_cap {s t : State} (h : expandToken s = .done () t) (a : Nat) (ha : s.outCap.toNat ≤ a) :
    t.out.read a = s.out.read a := by
  have hcap := s.outCap.isLt
  rcases expandToken_cases s with e | ⟨c, e⟩ | ⟨o, c, e⟩ <;> rw [e] at h
  · cases h; rfl
  · rcases tokenLit_cases c s with ⟨_, e⟩ | ⟨_, _, e⟩ | ⟨_, hfit, e⟩ <;> rw [e] at h <;> cases h
    exact Memory.read_copyFrom_other _ _ _ _ _ _ (.inr (hfit.trans ha))
  · rcases tokenCopy_cases o c s with ⟨_, e⟩ | ⟨_, _, e⟩ | ⟨_, hfit, e⟩ <;> rw [e] at h <;> cases h
    obtain ⟨m, len, e, _, _, hread⟩ := copyBytes_frame (copyDistance o) (copyLength c) s (by omega)
    rw [e]
    exact hread a (.inr (hfit.trans ha))

/-- OUT_LEN does not fall, OUT changes in EXPAND only, between the old and the new OUT_LEN, and never at OUT_CAP or above. -/
structure State.OutputGrows (s t : State) : Prop where
  outLen : s.outLen.toNat ≤ t.outLen.toNat
  phase : s.phase ≠ .expand → t.out = s.out
  range : ∀ a, a < s.outLen.toNat ∨ t.outLen.toNat ≤ a → t.out.read a = s.out.read a
  cap : ∀ a, s.outCap.toNat ≤ a → t.out.read a = s.out.read a

theorem State.SameOut.outputGrows {s t : State} (h : s.SameOut t) : s.OutputGrows t :=
  ⟨h.2 ▸ le_rfl, fun _ => h.1, fun _ _ => h.1 ▸ rfl, fun _ _ => h.1 ▸ rfl⟩

/-- The EXPAND step writes between the old and the new OUT_LEN, inside OUT_CAP (R202). -/
theorem execExpandToken_outputGrows {s t : State} (hp : s.phase = .expand) (h : execExpandToken s = .next t) : s.OutputGrows t := by
  unfold execExpandToken at h
  rcases expandToken_effect s with ⟨m, len, pos, e, _, _, _, hlen, hread⟩ | ⟨kind, _, e⟩
  · have hcap := expandToken_done_above_cap e
    rw [e] at h
    cases h
    exact ⟨hlen, fun hn => absurd hp hn, hread, hcap⟩
  · rw [e] at h
    cases h
    exact State.SameOut.outputGrows ⟨rfl, rfl⟩

/-- Over every transition of a busy block the output only grows. -/
theorem State.Transition.outputGrows {s t : State} (hbusy : s.busy = true) (h : s.Transition t) : s.OutputGrows t := by
  cases h with
  | hostSide hblock => exact hblock.sameOut.outputGrows
  | readReg offset => exact State.SameOut.outputGrows ⟨s.hostReadReg_out offset, s.hostReadReg_outLen offset⟩
  | readByte p i => exact (s.hostReadByte_sameOut p i).outputGrows
  | start => exact (State.SameOut.of_eq (State.startCommand_of_busy hbusy) (.refl s)).outputGrows
  | writeReg offset data => exact (State.SameOut.of_eq (State.writeWord_of_busy hbusy offset data) (.refl s)).outputGrows
  | build _ he => exact (execBuildTable_sameOut he).outputGrows
  | decode _ _ he => exact (execDecodeToken_sameOut he).outputGrows
  | decoded => exact State.SameOut.outputGrows ⟨rfl, rfl⟩
  | expand hp _ he => exact execExpandToken_outputGrows hp he
  | complete => exact State.SameOut.outputGrows ⟨rfl, rfl⟩
  | poll hidle => exact absurd hbusy (Bool.eq_false_iff.mp hidle)
  | fill p i v hidle => exact absurd hbusy (Bool.eq_false_iff.mp hidle)
  | handOver cap hidle => exact absurd hbusy (Bool.eq_false_iff.mp hidle)

/-- Settles O54: a step that is no reset is a transition, and over those a busy block's output only grows (R33, R202, R230). -/
theorem outputOnlyGrows : Obligations.OutputOnlyGrows := by
  intro s t hbusy hnoReset hstep
  rcases step_transition hstep with ⟨rest, hreset, _⟩ | ⟨rest, htrans⟩
  · exact absurd hreset (hnoReset rest)
  · have hbusy' : ({ s with agenda := rest } : State).busy = true := hbusy
    obtain ⟨hlen, hphase, hrange, hcap⟩ := htrans.outputGrows hbusy'
    exact ⟨hlen, hphase, hrange, hcap⟩

end Sys2Proof.Machine
end

section
/-! SUPPORT. The invariant over a step: what it says in each phase, and how each update of a step keeps it. -/

namespace Sys2Proof.Machine

/-! ## The phase's clauses -/

theorem State.phaseInv_build {s : State} (hp : s.phase = .build) :
    s.PhaseInv ↔ s.tokIdx = 0#32 ∧ s.cdPos = 0 ∧ s.bitCnt = 0#5 ∧ s.litPos = 0#32 ∧ s.outLen = 0#32 := by
  simp only [State.PhaseInv, hp]

theorem State.phaseInv_decode {s : State} (hp : s.phase = .decode) :
    s.PhaseInv ↔ s.buildIdx = 2 ∧ s.tokCount.toNat ≤ s.maxTokens.toNat ∧ s.tokIdx.toNat ≤ s.tokCount.toNat ∧ s.litPos = 0#32 ∧
      s.outLen = 0#32 ∧ ∀ i < s.tokIdx.toNat, s.tok.holds i = true := by
  simp only [State.PhaseInv, hp]

theorem State.phaseInv_expand {s : State} (hp : s.phase = .expand) :
    s.PhaseInv ↔ s.buildIdx = 2 ∧ s.tokCount.toNat ≤ s.maxTokens.toNat ∧ s.tokIdx.toNat ≤ s.tokCount.toNat ∧
      ∀ i < s.tokCount.toNat, s.tok.holds i = true := by
  simp only [State.PhaseInv, hp]

theorem State.phaseInv_done {s : State} (hp : s.phase = .done) : s.PhaseInv ↔ s.buildIdx = 2 := by
  simp only [State.PhaseInv, hp]

theorem State.tablesReady_build {s : State} (hp : s.phase = .build) : s.TablesReady ↔ ∀ k < s.buildIdx, (s.table k).Sound := by
  simp only [State.TablesReady, hp]

theorem State.tablesReady_decode {s : State} (hp : s.phase = .decode) : s.TablesReady ↔ ∀ k, (s.table k).Sound := by
  simp only [State.TablesReady, hp]

theorem State.busy_of_build {s : State} (hp : s.phase = .build) : s.busy = true := by simp only [State.busy, hp, Phase.busy]
theorem State.busy_of_decode {s : State} (hp : s.phase = .decode) : s.busy = true := by simp only [State.busy, hp, Phase.busy]
theorem State.busy_of_expand {s : State} (hp : s.phase = .expand) : s.busy = true := by simp only [State.busy, hp, Phase.busy]

/-! ## Idle states -/

/-- Every memory of the state is in its canonical form. -/
def State.MemoriesWf (s : State) : Prop :=
  s.ht.wf = true ∧ s.cd.wf = true ∧ s.lit.wf = true ∧ s.out.wf = true ∧ s.outBefore.wf = true

/-- Outside the busy phases the clauses about cursors, output and tables say nothing. -/
theorem State.Inv.of_idle {s : State} (hidle : s.busy = false) (memories : s.MemoriesWf) (tokens : s.tok.wf = true)
    (errKind : s.errKind = .none ↔ s.phase ≠ .error) (errContext : s.phase ≠ .error → s.errIndex = 0#32 ∧ s.errTable = 0)
    (errTable : s.errKind ≠ .invalidPrefixCode → s.errKind ≠ .outOfCompressedData → s.errTable = 0)
    (bits : s.bitCnt.toNat ≤ 23 ∧ s.bitCnt.toNat ≤ 8 * s.cdPos) (done : s.phase = .done → s.buildIdx = 2) : s.Inv := by
  have hnot : ∀ {p : Prop}, s.busy = true → p := fun h => absurd h (Bool.eq_false_iff.mp hidle)
  refine ⟨memories, tokens, errKind, errContext, errTable, bits, hnot, hnot, hnot, ?_, ?_⟩ <;>
    cases hp : s.phase <;> simp_all [State.PhaseInv, State.TablesReady, State.busy, Phase.busy]

theorem State.Inv.done_buildIdx {s : State} (h : s.Inv) (hp : s.phase = .done) : s.buildIdx = 2 := (State.phaseInv_done hp).mp h.phase

/-- An error entry keeps the invariant where its context fits its kind (R24 to R26, R285). -/
theorem State.inv_raiseFatal {s : State} {kind : ErrKind} {i : Word} {k : CodeSpace} (memories : s.MemoriesWf) (tokens : s.tok.wf = true)
    (bits : s.bitCnt.toNat ≤ 23 ∧ s.bitCnt.toNat ≤ 8 * s.cdPos) (hkind : kind ≠ .none)
    (htable : kind ≠ .invalidPrefixCode → kind ≠ .outOfCompressedData → k = 0) : (s.raiseFatal kind i k).Inv :=
  .of_idle rfl memories tokens ⟨fun h => absurd h hkind, fun h => absurd rfl h⟩ (fun h => absurd rfl h) htable bits nofun

/-! ## Moves of the host -/

/-- The invariant does not speak of the front end and the host's own fields, but for the point of synchronisation while busy. -/
theorem State.Inv.host_update {s : State} (h : s.Inv) (fe : FrontEnd) (data : Word) (byte : Byte) (synced : Bool) (agenda : List HostMove)
    (free : Nat) (hsynced : s.busy = true → synced = false) :
    ({ s with fe := fe, hostData := data, hostByte := byte, outSynced := synced, agenda := agenda, free := free } : State).Inv :=
  { h with
    output := fun hb => ⟨hsynced hb, (h.output hb).2⟩
    cursor := fun hb => { h.cursor hb with } }

theorem State.Inv.of_eq {s t : State} (h : t = s) (hs : s.Inv) : t.Inv := h ▸ hs

theorem State.Inv.sameBlock {s t : State} (h : s.Inv) (hblock : s.SameBlock t) : t.Inv :=
  .of_eq hblock (h.host_update t.fe _ _ _ _ t.free fun hb => (h.output hb).1)

theorem State.Inv.hostReadByte {s : State} (h : s.Inv) (p : Port) (i : Nat) : (s.hostReadByte p i).Inv :=
  .of_eq (s.hostReadByte_frame p i) (h.host_update _ _ _ _ _ _ fun hb => (h.output hb).1)

/-- A read of STATUS does not show a run's end while the block is busy (R78). -/
theorem State.seeStatus_outSynced_of_busy {s : State} (hb : s.busy = true) (hs : s.outSynced = false) : s.seeStatus.outSynced = false := by
  cases hp : s.phase <;> simp_all [State.seeStatus, State.busy, Phase.busy]

theorem State.Inv.seeStatus {s : State} (h : s.Inv) : s.seeStatus.Inv :=
  h.host_update _ _ _ s.seeStatus.outSynced _ _ fun hb => State.seeStatus_outSynced_of_busy hb (h.output hb).1

theorem State.Inv.hostReadReg {s : State} (h : s.Inv) (offset : Word) : (s.hostReadReg offset).Inv := by
  have hread : ({ s with hostData := s.readWord offset } : State).Inv := h.host_update _ _ _ _ _ _ fun hb => (h.output hb).1
  unfold State.hostReadReg
  dsimp only
  split
  · exact hread.seeStatus
  · exact hread

/-- A START's state meets the invariant: every cursor is 0 and OUT is as the run finds it (R222). -/
theorem State.inv_beginRun {s : State} (hht : s.ht.wf = true) (hcd : s.cd.wf = true) (hlit : s.lit.wf = true) (hout : s.out.wf = true)
    (tokens : s.tok.wf = true) : s.beginRun.Inv where
  memories := ⟨hht, hcd, hlit, hout, hout⟩
  tokens := tokens
  errKind := ⟨fun _ => nofun, fun _ => rfl⟩
  errContext _ := ⟨rfl, rfl⟩
  errTable _ _ := rfl
  bits := ⟨Nat.zero_le _, Nat.zero_le _⟩
  bounds _ := ⟨Nat.zero_le _, Nat.zero_le _, Nat.zero_le _, Nat.zero_le _⟩
  output _ := ⟨rfl, fun _ _ => rfl⟩
  cursor _ := ⟨Nat.zero_le _, Nat.zero_le _, fun j hj => absurd hj (Nat.not_lt_zero j)⟩
  phase := (State.phaseInv_build rfl).mpr ⟨rfl, rfl, rfl, rfl, rfl⟩
  tables := (State.tablesReady_build rfl).mpr fun k hk => absurd hk (Nat.not_lt_zero k.val)

theorem State.Inv.beginRun {s : State} (h : s.Inv) : s.beginRun.Inv := by
  obtain ⟨hht, hcd, hlit, hout, _⟩ := h.memories
  exact State.inv_beginRun hht hcd hlit hout h.tokens

theorem State.Inv.startCommand {s : State} (h : s.Inv) : s.startCommand.Inv := by
  rcases s.startCommand_cases with ⟨_, e⟩ | ⟨_, e⟩ <;> rw [e]
  · exact h
  · exact h.beginRun

/-- The five RW registers may hold anything while the block is idle (R224). -/
theorem State.Inv.register_update {s : State} (h : s.Inv) (hidle : s.busy = false) (htLen cdLen tokCount litLen outCap : Word) :
    ({ s with htLen := htLen, cdLen := cdLen, tokCount := tokCount, litLen := litLen, outCap := outCap } : State).Inv :=
  .of_idle hidle h.memories h.tokens h.errKind h.errContext h.errTable h.bits h.done_buildIdx

theorem State.Inv.writeWord {s : State} (h : s.Inv) (offset data : Word) : (s.writeWord offset data).Inv := by
  rcases s.writeWord_cases offset data with e | ⟨hidle, e | e | e | e | e | e⟩ <;> rw [e]
  · exact h
  · exact h.register_update hidle _ _ _ _ _
  · exact h.register_update hidle _ _ _ _ _
  · exact h.register_update hidle _ _ _ _ _
  · exact h.register_update hidle _ _ _ _ _
  · exact h.register_update hidle _ _ _ _ _
  · exact h.beginRun

/-- The buffers may be replaced by others in canonical form while the block is idle (R76). -/
theorem State.Inv.buffer_update {s : State} (h : s.Inv) (hidle : s.busy = false) {ht cd lit out outBefore : Memory} (hht : ht.wf = true)
    (hcd : cd.wf = true) (hlit : lit.wf = true) (hout : out.wf = true) (hbefore : outBefore.wf = true) :
    ({ s with ht := ht, cd := cd, lit := lit, out := out, outBefore := outBefore } : State).Inv :=
  .of_idle hidle ⟨hht, hcd, hlit, hout, hbefore⟩ h.tokens h.errKind h.errContext h.errTable h.bits h.done_buildIdx

theorem State.Inv.fillByte {s : State} (h : s.Inv) (hidle : s.busy = false) (p : Port) (i : Nat) (v : Byte) : (s.fillByte p i v).Inv := by
  obtain ⟨hht, hcd, hlit, hout, hbefore⟩ := h.memories
  cases p with
  | ht => exact h.buffer_update hidle (Memory.write_wf _ i v hht) hcd hlit hout hbefore
  | cd => exact h.buffer_update hidle hht (Memory.write_wf _ i v hcd) hlit hout hbefore
  | lit => exact h.buffer_update hidle hht hcd (Memory.write_wf _ i v hlit) hout hbefore
  | out => exact h.buffer_update hidle hht hcd hlit (Memory.write_wf _ i v hout) (Memory.write_wf _ i v hbefore)

theorem State.Inv.handOver {s : State} (h : s.Inv) (outCap : Word) : (s.loadSegment outCap).beginRun.Inv := by
  obtain ⟨hht, hcd, hlit, hout, _⟩ := h.memories
  exact State.inv_beginRun (Memory.writeBytes_wf _ _ 0 hht) (Memory.writeBytes_wf _ _ 0 hcd) (Memory.writeBytes_wf _ _ 0 hlit) hout h.tokens

/-- A reset's state meets the invariant: no register holds anything and the buffers are kept (R310). -/
theorem State.Inv.resetBlock {s : State} (h : s.Inv) : s.resetBlock.Inv :=
  .of_idle rfl h.memories rfl ⟨fun _ => nofun, fun _ => rfl⟩ (fun _ => ⟨rfl, rfl⟩) (fun _ _ => rfl) ⟨Nat.zero_le _, Nat.zero_le _⟩ nofun

end Sys2Proof.Machine
end

section
/-! SUPPORT. The invariant over the sequencer's operations, and over every step. -/

namespace Sys2Proof.Machine

/-! ## BUILD_TABLE -/

/-- A build writes T[k], HT_POS and WARN only. -/
theorem State.building_frame (s : State) (k : CodeSpace) (T : Table) (p : Word) (w : BitVec 3) :
    s.building k T p w =
      { s with t0 := (s.building k T p w).t0, t1 := (s.building k T p w).t1, t2 := (s.building k T p w).t2, htPos := p, warn := w } := by
  match k with
  | 0 => rfl
  | 1 => rfl
  | 2 => rfl

theorem State.table_building (s : State) (k j : CodeSpace) (T : Table) (p : Word) (w : BitVec 3) :
    (s.building k T p w).table j = if j = k then T else s.table j := s.table_setTable k j T

/-- A record read inside HT keeps the invariant: the tables below BUILD_IDX stay as they are (R43). -/
theorem State.Inv.building {s : State} (h : s.Inv) (hp : s.phase = .build) {T : Table} {p : Word} {w : BitVec 3}
    (hpos : p.toNat ≤ s.htLen.toNat) : (s.building s.buildIdx T p w).Inv := by
  have hframe := s.building_frame s.buildIdx T p w
  have htables : ∀ k < s.buildIdx, ((s.building s.buildIdx T p w).table k).Sound := fun k hk => by
    rw [State.table_building, if_neg (ne_of_lt hk)]
    exact (State.tablesReady_build hp).mp h.tables k hk
  have hphase := (State.phaseInv_build hp).mp h.phase
  rw [hframe] at htables ⊢
  exact { h with
    bounds := fun hb => ⟨hpos, (h.bounds hb).2⟩
    cursor := fun hb => { h.cursor hb with }
    phase := Iff.mpr (State.phaseInv_build hp) hphase
    tables := Iff.mpr (State.tablesReady_build hp) htables }

theorem State.Inv.building_raiseFatal {s : State} (h : s.Inv) (k : CodeSpace) (T : Table) (p : Word) (w : BitVec 3) {kind : ErrKind}
    (hkind : kind ≠ .none) (i : Word) : ((s.building k T p w).raiseFatal kind i 0).Inv := by
  rw [State.building_frame]
  exact State.inv_raiseFatal h.memories h.tokens h.bits hkind fun _ _ => rfl

/-- BUILD_IDX may move to where all tables below it are built (R44, R229). -/
theorem State.Inv.buildIdx_update {s : State} (h : s.Inv) (hp : s.phase = .build) {j : CodeSpace} (htables : ∀ k < j, (s.table k).Sound) :
    ({ s with buildIdx := j } : State).Inv :=
  { h with
    cursor := fun hb => { h.cursor hb with }
    phase := Iff.mpr (State.phaseInv_build hp) ((State.phaseInv_build hp).mp h.phase)
    tables := Iff.mpr (State.tablesReady_build hp) htables }

/-- The phase change after the last build, or TOKEN_CAPACITY (R234). -/
theorem State.Inv.buildToDecode {s : State} (h : s.Inv) (hp : s.phase = .build) (hidx : s.buildIdx = 2)
    (htables : ∀ k, (s.table k).Sound) : s.buildToDecode.Inv := by
  have hb := State.busy_of_build hp
  obtain ⟨_, _, _, hlit, hout⟩ := (State.phaseInv_build hp).mp h.phase
  have hnone : s.errKind = .none := h.errKind.mpr (hp ▸ nofun)
  unfold State.buildToDecode
  split
  · exact State.inv_raiseFatal h.memories h.tokens h.bits nofun fun _ _ => rfl
  · rename_i hfit
    exact { h with
      errKind := ⟨fun _ => nofun, fun _ => hnone⟩
      errContext := fun _ => h.errContext (hp ▸ nofun)
      bounds := fun _ => h.bounds hb
      output := fun _ => h.output hb
      cursor := fun _ => { h.cursor hb with }
      phase := (State.phaseInv_decode rfl).mpr
        ⟨hidx, Nat.le_of_not_lt hfit, Nat.zero_le _, hlit, hout, fun i hi => absurd hi (Nat.not_lt_zero i)⟩
      tables := (State.tablesReady_decode rfl).mpr htables }

/-- With the table of BUILD_IDX built, the sequencer moves on to the next code space or to DECODE (R229, R234). -/
theorem State.Inv.afterBuild {s : State} (h : s.Inv) (hp : s.phase = .build) (htable : (s.table s.buildIdx).Sound) :
    s.afterBuild.Inv := by
  have hbuilt : ∀ k ≤ s.buildIdx, (s.table k).Sound := fun k hk =>
    (lt_or_eq_of_le hk).elim ((State.tablesReady_build hp).mp h.tables k) (· ▸ htable)
  unfold State.afterBuild
  split <;> rename_i hidx <;> rw [hidx] at hbuilt
  · exact h.buildIdx_update hp fun k hk => hbuilt k (Nat.le_of_lt_succ hk)
  · exact h.buildIdx_update hp fun k hk => hbuilt k (Nat.le_of_lt_succ hk)
  · exact h.buildToDecode hp hidx fun k => hbuilt k (Nat.le_of_lt_succ k.isLt)

theorem State.Inv.execBuildTable {s t : State} (h : s.Inv) (hp : s.phase = .build) (he : execBuildTable s = .next t) : t.Inv := by
  unfold Machine.execBuildTable at he
  rcases buildTable_cases s.buildIdx s with ⟨T, p, w, e, hsound, hpos⟩ | ⟨p, w, e⟩ | ⟨T, p, w, e, _⟩ <;> rw [e] at he <;> cases he
  · have hframe := s.building_frame s.buildIdx T p w
    refine (h.building hp hpos).afterBuild (hframe ▸ hp) ?_
    rw [State.table_building, if_pos (congrArg State.buildIdx hframe :)]
    exact hsound
  · exact h.building_raiseFatal _ _ p w (by decide) _
  · exact h.building_raiseFatal _ T p w (by decide) _

/-! ## DECODE_TOKEN -/

/-- A completed lookup of the DECODE phase leaves a cursor that shows the stream, with no bit past CD_LEN consumed (R155, R156). -/
theorem decodeSymbol_done_cursorInv {k : CodeSpace} {s u : State} {b : Byte} (hc : s.CursorInv) (hsound : (s.table k).Sound)
    (he : decodeSymbol k s = .done b u) : u.CursorInv ∧ 8 * u.cdPos ≤ 8 * s.cdLen.toNat + u.bitCnt.toNat := by
  have hr := s.refill_cursorInv hc
  have hstream : u.streamBit = s.refill.streamBit := by
    rw [decodeSymbol_done_frame he, State.refill_streamBit]; rfl
  obtain ⟨len, _, _, hcnt, hpos, hbuf, hend⟩ := decodeSymbol_done_bits he hsound hc.range
  refine ⟨⟨?_, ?_, fun j hj => ?_⟩, hend⟩
  · have := hr.range; omega
  · have := hr.shifted; omega
  · rw [hbuf, hstream, hpos]
    exact hr.shows j (by omega)

theorem decodeSymbol_done_inv {k : CodeSpace} {s u : State} {b : Byte} (h : s.Inv) (hp : s.phase = .decode)
    (he : decodeSymbol k s = .done b u) : u.Inv := by
  have hb := State.busy_of_decode hp
  have hphase := (State.phaseInv_decode hp).mp h.phase
  have htables := (State.tablesReady_decode hp).mp h.tables
  obtain ⟨hcursor, hend⟩ := decodeSymbol_done_cursorInv (h.cursor hb) (htables k) he
  obtain ⟨hht, hlit, hout, _⟩ := h.bounds hb
  have hframe := decodeSymbol_done_frame he
  generalize u.bitBuf = buf, u.bitCnt = cnt, u.cdPos = pos at hframe hend
  subst hframe
  exact { h with
    bits := ⟨hcursor.range, hcursor.shifted⟩
    bounds := fun _ => ⟨hht, hlit, hout, by unfold State.consumed; dsimp only; omega⟩
    cursor := fun _ => hcursor
    phase := Iff.mpr (State.phaseInv_decode hp) hphase
    tables := Iff.mpr (State.tablesReady_decode hp) htables }

/-- A failing lookup leaves its error over the refilled cursor (R158). -/
theorem decodeSymbol_fatal_inv {k : CodeSpace} {s u : State} (h : s.Inv) (he : decodeSymbol k s = .fatal u) : u.Inv := by
  have hbits := s.refill_bits h.bits.1
  have hshifted := h.bits.2
  have hrefill : s.refill.bitCnt.toNat ≤ 23 ∧ s.refill.bitCnt.toNat ≤ 8 * s.refill.cdPos := by omega
  have hmem : s.refill.MemoriesWf := by rw [State.refill_frame]; exact h.memories
  have htok : s.refill.tok.wf = true := by rw [State.refill_frame]; exact h.tokens
  rcases decodeSymbol_cases k s with ⟨_, e⟩ | ⟨_, _, e⟩ | ⟨_, _, e⟩ <;> rw [e] at he <;> cases he
  · exact State.inv_raiseFatal hmem htok hrefill nofun fun hne => absurd rfl hne
  · exact State.inv_raiseFatal hmem htok hrefill nofun fun _ hne => absurd rfl hne

theorem Word.toNat_succ_of_lt {a b : Word} (h : a.toNat < b.toNat) : (a + 1#32).toNat = a.toNat + 1 := by
  have := b.isLt
  rw [BitVec.toNat_add, BitVec.toNat_ofNat]
  omega

/-- The store of a decoded token and the sequencer's TOK_IDX + 1 keep the invariant: the tokens below TOK_IDX are written (R46, R231). -/
theorem State.Inv.storeToken_advanceToken {s : State} (h : s.Inv) (hp : s.phase = .decode) (hi : s.tokIdx.toNat < s.tokCount.toNat)
    (c lo high : Byte) : (s.storeToken c lo high).advanceToken.Inv := by
  have hsucc := Word.toNat_succ_of_lt hi
  obtain ⟨hidx, hmax, _, hlit, hout, hholds⟩ := (State.phaseInv_decode hp).mp h.phase
  have hwritten : ∀ i < (s.tokIdx + 1#32).toNat, (s.storeToken c lo high).tok.holds i = true := fun i hlt => by
    rw [State.storeToken_tok, TokenStore.holds_write, Bool.or_eq_true, decide_eq_true_eq]
    exact (Nat.eq_or_lt_of_le (show i ≤ s.tokIdx.toNat by omega)).imp Eq.symm (hholds i)
  exact { h with
    tokens := TokenStore.write_wf _ _ _ h.tokens
    cursor := fun hb => { h.cursor hb with }
    phase := Iff.mpr (State.phaseInv_decode hp) ⟨hidx, hmax, hsucc.trans_le hi, hlit, hout, hwritten⟩
    tables := Iff.mpr (State.tablesReady_decode hp) ((State.tablesReady_decode hp).mp h.tables) }

/-- A completed lookup stays at the token it began with. -/
theorem decodeSymbol_done_sequencer {k : CodeSpace} {s u : State} {b : Byte} (he : decodeSymbol k s = .done b u) :
    u.phase = s.phase ∧ u.tokIdx = s.tokIdx ∧ u.tokCount = s.tokCount := by
  rw [decodeSymbol_done_frame he]
  exact ⟨rfl, rfl, rfl⟩

theorem State.Inv.execDecodeToken {s t : State} (h : s.Inv) (hp : s.phase = .decode) (hi : s.tokIdx.toNat < s.tokCount.toNat)
    (he : execDecodeToken s = .next t) : t.Inv := by
  rcases Res.finish_cases he with ⟨⟨⟩, u, e, rfl⟩ | e
  · obtain ⟨c, s1, lo, s2, high, s3, e1, e2, e3, rfl⟩ := decodeToken_done e
    obtain ⟨hp1, hidx1, hcount1⟩ := decodeSymbol_done_sequencer e1
    obtain ⟨hp2, hidx2, hcount2⟩ := decodeSymbol_done_sequencer e2
    obtain ⟨hp3, hidx3, hcount3⟩ := decodeSymbol_done_sequencer e3
    have h1 := decodeSymbol_done_inv h hp e1
    have h2 := decodeSymbol_done_inv h1 (hp1.trans hp) e2
    have h3 := decodeSymbol_done_inv h2 (hp2.trans (hp1.trans hp)) e3
    refine h3.storeToken_advanceToken (hp3.trans (hp2.trans (hp1.trans hp))) ?_ c lo high
    rw [hidx3, hidx2, hidx1, hcount3, hcount2, hcount1]
    exact hi
  · rcases decodeToken_fatal e with e0 | ⟨c, s1, e0, e1⟩ | ⟨c, s1, lo, s2, e0, e1, e2⟩
    · exact decodeSymbol_fatal_inv h e0
    · exact decodeSymbol_fatal_inv (decodeSymbol_done_inv h hp e0) e1
    · have hp1 := (decodeSymbol_done_sequencer e0).1.trans hp
      exact decodeSymbol_fatal_inv (decodeSymbol_done_inv (decodeSymbol_done_inv h hp e0) hp1 e1) e2

/-- The phase change to EXPAND: all tokens below TOK_COUNT are written (R46, R232). -/
theorem State.Inv.decodeToExpand {s : State} (h : s.Inv) (hp : s.phase = .decode) (hi : s.tokIdx.toNat = s.tokCount.toNat) :
    ({ s with phase := .expand, tokIdx := 0#32 } : State).Inv := by
  have hb := State.busy_of_decode hp
  obtain ⟨hidx, hmax, _, _, _, hholds⟩ := (State.phaseInv_decode hp).mp h.phase
  have hnone : s.errKind = .none := h.errKind.mpr (hp ▸ nofun)
  exact { h with
    errKind := ⟨fun _ => nofun, fun _ => hnone⟩
    errContext := fun _ => h.errContext (hp ▸ nofun)
    bounds := fun _ => h.bounds hb
    output := fun _ => h.output hb
    cursor := fun _ => { h.cursor hb with }
    phase := (State.phaseInv_expand rfl).mpr ⟨hidx, hmax, Nat.zero_le _, hi ▸ hholds⟩
    tables := (State.tablesReady_decode hp).mp h.tables }

/-! ## EXPAND_TOKEN and COMPLETE -/

/-- A token's output and the sequencer's TOK_IDX + 1 keep the invariant: OUT at the new OUT_LEN and above is as before the run (R202, R235). -/
theorem State.Inv.setOut_advanceToken {s : State} (h : s.Inv) (hp : s.phase = .expand) (hi : s.tokIdx.toNat < s.tokCount.toNat) {m : Memory}
    {len pos : Word} (hm : m.wf = true) (hcap : len.toNat ≤ s.outCap.toNat) (hlit : pos.toNat ≤ s.litLen.toNat)
    (hlen : s.outLen.toNat ≤ len.toNat) (hread : ∀ a, len.toNat ≤ a → m.read a = s.out.read a) :
    ({ s.setOut m len with litPos := pos } : State).advanceToken.Inv := by
  have hb := State.busy_of_expand hp
  have hsucc := Word.toNat_succ_of_lt hi
  obtain ⟨hht, hcd, hlitWf, _, hbefore⟩ := h.memories
  obtain ⟨hpos, _, _, hconsumed⟩ := h.bounds hb
  obtain ⟨hsynced, hkept⟩ := h.output hb
  obtain ⟨hidx, hmax, _, hholds⟩ := (State.phaseInv_expand hp).mp h.phase
  exact { h with
    memories := ⟨hht, hcd, hlitWf, hm, hbefore⟩
    bounds := fun _ => ⟨hpos, hlit, hcap, hconsumed⟩
    output := fun _ => ⟨hsynced, fun a ha => (hread a ha).trans (hkept a (hlen.trans ha))⟩
    cursor := fun _ => { h.cursor hb with }
    phase := Iff.mpr (State.phaseInv_expand hp) ⟨hidx, hmax, hsucc.trans_le hi, hholds⟩ }

theorem State.Inv.execExpandToken {s t : State} (h : s.Inv) (hp : s.phase = .expand) (hi : s.tokIdx.toNat < s.tokCount.toNat)
    (he : execExpandToken s = .next t) : t.Inv := by
  obtain ⟨_, hlit, hout, _⟩ := h.bounds (State.busy_of_expand hp)
  obtain ⟨_, _, _, hwf, _⟩ := h.memories
  unfold Machine.execExpandToken at he
  rcases expandToken_effect s with ⟨m, len, pos, e, hm, hcap, hpos, hlen, hread⟩ | ⟨kind, hkind, e⟩ <;> rw [e] at he <;> cases he
  · exact h.setOut_advanceToken hp hi (hm hwf) (hcap hout) (hpos hlit) hlen fun a ha => hread a (.inr ha)
  · refine State.inv_raiseFatal h.memories h.tokens h.bits ?_ fun _ _ => rfl
    rcases hkind with rfl | rfl | rfl <;> nofun

/-- The end of a run keeps the invariant (R236). -/
theorem State.Inv.complete {s : State} (h : s.Inv) (hp : s.phase = .expand) : ({ s with phase := .done } : State).Inv := by
  obtain ⟨hidx, _⟩ := (State.phaseInv_expand hp).mp h.phase
  have hnone : s.errKind = .none := h.errKind.mpr (hp ▸ nofun)
  exact .of_idle rfl h.memories h.tokens ⟨fun _ => nofun, fun _ => hnone⟩ (fun _ => h.errContext (hp ▸ nofun)) h.errTable h.bits fun _ => hidx

/-! ## Every step -/

/-- Every transition keeps the invariant. -/
theorem State.Transition.inv {s t : State} (h : s.Inv) (ht : s.Transition t) : t.Inv := by
  cases ht with
  | hostSide hblock => exact h.sameBlock hblock
  | readReg offset => exact h.hostReadReg offset
  | readByte p i => exact h.hostReadByte p i
  | poll => exact h.seeStatus
  | start => exact h.startCommand
  | writeReg offset data => exact h.writeWord offset data
  | fill p i v hidle => exact h.fillByte hidle p i v
  | handOver cap => exact h.handOver cap
  | build hp he => exact h.execBuildTable hp he
  | decode hp hi he => exact h.execDecodeToken hp hi he
  | decoded hp hi => exact h.decodeToExpand hp hi
  | expand hp hi he => exact h.execExpandToken hp hi he
  | complete hp => exact h.complete hp

/-- Settles O47: a step takes a move off the agenda and then is a reset or a transition, each of which keeps the invariant. -/
theorem stepKeepsTheInvariant : Obligations.StepKeepsTheInvariant := by
  intro s t h hstep
  have hagenda : ∀ rest, ({ s with agenda := rest } : State).Inv := fun rest =>
    h.host_update _ _ _ _ rest _ fun hb => (h.output hb).1
  rcases step_transition hstep with ⟨rest, _, rfl⟩ | ⟨rest, htrans⟩
  · exact (hagenda rest).resetBlock
  · exact htrans.inv (hagenda rest)

end Sys2Proof.Machine
end

section
/-! SUPPORT. Steps of the block: they write the block's own registers, tables, tokens and OUT, and nothing of the host's (R61, R220, R224). -/

namespace Sys2Proof.Machine

/-- The input buffers, the five RW registers, MAX_TOKENS and the host's own fields are the same in both states. -/
def State.KeepsHostSide (s t : State) : Prop :=
  t = { t with
    ht := s.ht, cd := s.cd, lit := s.lit
    htLen := s.htLen, cdLen := s.cdLen, tokCount := s.tokCount, litLen := s.litLen, outCap := s.outCap
    maxTokens := s.maxTokens, fe := s.fe, hostData := s.hostData, hostByte := s.hostByte
    outBefore := s.outBefore, outSynced := s.outSynced, agenda := s.agenda, free := s.free }

theorem State.KeepsHostSide.of_eq {s t u : State} (h : t = u) (hu : s.KeepsHostSide u) : s.KeepsHostSide t := h ▸ hu

theorem State.KeepsHostSide.trans {s t u : State} (h1 : s.KeepsHostSide t) (h2 : t.KeepsHostSide u) : s.KeepsHostSide u := by
  unfold State.KeepsHostSide at *
  rw [h2, h1]

theorem State.KeepsHostSide.agenda {s t : State} (h : s.KeepsHostSide t) : t.agenda = s.agenda := (congrArg State.agenda h :)

theorem State.building_keepsHostSide (s : State) (k : CodeSpace) (T : Table) (p : Word) (w : BitVec 3) :
    s.KeepsHostSide (s.building k T p w) :=
  .of_eq (s.building_frame k T p w) rfl

theorem State.afterBuild_keepsHostSide (s : State) : s.KeepsHostSide s.afterBuild := by
  unfold State.afterBuild State.buildToDecode
  split
  · rfl
  · rfl
  · split <;> rfl

theorem execBuildTable_keepsHostSide {s t : State} (h : execBuildTable s = .next t) : s.KeepsHostSide t := by
  unfold execBuildTable at h
  rcases buildTable_cases s.buildIdx s with ⟨T, p, w, e, _, _⟩ | ⟨p, w, e⟩ | ⟨T, p, w, e, _⟩ <;> rw [e] at h <;> cases h
  · exact (s.building_keepsHostSide _ T p w).trans (State.afterBuild_keepsHostSide _)
  · exact (s.building_keepsHostSide _ Table.cleared p w).trans rfl
  · exact (s.building_keepsHostSide _ T p w).trans rfl

theorem decodeSymbol_done_keepsHostSide {k : CodeSpace} {s t : State} {b : Byte} (h : decodeSymbol k s = .done b t) :
    s.KeepsHostSide t :=
  .of_eq (decodeSymbol_done_frame h) rfl

theorem decodeSymbol_fatal_keepsHostSide {k : CodeSpace} {s t : State} (h : decodeSymbol k s = .fatal t) : s.KeepsHostSide t :=
  .of_eq (decodeSymbol_fatal_frame h).2 rfl

theorem execDecodeToken_keepsHostSide {s t : State} (h : execDecodeToken s = .next t) : s.KeepsHostSide t := by
  rcases Res.finish_cases h with ⟨⟨⟩, u, e, rfl⟩ | e
  · obtain ⟨c, s1, lo, s2, hi, s3, h1, h2, h3, rfl⟩ := decodeToken_done e
    have hlookups : s.KeepsHostSide s3 :=
      ((decodeSymbol_done_keepsHostSide h1).trans (decodeSymbol_done_keepsHostSide h2)).trans (decodeSymbol_done_keepsHostSide h3)
    exact hlookups.trans rfl
  · rcases decodeToken_fatal e with h0 | ⟨c, s1, h0, h1⟩ | ⟨c, s1, lo, s2, h0, h1, h2⟩
    · exact decodeSymbol_fatal_keepsHostSide h0
    · exact (decodeSymbol_done_keepsHostSide h0).trans (decodeSymbol_fatal_keepsHostSide h1)
    · exact ((decodeSymbol_done_keepsHostSide h0).trans (decodeSymbol_done_keepsHostSide h1)).trans (decodeSymbol_fatal_keepsHostSide h2)

theorem execExpandToken_keepsHostSide {s t : State} (h : execExpandToken s = .next t) : s.KeepsHostSide t := by
  unfold execExpandToken at h
  rcases expandToken_effect s with ⟨m, len, pos, e, _⟩ | ⟨kind, _, e⟩ <;> rw [e] at h <;> cases h
  · rfl
  · rfl

/-- No block step touches the host's side. -/
theorem fetchBlock_keepsHostSide {s t : State} (h : (fetchBlock s).Answers t) : s.KeepsHostSide t := by
  rcases fetchBlock_cases s with ⟨_, e⟩ | ⟨_, e⟩ | ⟨_, _, e⟩ | ⟨_, _, e⟩ | ⟨_, _, e⟩ | ⟨_, _, e⟩ | ⟨_, _, e⟩ <;>
    rw [e] at h
  · exact .of_eq (NextOp.answers_moved h) rfl
  · exact execBuildTable_keepsHostSide (NextOp.answers_run h)
  · exact execDecodeToken_keepsHostSide (NextOp.answers_run h)
  · cases NextOp.answers_run h; rfl
  · exact execExpandToken_keepsHostSide (NextOp.answers_run h)
  · cases NextOp.answers_run h; rfl
  · exact absurd h NextOp.not_answers_stuck

/-- With no host move to make, the step is a block step (R220). -/
theorem fetch_of_no_moves {s : State} (h : s.agenda = []) : fetch s = fetchBlock s := by
  unfold fetch
  rw [h]

/-- A block step adds no move to the agenda. -/
theorem step_agenda_of_no_moves {s t : State} (h : s.agenda = []) (hstep : step s = .next t) : t.agenda = [] := by
  have hf : (fetch s).Answers t := step_next_cases hstep
  rw [fetch_of_no_moves h] at hf
  exact (fetchBlock_keepsHostSide hf).agenda.trans h

end Sys2Proof.Machine
end

section
/-! SUPPORT. Two states of one run: what `State.SameRun` says of each register, and the updates that keep it (R62, R238). -/

namespace Sys2Proof.Machine

/-! ## Registers as software reads them determine the registers -/

theorem Phase.code_injective : Function.Injective Phase.code :=
  Function.LeftInverse.injective (g := fun c => Phase.ofNat c.toNat) fun p => by cases p <;> rfl

theorem ErrKind.code_injective : Function.Injective ErrKind.code :=
  Function.LeftInverse.injective (g := fun c => ErrKind.ofNat c.toNat) fun k => by cases k <;> rfl

theorem setWidth_word_injective {n : Nat} (hn : n ≤ 32) : Function.Injective (BitVec.setWidth (w := n) 32) := fun x y h =>
  BitVec.eq_of_toNat_eq <| by
    rw [← BitVec.toNat_setWidth_of_le (b := x) hn, ← BitVec.toNat_setWidth_of_le (b := y) hn, h]

theorem spaceIndex_injective : Function.Injective spaceIndex := by decide

/-- The state that holds the registers of `s` and, for all else, what `u` holds. -/
def State.over (s u : State) : State :=
  { u with
    phase := s.phase, errKind := s.errKind, errIndex := s.errIndex, errTable := s.errTable, warn := s.warn
    htLen := s.htLen, cdLen := s.cdLen, tokCount := s.tokCount, litLen := s.litLen, outCap := s.outCap, outLen := s.outLen
    buildIdx := s.buildIdx, tokIdx := s.tokIdx, htPos := s.htPos
    cdPos := s.cdPos, bitCnt := s.bitCnt, bitBuf := s.bitBuf, litPos := s.litPos, maxTokens := s.maxTokens }

/-- Both states hold the same registers, the bit cursor and MAX_TOKENS included. -/
def State.SameRegs (s s' : State) : Prop := s' = s.over s'

theorem State.SameRun.regs {s s' : State} (h : s.SameRun s') : s.SameRegs s' := by
  have hphase : s.phase = s'.phase := Phase.code_injective (setWidth_word_injective (by decide) (h.registers .status))
  have herrKind : s.errKind = s'.errKind := ErrKind.code_injective (setWidth_word_injective (by decide) (h.registers .errKind))
  have herrIndex : s.errIndex = s'.errIndex := h.registers .errIndex
  have herrTable : s.errTable = s'.errTable := spaceIndex_injective (h.registers .errTable)
  have hwarn : s.warn = s'.warn := setWidth_word_injective (by decide) (h.registers .warn)
  have hhtLen : s.htLen = s'.htLen := h.registers .htLen
  have hcdLen : s.cdLen = s'.cdLen := h.registers .cdLen
  have htokCount : s.tokCount = s'.tokCount := h.registers .tokCount
  have hlitLen : s.litLen = s'.litLen := h.registers .litLen
  have houtCap : s.outCap = s'.outCap := h.registers .outCap
  have houtLen : s.outLen = s'.outLen := h.registers .outLen
  have hbuildIdx : s.buildIdx = s'.buildIdx := spaceIndex_injective (h.registers .buildIdx)
  have htokIdx : s.tokIdx = s'.tokIdx := h.registers .tokIdx
  have hhtPos : s.htPos = s'.htPos := h.registers .htPos
  have hbitCnt : s.bitCnt = s'.bitCnt := setWidth_word_injective (by decide) (h.registers .bitCnt)
  have hbitBuf : s.bitBuf = s'.bitBuf := h.registers .bitBuf
  have hlitPos : s.litPos = s'.litPos := h.registers .litPos
  rw [State.SameRegs, State.over, hphase, herrKind, herrIndex, herrTable, hwarn, hhtLen, hcdLen, htokCount, hlitLen, houtCap, houtLen,
    hbuildIdx, htokIdx, hhtPos, h.cursor, hbitCnt, hbitBuf, hlitPos, h.capacity]

namespace State.SameRegs

variable {s s' : State} (h : s.SameRegs s')
include h

/-- An update that goes by the registers only keeps them the same. -/
theorem map (f : State → State) (hf : f (s.over s') = (f s).over (f s')) : (f s).SameRegs (f s') := (congrArg f h).trans hf

theorem regValue (r : Reg) : s.regValue r = s'.regValue r := by
  rw [h]
  cases r <;> rfl

theorem htLen : s'.htLen = s.htLen := (congrArg State.htLen h :)
theorem cdLen : s'.cdLen = s.cdLen := (congrArg State.cdLen h :)
theorem tokCount : s'.tokCount = s.tokCount := (congrArg State.tokCount h :)
theorem litLen : s'.litLen = s.litLen := (congrArg State.litLen h :)
theorem outCap : s'.outCap = s.outCap := (congrArg State.outCap h :)
theorem outLen : s'.outLen = s.outLen := (congrArg State.outLen h :)
theorem buildIdx : s'.buildIdx = s.buildIdx := (congrArg State.buildIdx h :)
theorem tokIdx : s'.tokIdx = s.tokIdx := (congrArg State.tokIdx h :)
theorem htPos : s'.htPos = s.htPos := (congrArg State.htPos h :)
theorem cdPos : s'.cdPos = s.cdPos := (congrArg State.cdPos h :)
theorem bitCnt : s'.bitCnt = s.bitCnt := (congrArg State.bitCnt h :)
theorem litPos : s'.litPos = s.litPos := (congrArg State.litPos h :)
theorem maxTokens : s'.maxTokens = s.maxTokens := (congrArg State.maxTokens h :)
theorem busy : s'.busy = s.busy := (congrArg State.busy h :)
theorem selection : s'.selection = s.selection := (congrArg State.selection h :)
theorem window : s'.window = s.window := (congrArg State.window h :)
theorem pastEnd (len : Nat) : s'.pastEnd len = s.pastEnd len := (congrArg (State.pastEnd · len) h :)

end State.SameRegs

/-! ## Updates that keep two states in one run -/

namespace State.SameRun

variable {s s' : State} (h : s.SameRun s')
include h

theorem setHtPos (p : Word) : (s.setHtPos p).SameRun (s'.setHtPos p) :=
  have regs : (s.setHtPos p).SameRegs (s'.setHtPos p) := h.regs.map (State.setHtPos · p) rfl
  { h with registers := regs.regValue, cursor := regs.cdPos.symm, capacity := regs.maxTokens.symm }

theorem setWarn (w : BitVec 3) : (s.setWarn w).SameRun (s'.setWarn w) :=
  have regs : (s.setWarn w).SameRegs (s'.setWarn w) := h.regs.map (State.setWarn · w) rfl
  { h with registers := regs.regValue, cursor := regs.cdPos.symm, capacity := regs.maxTokens.symm }

/-- The same table may be written in both states (R43). -/
theorem setTable (k : CodeSpace) (T : Table) : (s.setTable k T).SameRun (s'.setTable k T) := by
  have regs : (s.setTable k T).SameRegs (s'.setTable k T) := by
    match k with
    | 0 | 1 | 2 => exact h.regs.map (State.setTable · _ T) rfl
  have tables : ∀ j : CodeSpace, (s.phase = .build ∧ j < s.buildIdx) ∨ s.phase = .decode →
      ∀ w, ((s.setTable k T).table j).read w = ((s'.setTable k T).table j).read w := fun j hj w => by
    rw [State.table_setTable, State.table_setTable]
    split
    · rfl
    · exact h.tables j hj w
  match k with
  | 0 | 1 | 2 =>
    exact { h with registers := regs.regValue, cursor := regs.cdPos.symm, capacity := regs.maxTokens.symm, tables := tables }

/-- The same error may be raised in both states (R284). -/
theorem raiseFatal (kind : ErrKind) (i : Word) (k : CodeSpace) : (s.raiseFatal kind i k).SameRun (s'.raiseFatal kind i k) :=
  have regs : (s.raiseFatal kind i k).SameRegs (s'.raiseFatal kind i k) := h.regs.map (State.raiseFatal · kind i k) rfl
  { h with
    registers := regs.regValue, cursor := regs.cdPos.symm, capacity := regs.maxTokens.symm
    tables := by rintro j (⟨hj, _⟩ | hj) <;> cases hj
    tokens := by rintro i (⟨hi, _⟩ | ⟨hi, _⟩) <;> cases hi }

/-- The end of a run needs no table and no token (R236). -/
theorem complete : ({ s with phase := .done } : State).SameRun { s' with phase := .done } :=
  have regs : ({ s with phase := .done } : State).SameRegs { s' with phase := .done } :=
    h.regs.map (fun u => { u with phase := .done }) rfl
  { h with
    registers := regs.regValue, cursor := regs.cdPos.symm, capacity := regs.maxTokens.symm
    tables := by rintro j (⟨hj, _⟩ | hj) <;> cases hj
    tokens := by rintro i (⟨hi, _⟩ | ⟨hi, _⟩) <;> cases hi }

/-- BUILD_IDX may move to where the tables below it are the same (R229). -/
theorem setBuildIdx (hp : s.phase = .build) (j : CodeSpace) (htables : ∀ k < j, ∀ w, (s.table k).read w = (s'.table k).read w) :
    ({ s with buildIdx := j } : State).SameRun { s' with buildIdx := j } :=
  have regs : ({ s with buildIdx := j } : State).SameRegs { s' with buildIdx := j } :=
    h.regs.map (fun u => { u with buildIdx := j }) rfl
  { h with
    registers := regs.regValue, cursor := regs.cdPos.symm, capacity := regs.maxTokens.symm
    tables := fun k hk w => hk.elim (fun hk => htables k hk.2 w) fun hd => nomatch hp.symm.trans hd }

/-- The phase change to DECODE, where the three tables are the same (R234). -/
theorem toDecode (htables : ∀ (k : CodeSpace) w, (s.table k).read w = (s'.table k).read w) :
    ({ s with phase := .decode, tokIdx := 0#32 } : State).SameRun { s' with phase := .decode, tokIdx := 0#32 } :=
  have regs : ({ s with phase := .decode, tokIdx := 0#32 } : State).SameRegs { s' with phase := .decode, tokIdx := 0#32 } :=
    h.regs.map (fun u => { u with phase := .decode, tokIdx := 0#32 }) rfl
  { h with
    registers := regs.regValue, cursor := regs.cdPos.symm, capacity := regs.maxTokens.symm
    tables := fun k _ => htables k
    tokens := by rintro i (⟨_, hi⟩ | ⟨⟨⟩, _⟩); exact absurd hi (Nat.not_lt_zero i) }

/-- The phase change to EXPAND, once the tokens below TOK_COUNT are decoded (R232). -/
theorem toExpand (hp : s.phase = .decode) (hi : s.tokIdx.toNat = s.tokCount.toNat) :
    ({ s with phase := .expand, tokIdx := 0#32 } : State).SameRun { s' with phase := .expand, tokIdx := 0#32 } :=
  have regs : ({ s with phase := .expand, tokIdx := 0#32 } : State).SameRegs { s' with phase := .expand, tokIdx := 0#32 } :=
    h.regs.map (fun u => { u with phase := .expand, tokIdx := 0#32 }) rfl
  { h with
    registers := regs.regValue, cursor := regs.cdPos.symm, capacity := regs.maxTokens.symm
    tables := by rintro j (⟨hj, _⟩ | hj) <;> cases hj
    tokens := by
      rintro i (⟨⟨⟩, _⟩ | ⟨_, hlt⟩)
      exact h.tokens i (.inl ⟨hp, hi ▸ hlt⟩) }

/-- The refill reads CD below CD_LEN only (R152). -/
theorem refillInput : s'.refillInput = s.refillInput := by
  unfold State.refillInput
  rw [h.regs.cdPos, h.regs.cdLen]
  split
  · exact (h.cd _ ‹_›).symm
  · rfl

theorem shiftIn : s.shiftIn.SameRun s'.shiftIn :=
  have regs : s.shiftIn.SameRegs s'.shiftIn := by
    unfold State.shiftIn
    rw [h.refillInput]
    exact h.regs.map (fun u => { u with
      bitBuf := u.bitBuf <<< 8 ||| s.refillInput.setWidth 32, bitCnt := u.bitCnt + 8#5, cdPos := u.cdPos + 1 }) rfl
  { h with registers := regs.regValue, cursor := regs.cdPos.symm, capacity := regs.maxTokens.symm }

omit h in
theorem refillUpTo (n : Nat) : ∀ {s s' : State}, s.SameRun s' → (refillUpTo n s).SameRun (refillUpTo n s') := by
  induction n with
  | zero => exact fun h => h
  | succ n ih =>
    intro s s' h
    unfold Machine.refillUpTo
    rw [h.regs.bitCnt]
    split
    · exact ih h.shiftIn
    · exact h

theorem refill : s.refill.SameRun s'.refill := refillUpTo 2 h

theorem consume (e : Half) : (s.consume e).SameRun (s'.consume e) :=
  have regs : (s.consume e).SameRegs (s'.consume e) := h.regs.map (State.consume · e) rfl
  { h with registers := regs.regValue, cursor := regs.cdPos.symm, capacity := regs.maxTokens.symm }

/-- The same token is stored at the same index, and the sequencer moves past it (R171, R231). -/
theorem storeToken_advanceToken (hp : s.phase = .decode) (hi : s.tokIdx.toNat < s.tokCount.toNat) (c lo high : Byte) :
    (s.storeToken c lo high).advanceToken.SameRun (s'.storeToken c lo high).advanceToken :=
  have regs : (s.storeToken c lo high).advanceToken.SameRegs (s'.storeToken c lo high).advanceToken :=
    h.regs.map (fun u => { u with tokIdx := u.tokIdx + 1#32, tok := s'.tok.write s'.tokIdx.toNat ⟨c, offsetOf lo high⟩ }) rfl
  { h with
    registers := regs.regValue, cursor := regs.cdPos.symm, capacity := regs.maxTokens.symm
    tokens := by
      rintro i (⟨_, hlt⟩ | ⟨he, _⟩)
      · have hsucc := Word.toNat_succ_of_lt hi
        change (s.tok.write s.tokIdx.toNat _).read i = (s'.tok.write s'.tokIdx.toNat _).read i
        change i < (s.tokIdx + 1#32).toNat at hlt
        rw [h.regs.tokIdx]
        by_cases heq : s.tokIdx.toNat = i
        · rw [heq, TokenStore.read_write_same, TokenStore.read_write_same]
        · rw [TokenStore.read_write_other _ _ _ _ heq, TokenStore.read_write_other _ _ _ _ heq]
          exact h.tokens i (.inl ⟨hp, by omega⟩)
      · exact nomatch hp.symm.trans he }

theorem advanceToken (hp : s.phase = .expand) : s.advanceToken.SameRun s'.advanceToken :=
  have regs : s.advanceToken.SameRegs s'.advanceToken := h.regs.map State.advanceToken rfl
  { h with
    registers := regs.regValue, cursor := regs.cdPos.symm, capacity := regs.maxTokens.symm
    tokens := fun i hi => hi.elim (fun hd => nomatch hp.symm.trans hd.1) fun he => h.tokens i (.inr he) }

/-- OUT, OUT_LEN and LIT_POS may change where OUT is the same below the new OUT_LEN (R62). -/
theorem setOut {m m' : Memory} (len pos : Word) (hm : m.wf = true) (hm' : m'.wf = true) (hread : ∀ a < len.toNat, m.read a = m'.read a) :
    ({ s.setOut m len with litPos := pos } : State).SameRun { s'.setOut m' len with litPos := pos } :=
  have regs : ({ s.setOut m len with litPos := pos } : State).SameRegs { s'.setOut m' len with litPos := pos } :=
    h.regs.map (fun u => { u with out := m', outLen := len, litPos := pos }) rfl
  { h with
    registers := regs.regValue, cursor := regs.cdPos.symm, capacity := regs.maxTokens.symm
    out := hread, canonical := ⟨hm, hm'⟩ }

end State.SameRun

end Sys2Proof.Machine
end

section
/-! SUPPORT. Two states of one run take the same step: the operations of BUILD, DECODE and EXPAND end alike in both (R62, R83, R238). -/

namespace Sys2Proof.Machine

/-! ## Operations that end alike -/

/-- Both operations complete, with the same result and in states that `P` relates, or both raise an error, in states of one run. -/
inductive Res.Alike {α : Type} (P : State → State → Prop) : Res α → Res α → Prop where
  | done {a a' : α} {t t' : State} : a = a' → P t t' → Alike P (.done a t) (.done a' t')
  | fatal {t t' : State} : t.SameRun t' → Alike P (.fatal t) (.fatal t')

theorem Res.Alike.andThen {α β : Type} {P Q : State → State → Prop} {r r' : Res α} {f : α → State → Res β} (h : r.Alike P r')
    (hf : ∀ a t t', P t t' → (f a t).Alike Q (f a t')) : (r.andThen f).Alike Q (r'.andThen f) := by
  cases h with
  | @done a _ t t' heq hP => exact heq ▸ hf a t t' hP
  | fatal hrun => exact .fatal hrun

/-- Both steps answer states of one run, or both stop with the same fault. -/
inductive StepsAlike : Outcome → Outcome → Prop where
  | next {t t' : State} : t.SameRun t' → StepsAlike (.next t) (.next t')
  | fault (f : Fault) : StepsAlike (.fault f) (.fault f)

theorem Res.Alike.finish {α : Type} {P : State → State → Prop} {r r' : Res α} {f : State → State} (h : r.Alike P r')
    (hf : ∀ t t', P t t' → (f t).SameRun (f t')) : StepsAlike (r.finish f) (r'.finish f) := by
  cases h with
  | done _ hP => exact .next (hf _ _ hP)
  | fatal hrun => exact .next hrun

/-! ## BUILD_TABLE -/

/-- Two states of one run, in the BUILD of code space k. -/
def State.SameBuild (k : CodeSpace) (s s' : State) : Prop := s.SameRun s' ∧ s.phase = .build ∧ s.buildIdx = k

/-- Two states of one run, with T[k] just built. -/
def State.SameBuilt (k : CodeSpace) (s s' : State) : Prop := s.SameBuild k s' ∧ ∀ w, (s.table k).read w = (s'.table k).read w

section Build

variable {k : CodeSpace} {s s' : State} (h : s.SameBuild k s')
include h

theorem State.SameBuild.setHtPos (p : Word) : (s.setHtPos p).SameBuild k (s'.setHtPos p) := ⟨h.1.setHtPos p, h.2⟩

theorem State.SameBuild.setTable (T : Table) : (s.setTable k T).SameBuild k (s'.setTable k T) :=
  ⟨h.1.setTable k T, (s.setTable_phase k T).trans h.2.1, (s.setTable_buildIdx k T).trans h.2.2⟩

/-- The identifier check depends on the byte and on WARN (R123). -/
theorem State.SameBuild.checkIdentifier (id : Byte) : (s.checkIdentifier k id).SameBuild k (s'.checkIdentifier k id) := by
  have hwarn : s'.warn = s.warn := (congrArg State.warn h.1.regs :)
  rw [State.checkIdentifier_eq, State.checkIdentifier_eq, hwarn]
  exact ⟨h.1.setWarn _, h.2⟩

/-- HtNext reads HT below HT_LEN only (R121). -/
theorem htNext_alike : (htNext k s).Alike (State.SameBuild k) (htNext k s') := by
  unfold htNext
  rw [h.1.regs.htPos, h.1.regs.htLen]
  split
  · exact .done (h.1.ht _ ‹_›) (h.setHtPos _)
  · exact .fatal (h.1.raiseFatal _ _ _)

omit h in
theorem htNextMany_alike (n : Nat) : ∀ {s s' : State}, s.SameBuild k s' →
    (htNextMany k n s).Alike (State.SameBuild k) (htNextMany k n s') := by
  induction n with
  | zero => exact fun h => .done rfl h
  | succ n ih => exact fun h => (htNext_alike h).andThen fun _ _ _ h1 => (ih h1).andThen fun _ _ _ h2 => .done rfl h2

/-- The symbol block is read below HT_LEN only (R124). -/
theorem readSymbols_alike (n : Nat) : (readSymbols k n s).Alike (State.SameBuild k) (readSymbols k n s') := by
  unfold readSymbols
  rw [h.1.regs.htPos, h.1.regs.htLen]
  split
  · exact .fatal (h.1.raiseFatal _ _ _)
  · refine .done (List.map_congr_left fun j hj => h.1.ht _ ?_) (h.setHtPos _)
    have := List.mem_range.mp hj
    omega

/-- Code assignment starts from a cleared table, so it depends on the record only (R122, R126). -/
theorem installTable_alike (counts symbols : List Byte) :
    (installTable k counts symbols s).Alike (State.SameBuilt k) (installTable k counts symbols s') := by
  unfold installTable
  split
  · exact .done rfl ⟨h.setTable _, fun w => by rw [State.table_setTable_same, State.table_setTable_same]⟩
  · exact .fatal ((h.1.setTable k _).raiseFatal _ _ _)

theorem buildTable_alike : (buildTable k s).Alike (State.SameBuilt k) (buildTable k s') :=
  (htNext_alike (h.setTable Table.cleared)).andThen fun id _ _ h1 =>
  (htNextMany_alike 16 (h1.checkIdentifier id)).andThen fun counts _ _ h2 =>
  (readSymbols_alike h2 (countSum counts)).andThen fun symbols _ _ h3 => installTable_alike h3 counts symbols

end Build

/-- The token-store check depends on TOK_COUNT and MAX_TOKENS (R234). -/
theorem State.SameRun.buildToDecode {s s' : State} (h : s.SameRun s')
    (htables : ∀ (k : CodeSpace) w, (s.table k).read w = (s'.table k).read w) : s.buildToDecode.SameRun s'.buildToDecode := by
  have hcheck : s'.tokCount.toNat > s'.maxTokens.toNat ↔ s.tokCount.toNat > s.maxTokens.toNat := by
    rw [h.regs.tokCount, h.regs.maxTokens]
  unfold State.buildToDecode
  simp only [hcheck]
  split
  · exact h.raiseFatal _ _ _
  · exact h.toDecode htables

/-- The tables up to the one just built are the same in both states (R229). -/
theorem State.SameBuilt.afterBuild {k : CodeSpace} {s s' : State} (h : s.SameBuilt k s') : s.afterBuild.SameRun s'.afterBuild := by
  obtain ⟨⟨hrun, hp, rfl⟩, hbuilt⟩ := h
  have htables : ∀ j ≤ s.buildIdx, ∀ w, (s.table j).read w = (s'.table j).read w := fun j hj =>
    (lt_or_eq_of_le hj).elim (fun hlt => hrun.tables j (.inl ⟨hp, hlt⟩)) fun heq => heq ▸ hbuilt
  unfold State.afterBuild
  rw [hrun.regs.buildIdx]
  split <;> rename_i hidx <;> rw [hidx] at htables
  · exact hrun.setBuildIdx hp 1 fun j hj => htables j (Nat.le_of_lt_succ hj)
  · exact hrun.setBuildIdx hp 2 fun j hj => htables j (Nat.le_of_lt_succ hj)
  · exact hrun.buildToDecode fun j => htables j (Nat.le_of_lt_succ j.isLt)

theorem execBuildTable_alike {s s' : State} (h : s.SameRun s') (hp : s.phase = .build) :
    StepsAlike (execBuildTable s) (execBuildTable s') := by
  unfold execBuildTable
  rw [h.regs.buildIdx]
  exact (buildTable_alike ⟨h, hp, rfl⟩).finish fun _ _ hbuilt => hbuilt.afterBuild

/-! ## DECODE_TOKEN -/

/-- Two states of one run, decoding a token below TOK_COUNT. -/
def State.SameDecode (s s' : State) : Prop := s.SameRun s' ∧ s.phase = .decode ∧ s.tokIdx.toNat < s.tokCount.toNat

theorem State.SameDecode.refill {s s' : State} (h : s.SameDecode s') : s.refill.SameDecode s'.refill := by
  refine ⟨h.1.refill, ?_⟩
  rw [State.refill_frame]
  exact h.2

/-- A lookup depends on the window, on the table's entry there and on the cursor (R154 to R157). -/
theorem lookUp_alike {s s' : State} (h : s.SameDecode s') (k : CodeSpace) : (lookUp k s).Alike State.SameDecode (lookUp k s') := by
  obtain ⟨hrun, hp, hi⟩ := h
  unfold lookUp
  dsimp only
  rw [hrun.regs.window, ← hrun.tables k (.inr hp), hrun.regs.pastEnd, hrun.regs.tokIdx]
  split
  · exact .fatal (hrun.raiseFatal _ _ _)
  · split
    · exact .fatal (hrun.raiseFatal _ _ _)
    · exact .done rfl ⟨hrun.consume _, hp, hi⟩

theorem decodeSymbol_alike {s s' : State} (h : s.SameDecode s') (k : CodeSpace) :
    (decodeSymbol k s).Alike State.SameDecode (decodeSymbol k s') :=
  lookUp_alike h.refill k

theorem decodeToken_alike {s s' : State} (h : s.SameDecode s') :
    (decodeToken s).Alike (fun t t' => t.advanceToken.SameRun t'.advanceToken) (decodeToken s') :=
  (decodeSymbol_alike h 0).andThen fun c _ _ h1 =>
  (decodeSymbol_alike h1 1).andThen fun lo _ _ h2 =>
  (decodeSymbol_alike h2 2).andThen fun hi _ _ ⟨hrun, hp, hidx⟩ => .done rfl (hrun.storeToken_advanceToken hp hidx c lo hi)

theorem execDecodeToken_alike {s s' : State} (h : s.SameDecode s') : StepsAlike (execDecodeToken s) (execDecodeToken s') :=
  (decodeToken_alike h).finish fun _ _ hrun => hrun

/-! ## EXPAND_TOKEN -/

/-- Two states of one run, in EXPAND. -/
def State.SameExpand (s s' : State) : Prop := s.SameRun s' ∧ s.phase = .expand

/-- A literal move reads LIT below LIT_LEN only (R62, R195). -/
theorem State.SameRun.copyLiterals {s s' : State} (h : s.SameRun s') {n : Nat} (hlit : s.litPos.toNat + n ≤ s.litLen.toNat)
    (hout : s.outLen.toNat + n ≤ s.outCap.toNat) : (s.copyLiterals n).SameRun (s'.copyLiterals n) := by
  have hcap := s.outCap.isLt
  have hlen : (Word.store (s.outLen.toNat + n)).toNat = s.outLen.toNat + n := by
    rw [Word.store, BitVec.toNat_ofNat]
    omega
  unfold State.copyLiterals
  rw [h.regs.litPos, h.regs.outLen]
  refine h.setOut (Word.store _) (Word.store _) (Memory.copyFrom_wf _ _ _ _ _ h.canonical.1)
    (Memory.copyFrom_wf _ _ _ _ _ h.canonical.2) fun a ha => ?_
  rw [hlen] at ha
  rcases Nat.lt_or_ge a s.outLen.toNat with hlt | hge
  · rw [Memory.read_copyFrom_other _ _ _ _ _ _ (.inl hlt), Memory.read_copyFrom_other _ _ _ _ _ _ (.inl hlt)]
    exact h.out a hlt
  · obtain ⟨m, rfl⟩ := Nat.exists_eq_add_of_le hge
    have hm : m < n := by omega
    rw [Memory.read_copyFrom_inside _ _ _ _ _ _ hm h.canonical.1, Memory.read_copyFrom_inside _ _ _ _ _ _ hm h.canonical.2]
    exact h.lit _ (by omega)

/-- A byte of a back-reference is read below OUT_LEN (R197, R198). -/
theorem State.SameRun.copyByte {s s' : State} (h : s.SameRun s') {d : Nat} (hd : 0 < d) (hle : d ≤ s.outLen.toNat)
    (hlen : (s.outLen + 1#32).toNat = s.outLen.toNat + 1) : (s.copyByte d).SameRun (s'.copyByte d) := by
  have hbyte : s.out.read (s.outLen.toNat - d) = s'.out.read (s.outLen.toNat - d) := h.out _ (by omega)
  have hsame : ({ s.setOut (s.copyByte d).out (s.outLen + 1#32) with litPos := s.litPos } : State).SameRun
      { s'.setOut (s'.copyByte d).out (s.outLen + 1#32) with litPos := s.litPos } := by
    refine h.setOut _ _ (Memory.write_wf _ _ _ h.canonical.1) (Memory.write_wf _ _ _ h.canonical.2) fun a ha => ?_
    rw [State.copyByte_out, State.copyByte_out, h.regs.outLen, ← hbyte]
    by_cases heq : s.outLen.toNat = a
    · rw [heq, Memory.read_write_same _ _ _ h.canonical.1, Memory.read_write_same _ _ _ h.canonical.2]
    · rw [Memory.read_write_other _ _ _ _ heq, Memory.read_write_other _ _ _ _ heq]
      exact h.out a (by omega)
  have hcopy' : ({ s'.setOut (s'.copyByte d).out (s.outLen + 1#32) with litPos := s.litPos } : State) = s'.copyByte d := by
    rw [← h.regs.outLen, ← h.regs.litPos]
    rfl
  exact hcopy' ▸ hsame

theorem State.SameRun.copyBytes {d : Nat} (hd : 0 < d) (n : Nat) : ∀ {s s' : State}, s.SameRun s' → d ≤ s.outLen.toNat →
    s.outLen.toNat + n < 2 ^ 32 → (copyBytes d n s).SameRun (copyBytes d n s') := by
  induction n with
  | zero => exact fun h _ _ => h
  | succ n ih =>
    intro s s' h hle hfit
    have hlen : (s.outLen + 1#32).toNat = s.outLen.toNat + 1 := by
      rw [BitVec.toNat_add, BitVec.toNat_ofNat]
      omega
    refine ih (h.copyByte hd hle hlen) ?_ ?_ <;> rw [State.copyByte_outLen, hlen] <;> omega

theorem copyBytes_phase (d n : Nat) : ∀ s : State, (copyBytes d n s).phase = s.phase := by
  induction n with
  | zero => exact fun _ => rfl
  | succ n ih => exact fun s => ih (s.copyByte d)

section Expand

variable {s s' : State} (h : s.SameExpand s')
include h

theorem tokenLit_alike (c : Byte) : (tokenLit c s).Alike State.SameExpand (tokenLit c s') := by
  obtain ⟨hrun, hp⟩ := h
  unfold tokenLit
  dsimp only
  rw [hrun.regs.litPos, hrun.regs.litLen, hrun.regs.outLen, hrun.regs.outCap, hrun.regs.tokIdx]
  split
  · exact .fatal (hrun.raiseFatal _ _ _)
  · split
    · exact .fatal (hrun.raiseFatal _ _ _)
    · exact .done rfl ⟨hrun.copyLiterals (by omega) (by omega), hp⟩

/-- A back-reference's distance is its offset, which is not 0 in a COPY (R103, R104). -/
theorem tokenCopy_alike {o : Half} (ho : o ≠ 0#16) (c : Byte) : (tokenCopy o c s).Alike State.SameExpand (tokenCopy o c s') := by
  obtain ⟨hrun, hp⟩ := h
  have hcap := s.outCap.isLt
  have hd : 0 < copyDistance o := Nat.pos_of_ne_zero fun h0 => ho (BitVec.eq_of_toNat_eq h0)
  unfold tokenCopy
  dsimp only
  rw [hrun.regs.outLen, hrun.regs.outCap, hrun.regs.tokIdx]
  split
  · exact .fatal (hrun.raiseFatal _ _ _)
  · split
    · exact .fatal (hrun.raiseFatal _ _ _)
    · exact .done rfl ⟨State.SameRun.copyBytes hd _ hrun (by omega) (by omega), (copyBytes_phase _ _ s).trans hp⟩

/-- EXPAND_TOKEN reads a token below TOK_COUNT (R190). -/
theorem expandToken_alike (hi : s.tokIdx.toNat < s.tokCount.toNat) : (expandToken s).Alike State.SameExpand (expandToken s') := by
  have htok := h.1.tokens s.tokIdx.toNat (.inr ⟨h.2, hi⟩)
  unfold expandToken
  dsimp only
  rw [h.1.regs.tokIdx, ← htok]
  split
  · exact .done rfl h
  · split
    · exact tokenLit_alike h _
    · exact tokenCopy_alike h ‹_› _

theorem execExpandToken_alike (hi : s.tokIdx.toNat < s.tokCount.toNat) : StepsAlike (execExpandToken s) (execExpandToken s') :=
  (expandToken_alike h hi).finish fun _ _ ⟨hrun, hp⟩ => hrun.advanceToken hp

end Expand

/-! ## Every step -/

/-- The same selection, to be run in the state `u`. -/
def NextOp.inState (u : State) : NextOp → NextOp
  | .run i _ => .run i u
  | .moved _ => .moved u
  | .stuck f => .stuck f
  | .barred r => .barred r

/-- What a block step runs depends on STATE, TOK_IDX and TOK_COUNT (R228). -/
theorem State.SameRegs.fetchBlock {s s' : State} (h : s.SameRegs s') : fetchBlock s' = (fetchBlock s).inState s' := by
  unfold Machine.fetchBlock
  rw [h.busy, h.selection]
  split
  · split <;> rfl
  · rfl

theorem step_alike {s s' : State} (hs : s.agenda = []) (hs' : s'.agenda = []) (h : s.SameRun s') : StepsAlike (step s) (step s') := by
  have hfetch := (fetch_of_no_moves hs').trans h.regs.fetchBlock
  unfold step
  rw [hfetch, fetch_of_no_moves hs]
  rcases fetchBlock_cases s with ⟨_, e⟩ | ⟨hp, e⟩ | ⟨hp, hi, e⟩ | ⟨hp, hi, e⟩ | ⟨hp, hi, e⟩ | ⟨_, _, e⟩ | ⟨_, _, e⟩ <;>
    rw [e]
  · exact .next h
  · exact execBuildTable_alike h hp
  · exact execDecodeToken_alike ⟨h, hp, hi⟩
  · exact .next (h.toExpand hp hi)
  · exact execExpandToken_alike ⟨h, hp⟩ hi
  · exact .next h.complete
  · exact .fault _

/-- Settles O51: each operation of the sequencer ends alike in two states of one run, and none adds a host move. -/
theorem stepKeepsSameRun : Obligations.StepKeepsSameRun := by
  intro s s' hs hs' h
  have halike := step_alike hs hs' h
  generalize hstep : step s = o, hstep' : step s' = o' at halike ⊢
  cases halike with
  | @next u u' hrun =>
    refine ⟨?_, nofun⟩
    rintro t ⟨⟩
    exact ⟨u', rfl, step_agenda_of_no_moves hs' hstep', step_agenda_of_no_moves hs hstep, hrun⟩
  | fault f =>
    refine ⟨?_, fun _ hf => hf⟩
    rintro t ⟨⟩

end Sys2Proof.Machine
end

section
/-! SUPPORT. The window of the refilled cursor (R153). -/

namespace Sys2Proof.Machine

/-- The window's bits are the top 16 buffered bits (R153). -/
theorem State.window_getLsbD {s : State} (h16 : 16 ≤ s.bitCnt.toNat) {j : Nat} (hj : j < 16) :
    s.window.getLsbD (15 - j) = s.bitBuf.getLsbD (s.bitCnt.toNat - 1 - j) := by
  unfold State.window lookupWindow
  rw [BitVec.getLsbD_setWidth, BitVec.getLsbD_ushiftRight, decide_eq_true (by omega), Bool.true_and]
  congr 1
  omega

/-- Where 16 bits are buffered, the window shows the next 16 bits of the stream, the first of them on top (R68, R153). -/
theorem State.CursorInv.window_shows {s : State} (h : s.CursorInv) (h16 : 16 ≤ s.bitCnt.toNat) {j : Nat} (hj : j < 16) :
    s.window.getLsbD (15 - j) = s.streamBit (s.consumed + j) := by
  have hshifted := h.shifted
  rw [State.window_getLsbD h16 hj, h.shows _ (by omega)]
  congr 1
  unfold State.consumed
  omega

/-- A refill moves bits into the buffer and consumes none (R49, R151). -/
theorem State.refill_consumed {s : State} (h : s.CursorInv) : s.refill.consumed = s.consumed := by
  obtain ⟨_, _, hmoved, _⟩ := s.refill_bits h.range
  have hshifted := h.shifted
  unfold State.consumed
  omega

/-- Settles O16: the refill keeps the buffered bits the stream's and buffers at least 16, which the window shows. -/
theorem windowShowsTheStream : Obligations.WindowShowsTheStream := by
  intro s h
  have hrefill := s.refill_cursorInv h
  obtain ⟨h16, _⟩ := s.refill_bits h.range
  refine ⟨hrefill, h16, State.refill_consumed h, fun j hj => ?_⟩
  rw [hrefill.window_shows h16 hj, State.refill_streamBit, State.refill_consumed h]

end Sys2Proof.Machine
end

section
/-! SUPPORT. The host's reads and writes of single buffer bytes (R76, R77, R320). -/

namespace Sys2Proof.Machine

/-- The host's read of a byte, as a step (R220). -/
theorem step_peek {s : State} {p : Port} {i : Nat} {rest : List HostMove} (h : s.agenda = .peek p i :: rest) :
    step s = .next (({ s with agenda := rest } : State).hostReadByte p i) := by
  apply step_moved
  unfold fetch
  rw [h]

/-- Once the host has seen the run's end it reads what OUT holds (R78). -/
theorem State.hostReadOut_of_synced {s : State} (h : s.outSynced = true) (i : Nat) : (s.hostReadOut i).hostByte = s.out.read i := by
  unfold State.hostReadOut
  rw [if_pos h]

/-- Before that it reads the byte held before the run or the byte held now (R77, R321). -/
theorem State.hostReadOut_of_not_synced {s : State} (h : s.outSynced = false) (i : Nat) :
    (s.hostReadOut i).hostByte = s.outBefore.read i ∨ (s.hostReadOut i).hostByte = s.out.read i := by
  unfold State.hostReadOut
  rw [if_neg (Bool.eq_false_iff.mp h)]
  dsimp only
  split
  · exact .inl rfl
  · exact .inr rfl

/-- Settles O33: a read of OUT is `State.hostReadOut`, by cases of the point of synchronisation. -/
theorem hostReadsOfOut : Obligations.HostReadsOfOut := fun s i rest h =>
  ⟨_, step_peek h, State.hostReadOut_frame _ i, fun hs => State.hostReadOut_of_synced (s := { s with agenda := rest }) hs i,
    fun hs => State.hostReadOut_of_not_synced (s := { s with agenda := rest }) hs i⟩

/-- While busy the model has no write of a buffer (R320, log 11). -/
theorem step_fill_busy {s : State} {p : Port} {i : Nat} {v : Byte} {rest : List HostMove} (h : s.agenda = .fill p i v :: rest)
    (hb : s.busy = true) : step s = .refused .bufferWriteWhileBusy := by
  unfold step fetch
  rw [h]
  dsimp only
  rw [if_pos hb]

/-- While idle the host's write of a byte is a step (R76). -/
theorem step_fill_idle {s : State} {p : Port} {i : Nat} {v : Byte} {rest : List HostMove} (h : s.agenda = .fill p i v :: rest)
    (hb : s.busy = false) : step s = .next (({ s with agenda := rest } : State).fillByte p i v) := by
  apply step_moved
  unfold fetch
  rw [h]
  dsimp only
  rw [if_neg (Bool.eq_false_iff.mp hb)]

/-- A fill writes the buffers only, and of OUT also the bytes held before the run (R76, log 10). -/
theorem State.fillByte_frame (s : State) (p : Port) (i : Nat) (v : Byte) :
    s.fillByte p i v = { s with
      ht := (s.fillByte p i v).ht, cd := (s.fillByte p i v).cd, lit := (s.fillByte p i v).lit, out := (s.fillByte p i v).out
      outBefore := (s.fillByte p i v).outBefore } := by
  cases p <;> rfl

theorem State.fillByte_outBefore_of_ne_out (s : State) {p : Port} (hp : p ≠ .out) (i : Nat) (v : Byte) :
    (s.fillByte p i v).outBefore = s.outBefore := by
  cases p with
  | out => exact absurd rfl hp
  | ht | cd | lit => rfl

theorem State.buffer_fillByte (s : State) (p q : Port) (i : Nat) (v : Byte) :
    (s.fillByte p i v).buffer q = if q = p then (s.buffer q).write i v else s.buffer q := by
  cases p <;> cases q <;> rfl

/-- Settles O35: refused while busy; while idle one byte of the one buffer is written. -/
theorem hostFillsBuffersWhileIdle : Obligations.HostFillsBuffersWhileIdle := by
  intro s p i v rest h
  refine ⟨step_fill_busy h, fun hb => ⟨_, step_fill_idle h hb, State.fillByte_frame _ p i v, ?_, fun hwf => ?_, fun q a hother => ?_⟩⟩
  · exact fun hp => State.fillByte_outBefore_of_ne_out _ hp i v
  · rw [State.buffer_fillByte, if_pos rfl]
    exact Memory.read_write_same _ i v hwf
  · rw [State.buffer_fillByte]
    split
    · exact Memory.read_write_other _ _ _ _ (hother.resolve_left (not_not_intro ‹_›)).symm
    · rfl

end Sys2Proof.Machine
end

section
/-! SUPPORT. The point of synchronisation of OUT (R77, R78, R321): what a step does to `outSynced` and `outBefore` (log 10). -/

namespace Sys2Proof.Machine

/-! ## The host's reads of STATUS -/

/-- The host's next move is a read of STATUS, or the poll of it (R78, R313). -/
def State.ReadsStatus (s : State) : Prop := (∃ rest, s.agenda = .read statusOffset :: rest) ∨ (∃ rest, s.agenda = .await :: rest)

/-- The host has seen STATUS, and got its word; nothing of the block changed (R78, R221). -/
def State.SeesStatus (s t : State) : Prop :=
  t = { s with outSynced := s.seeStatus.outSynced, hostData := t.hostData, agenda := t.agenda }

theorem State.hostReadReg_status (s : State) :
    s.hostReadReg statusOffset = { s with outSynced := s.seeStatus.outSynced, hostData := s.readWord statusOffset } := by
  unfold State.hostReadReg
  rw [if_pos rfl]
  rfl

theorem State.hostReadReg_other (s : State) {offset : Word} (h : offset ≠ statusOffset) :
    s.hostReadReg offset = { s with hostData := s.readWord offset } :=
  if_neg h

/-- A read of a register, as a step (R221). -/
theorem step_read {s : State} {offset : Word} {rest : List HostMove} (h : s.agenda = .read offset :: rest) :
    step s = .next (({ s with agenda := rest } : State).hostReadReg offset) := by
  refine step_run (i := .regRead offset) ?_
  unfold fetch
  rw [h]
  rfl

/-- The poll ends where the block is idle (R313). -/
theorem step_await_idle {s : State} {rest : List HostMove} (h : s.agenda = .await :: rest) (hidle : s.busy = false) :
    step s = .next ({ s with agenda := rest } : State).seeStatus := by
  apply step_moved
  unfold fetch
  rw [h]
  dsimp only
  rw [if_neg (Bool.eq_false_iff.mp hidle)]

theorem State.ReadsStatus.step_seesStatus {s t : State} (h : s.ReadsStatus) (hidle : s.busy = false) (hstep : step s = .next t) :
    s.SeesStatus t := by
  rcases h with ⟨rest, h⟩ | ⟨rest, h⟩
  · rw [step_read h, State.hostReadReg_status] at hstep
    cases hstep
    rfl
  · rw [step_await_idle h hidle] at hstep
    cases hstep
    rfl

/-- STATUS shows the end of a run in DONE and in ERROR (R78). -/
theorem State.seeStatus_outSynced_eq_true_iff (s : State) :
    s.seeStatus.outSynced = true ↔ s.outSynced = true ∨ s.phase = .done ∨ s.phase = .error := by
  simp only [State.seeStatus, Bool.or_eq_true, decide_eq_true_eq]

/-! ## The effect of a step -/

/-- `outSynced` and `outBefore` are the same in both states. -/
def State.SameSync (s t : State) : Prop := t.outSynced = s.outSynced ∧ t.outBefore = s.outBefore

/-- A run begins, over what OUT holds (R222, log 10). -/
structure State.Begins (s t : State) : Prop where
  idle : s.busy = false
  phase : t.phase = .build
  outSynced : t.outSynced = false
  outBefore : t.outBefore = s.out

/-- What a step can do to `outSynced` and `outBefore`: nothing, see STATUS, begin a run, or fill a byte of OUT (log 10). -/
inductive State.SyncEffect (s t : State) : Prop where
  | kept : s.SameSync t → s.SyncEffect t
  | seen : s.ReadsStatus → s.SeesStatus t → s.SyncEffect t
  | begun : s.Begins t → s.SyncEffect t
  | filled {i : Nat} {v : Byte} {rest : List HostMove} : s.busy = false → s.agenda = .fill .out i v :: rest →
      t.outSynced = s.outSynced → t.outBefore = s.outBefore.write i v → s.SyncEffect t

theorem State.SameSync.of_eq {s t u : State} (h : t = u) (hu : s.SameSync u) : s.SameSync t := h ▸ hu

theorem State.KeepsHostSide.sameSync {s t : State} (h : s.KeepsHostSide t) : s.SameSync t := .of_eq h ⟨rfl, rfl⟩

theorem State.SameBlock.sameSync {s t : State} (h : s.SameBlock t) : s.SameSync t := .of_eq h ⟨rfl, rfl⟩

/-- START from an idle state begins a run (R222). -/
theorem State.beginRun_begins {s : State} (h : s.busy = false) : s.Begins s.beginRun := ⟨h, rfl, rfl, rfl⟩

/-- A front-end move is on the host's side, whether it reads a chunk or not (R264). -/
theorem fetchParse_sameBlock {s t : State} (h : (fetchParse s).Answers t) : s.SameBlock t := by
  rcases fetchParse_cases s with ⟨i, r, e, hexec, hside⟩ | ⟨u, e, hblock⟩ <;> rw [e] at h
  · exact hside.finish (hexec ▸ NextOp.answers_run h)
  · exact NextOp.answers_moved h ▸ hblock

/-- A host write begins a run or leaves OUT's two fields alone (R222 to R225). -/
theorem fetchAccess_write_sync {s t : State} {offset data : Word} (h : (fetchAccess (.hostWrite offset data) s).Answers t) :
    s.SameSync t ∨ s.Begins t := by
  change (NextOp.run (decodeHostWrite offset data) s).Answers t at h
  have hexec := NextOp.answers_run h
  unfold decodeHostWrite at hexec
  split at hexec <;> cases hexec
  · rcases s.startCommand_cases with ⟨_, e⟩ | ⟨hidle, e⟩ <;> rw [e]
    · exact .inl ⟨rfl, rfl⟩
    · exact .inr (State.beginRun_begins hidle)
  · rcases s.writeWord_cases offset data with e | ⟨hidle, e | e | e | e | e | e⟩ <;> rw [e]
    on_goal 7 => exact .inr (State.beginRun_begins hidle)
    all_goals exact .inl ⟨rfl, rfl⟩

/-- The handover begins a run where a segment is ready, and does nothing otherwise (R226, R264). -/
theorem fetchSegment_sync {s t : State} {outCap : Word} (hidle : s.busy = false) (h : (fetchSegment outCap s).Answers t) :
    s.SameSync t ∨ s.Begins t := by
  unfold fetchSegment at h
  split at h
  case h_1 =>
    have hstart : (s.loadSegment outCap).startCommand = (s.loadSegment outCap).beginRun := if_neg (Bool.eq_false_iff.mp hidle)
    cases NextOp.answers_run h
    exact .inr (hstart ▸ ⟨hidle, rfl, rfl, rfl⟩)
  all_goals exact .inl (.of_eq (NextOp.answers_moved h) ⟨rfl, rfl⟩)

/-- The effect on OUT's two fields does not depend on the agenda. -/
theorem State.syncEffect_of_sync {s t : State} {rest : List HostMove}
    (h : ({ s with agenda := rest } : State).SameSync t ∨ ({ s with agenda := rest } : State).Begins t) : s.SyncEffect t := by
  rcases h with h | ⟨hidle, hphase, hsynced, hbefore⟩
  · exact .kept h
  · exact .begun ⟨hidle, hphase, hsynced, hbefore⟩

/-- Every step that answers a next state has one of the four effects. -/
theorem step_syncEffect {s t : State} (h : step s = .next t) : s.SyncEffect t := by
  have hf : (fetch s).Answers t := step_next_cases h
  unfold fetch at hf
  split at hf
  case h_1 => exact .kept (fetchBlock_keepsHostSide hf).sameSync
  case h_2 offset rest hag =>
    cases NextOp.answers_run hf
    by_cases hstatus : offset = statusOffset
    · subst hstatus
      exact .seen (.inl ⟨rest, hag⟩) (State.hostReadReg_status _)
    · exact .kept (.of_eq (State.hostReadReg_other _ hstatus) ⟨rfl, rfl⟩)
  case h_3 => exact State.syncEffect_of_sync (fetchAccess_write_sync hf)
  case h_4 p i v rest hag =>
    split at hf
    · rcases hf with ⟨_, _, e, _⟩ | e <;> cases e
    · have hidle : s.busy = false := Bool.eq_false_iff.mpr ‹_›
      cases NextOp.answers_moved hf
      cases p with
      | out => exact .filled hidle hag rfl rfl
      | ht | cd | lit => exact .kept ⟨rfl, rfl⟩
  case h_5 p i rest _ => exact .kept (.of_eq ((NextOp.answers_moved hf).trans (State.hostReadByte_frame _ p i)) ⟨rfl, rfl⟩)
  case h_6 => exact .kept (fetchParse_sameBlock hf).sameSync
  case h_7 =>
    split at hf
    · exact .kept (fetchBlock_keepsHostSide hf).sameSync
    · exact State.syncEffect_of_sync (fetchSegment_sync (Bool.eq_false_iff.mpr ‹_›) hf)
  case h_8 => exact .kept (fetchBlock_keepsHostSide hf).sameSync
  case h_9 rest hag =>
    split at hf
    · exact .kept (fetchBlock_keepsHostSide hf).sameSync
    · cases NextOp.answers_moved hf
      exact .seen (.inr ⟨rest, hag⟩) rfl
  case h_10 => exact .kept (.of_eq (NextOp.answers_moved hf) ⟨rfl, rfl⟩)

/-! ## The statement's clauses -/

namespace State.SyncEffect

variable {s t : State} (h : s.SyncEffect t)
include h

theorem rises (hs : s.outSynced = false) (ht : t.outSynced = true) : (s.phase = .done ∨ s.phase = .error) ∧ s.ReadsStatus := by
  cases h with
  | kept hkept => exact absurd (hkept.1.symm.trans ht) (hs ▸ Bool.false_ne_true)
  | seen hreads hsees =>
    have hseen : s.seeStatus.outSynced = true := (congrArg State.outSynced hsees).symm.trans ht
    exact ⟨(s.seeStatus_outSynced_eq_true_iff.mp hseen).resolve_left (hs ▸ Bool.false_ne_true), hreads⟩
  | begun hbegins => exact absurd (hbegins.outSynced.symm.trans ht) Bool.false_ne_true
  | filled _ _ hsynced => exact absurd (hsynced.symm.trans ht) (hs ▸ Bool.false_ne_true)

theorem falls (hs : s.outSynced = true) (ht : t.outSynced = false) : s.busy = false ∧ t.phase = .build := by
  cases h with
  | kept hkept => exact absurd (ht.symm.trans (hkept.1.trans hs)) Bool.false_ne_true
  | seen _ hsees =>
    have hseen : s.seeStatus.outSynced = false := (congrArg State.outSynced hsees).symm.trans ht
    exact absurd (s.seeStatus_outSynced_eq_true_iff.mpr (.inl hs)) (Bool.eq_false_iff.mp hseen)
  | begun hbegins => exact ⟨hbegins.idle, hbegins.phase⟩
  | filled _ _ hsynced => exact absurd (ht.symm.trans (hsynced.trans hs)) Bool.false_ne_true

theorem outBefore_cases : t.outBefore = s.outBefore ∨ (s.busy = false ∧ t.phase = .build ∧ t.outBefore = s.out) ∨
    (s.busy = false ∧ ∃ (i : Nat) (v : Byte) (rest : List HostMove),
      s.agenda = .fill .out i v :: rest ∧ t.outBefore = s.outBefore.write i v) := by
  cases h with
  | kept hkept => exact .inl hkept.2
  | seen _ hsees => exact .inl (congrArg State.outBefore hsees :)
  | begun hbegins => exact .inr (.inl ⟨hbegins.idle, hbegins.phase, hbegins.outBefore⟩)
  | filled hidle hag _ hbefore => exact .inr (.inr ⟨hidle, _, _, _, hag, hbefore⟩)

end State.SyncEffect

theorem State.busy_eq_false_of_ended {s : State} (h : s.phase = .done ∨ s.phase = .error) : s.busy = false := by
  rcases h with h | h <;> rw [State.busy, h] <;> rfl

/-- Settles O34: by the effect of the step, and in DONE and ERROR by what a read of STATUS answers. -/
theorem statusReadMakesOutDefined : Obligations.StatusReadMakesOutDefined := by
  intro s t hstep readsStatus
  have heffect := step_syncEffect hstep
  refine ⟨heffect.rises, fun hended hreads => ?_, heffect.falls, fun hb => ?_, ?_⟩
  · have hsees : s.SeesStatus t := State.ReadsStatus.step_seesStatus hreads (State.busy_eq_false_of_ended hended) hstep
    rw [hsees]
    exact ⟨s.seeStatus_outSynced_eq_true_iff.mpr (.inr hended), rfl, rfl, rfl⟩
  · rcases heffect.outBefore_cases with h | ⟨hidle, _⟩ | ⟨hidle, _⟩
    · exact h
    · exact absurd hb (Bool.eq_false_iff.mp hidle)
    · exact absurd hb (Bool.eq_false_iff.mp hidle)
  · exact heffect.outBefore_cases.imp_right (Or.imp_right And.right)

end Sys2Proof.Machine
end

section
/-! SUPPORT. Token words: their two fields as numbers, and the three kinds they split into (R102, R103, R105). -/

namespace Sys2Proof

theorem tokenWordOffset_eq_ofNat (w : BitVec 24) : tokenWordOffset w = BitVec.ofNat 16 (w.toNat / 256) := by
  apply BitVec.eq_of_toNat_eq
  simp [tokenWordOffset, Nat.shiftRight_eq_div_pow]

theorem tokenWordControl_eq_ofNat (w : BitVec 24) : tokenWordControl w = BitVec.ofNat 8 w.toNat := by
  apply BitVec.eq_of_toNat_eq
  simp [tokenWordControl]

theorem tokenWordOffset_eq_zero_iff (w : BitVec 24) : tokenWordOffset w = 0#16 ↔ w.toNat ≤ 0x0000FF := by
  have hw := w.isLt
  rw [tokenWordOffset_eq_ofNat, ← BitVec.toNat_inj, BitVec.toNat_ofNat, BitVec.toNat_ofNat]
  omega

theorem decodeTokenFields_lit {control : Byte} (h : control ≠ 0xFF#8) : decodeTokenFields 0#16 control = .lit control := by
  simp [decodeTokenFields, h]

theorem decodeTokenFields_copy {offset : Half} (control : Byte) (h : offset ≠ 0#16) :
    decodeTokenFields offset control = .copy offset control := by
  simp [decodeTokenFields, h]

/-- R105: the kinds leave no pair of fields out. -/
theorem decodeTokenFields_wellFormed (offset : Half) (control : Byte) : (decodeTokenFields offset control).WellFormed := by
  by_cases ho : offset = 0#16
  · subst ho
    by_cases hc : control = 0xFF#8
    · subst hc
      rfl
    · rw [decodeTokenFields_lit hc]
      exact decide_eq_true hc
  · rw [decodeTokenFields_copy control ho]
    exact decide_eq_true ho

/-- Settles O2: the offset is 0 exactly up to 0x0000FF, and there the control is the whole word. -/
theorem tokenWordsSplitIntoKinds : Obligations.TokenWordsSplitIntoKinds := by
  intro w
  refine ⟨?nop, fun hlit => ?lit, fun hcopy => ?copy, decodeTokenFields_wellFormed _ _⟩
  case nop =>
    rintro rfl
    rfl
  case lit =>
    have hoffset : tokenWordOffset w = 0#16 := (tokenWordOffset_eq_zero_iff w).mpr (by omega)
    have hcontrol : BitVec.ofNat 8 w.toNat ≠ 0xFF#8 := by
      rw [Ne, ← BitVec.toNat_inj, BitVec.toNat_ofNat, BitVec.toNat_ofNat]
      omega
    rw [decodeTokenWord, hoffset, tokenWordControl_eq_ofNat, decodeTokenFields_lit hcontrol]
  case copy =>
    have hoffset : tokenWordOffset w ≠ 0#16 := fun h => by
      have hle := (tokenWordOffset_eq_zero_iff w).mp h
      omega
    rw [decodeTokenWord, decodeTokenFields_copy _ hoffset, tokenWordOffset_eq_ofNat, tokenWordControl_eq_ofNat]

end Sys2Proof
end

section
/-! SUPPORT. Encodings read back: byte encodings have their format's length, and the decoder leaves what follows (R102, R106). -/

namespace Sys2Proof

/-- The number of bytes an encoding of a format takes. -/
def Format.size : Format → Nat
  | .token24 => 3
  | .tag16 => 2
  | .containerBytes => 4

/-- Dropping the rest a byte decoder pairs with its answer and pairing another one. -/
theorem map_replace_rest (answer : Except DecodeError Instr) (rest rest' : List Byte) :
    answer.map (fun i => (i, rest')) = ((answer.map fun i => (i, rest)).map Prod.fst).map fun i => (i, rest') := by
  cases answer with
  | error e => rfl
  | ok i => rfl

/-- The bytes behind an encoding of its format's size are the decoder's rest and change nothing else. -/
theorem decodeBytes_append {f : Format} {bs : List Byte} (h : bs.length = f.size) (rest : List Byte) :
    decodeBytes f (bs ++ rest) = (decode (.bytes f bs)).map fun i => (i, rest) := by
  cases f with
  | token24 =>
    obtain ⟨control, lo, hi, rfl⟩ := List.length_eq_three.mp h
    rfl
  | tag16 =>
    obtain ⟨b0, b1, rfl⟩ := List.length_eq_two.mp h
    exact map_replace_rest (decodeTag (b0 ++ b1)) [] rest
  | containerBytes =>
    obtain ⟨b0, b1, b2, b3, rfl⟩ := List.length_eq_four.mp h
    exact map_replace_rest (decodeMagic (b0 ++ b1 ++ b2 ++ b3)) [] rest

theorem encode_bytes_length {i : Instr} {f : Format} {bs : List Byte} (h : encode i = .bytes f bs) : bs.length = f.size := by
  cases i <;> cases h <;> rfl

/-- Every instruction is selected by its own encoding. -/
theorem decode_encode : ∀ i : Instr, Laws.RoundTrip.Statement i
  | .nop => Laws.RoundTrip.nop
  | .lit control => Laws.RoundTrip.lit control
  | .copy offset control => Laws.RoundTrip.copy offset control
  | .buildTable => Laws.RoundTrip.buildTable
  | .buildToDecode => Laws.RoundTrip.buildToDecode
  | .decodeToken => Laws.RoundTrip.decodeToken
  | .decodeSymbol t => Laws.RoundTrip.decodeSymbol t
  | .decodeToExpand => Laws.RoundTrip.decodeToExpand
  | .expandToken => Laws.RoundTrip.expandToken
  | .complete => Laws.RoundTrip.complete
  | .start => Laws.RoundTrip.start
  | .regWrite offset data => Laws.RoundTrip.regWrite offset data
  | .regRead offset => Laws.RoundTrip.regRead offset
  | .magic => Laws.RoundTrip.magic
  | .soi => Laws.RoundTrip.soi
  | .dht => Laws.RoundTrip.dht
  | .b1 => Laws.RoundTrip.b1
  | .b2 => Laws.RoundTrip.b2

/-- Settles O1: each row's round trip, and the decoder's reading of bytes behind an encoding. -/
theorem decodeReadsBackEveryEncoding : Obligations.DecodeReadsBackEveryEncoding := by
  intro i hwf
  have hdecode : decode (encode i) = .ok i := decode_encode i hwf
  refine ⟨hdecode, fun f bs hbytes rest => ?_⟩
  rw [decodeBytes_append (encode_bytes_length hbytes), ← hbytes, hdecode]
  rfl

/-- Settles O3: each word is run through the decoder. -/
theorem tableWordsDecode : Obligations.TableWordsDecode := by
  unfold Obligations.TableWordsDecode
  decide

end Sys2Proof
end

section
/-! SUPPORT. The slot layout of a code (R133): code assignment places the codewords one behind the other from slot 0 up, and stops exactly
when they claim more than 65536 slots. -/

namespace Sys2Proof.Machine

/-! ## Slots and layouts -/

/-- The slots a list of codewords claims together (R133). -/
def slotsOf (cs : List (Nat × Byte)) : Nat := (cs.map fun c => slotCount c.1).sum

@[simp] theorem slotsOf_nil : slotsOf [] = 0 := rfl

@[simp] theorem slotsOf_cons (c : Nat × Byte) (cs : List (Nat × Byte)) : slotsOf (c :: cs) = slotCount c.1 + slotsOf cs := rfl

@[simp] theorem slotsOf_append (xs ys : List (Nat × Byte)) : slotsOf (xs ++ ys) = slotsOf xs + slotsOf ys := by
  simp [slotsOf]

theorem slotsOf_zip {lengths : List Nat} {symbols : List Byte} (h : lengths.length ≤ symbols.length) :
    slotsOf (lengths.zip symbols) = (lengths.map slotCount).sum :=
  calc slotsOf (lengths.zip symbols) = (((lengths.zip symbols).map Prod.fst).map slotCount).sum := by
        rw [List.map_map]; rfl
    _ = (lengths.map slotCount).sum := by rw [List.map_fst_zip h]

theorem slotCount_pos (len : Nat) : 0 < slotCount len := Nat.two_pow_pos _

/-- Slots below the claim of the first codewords do not depend on the later ones. -/
theorem slotLayout_append_of_lt {xs : List (Nat × Byte)} {slot : Nat} (h : slot < slotsOf xs) (ys : List (Nat × Byte)) :
    slotLayout (xs ++ ys) slot = slotLayout xs slot :=
  (slotLayout_append xs ys slot).trans (if_pos h)

/-- Every slot of the table holds what the layout of the codewords gives it (R133). -/
def Table.Lays (t : Table) (cs : List (Nat × Byte)) : Prop := ∀ w : Half, t.read w = slotLayout cs w.toNat

theorem Table.lays_cleared : Table.cleared.Lays [] := fun _ => rfl

/-- One more codeword, filled in behind those of `cs` (R127). -/
theorem Table.Lays.fill {t : Table} {cs : List (Nat × Byte)} (h : t.Lays cs) (len : Nat) (sym : Byte) :
    (t.fill (slotsOf cs) (slotCount len) (entryOf len sym)).Lays (cs ++ [(len, sym)]) := by
  intro w
  rw [Table.read_fill, h w]
  rcases lt_or_ge w.toNat (slotsOf cs) with hbelow | habove
  · rw [if_neg (by omega), slotLayout_append_of_lt hbelow]
  · have hrest : slotLayout (cs ++ [(len, sym)]) w.toNat = slotLayout [(len, sym)] (w.toNat - slotsOf cs) :=
      (slotLayout_append cs _ _).trans (if_neg (Nat.not_lt.mpr habove))
    rw [hrest, slotLayout_beyond cs _ habove]
    exact if_congr (by omega) rfl rfl

/-- Codewords behind a table that is full find no slot. -/
theorem Table.Lays.append_of_full {t : Table} {cs : List (Nat × Byte)} (h : t.Lays cs) (hfull : 65536 ≤ slotsOf cs)
    (rest : List (Nat × Byte)) : t.Lays (cs ++ rest) := fun w => by
  rw [h w, slotLayout_append_of_lt (lt_of_lt_of_le w.isLt hfull)]

/-- A code that does not fit, over the table that the codewords before the failing one have filled (R125, R131). -/
def Table.Overfull (t : Table) (cs : List (Nat × Byte)) : Prop := t.Lays cs ∧ 65536 < slotsOf cs

theorem Table.Overfull.append {t : Table} {cs : List (Nat × Byte)} (h : t.Overfull cs) (rest : List (Nat × Byte)) :
    t.Overfull (cs ++ rest) :=
  ⟨h.1.append_of_full h.2.le rest, by rw [slotsOf_append]; exact Nat.lt_add_right _ h.2⟩

/-! ## Code assignment (R125, R126) -/

/-- Code assignment stands at length `len` with the codewords `cs` placed. The code value, at every length, is that of the next free slot:
`start` is code · 2^(16 - len) = slotsOf cs, with no subtraction. -/
structure Assign.Placed (a : Assign) (len : Nat) (cs : List (Nat × Byte)) : Prop where
  start : a.code * 65536 = slotsOf cs * 2 ^ len
  fits : slotsOf cs ≤ 65536
  lays : a.table.Lays cs

/-- 16-bit slots split into the codeword's bits and the rest. -/
theorem two_pow_mul_slotCount {len : Nat} (h : len ≤ 16) : 2 ^ len * slotCount len = 65536 :=
  pow_mul_pow_sub 2 h

/-- The next codeword starts at the next free slot (R133). -/
theorem Assign.Placed.firstSlot_code {a : Assign} {len : Nat} {cs : List (Nat × Byte)} (h : a.Placed len cs) (hlen : len ≤ 16) :
    firstSlot a.code len = slotsOf cs := by
  refine Nat.eq_of_mul_eq_mul_right (Nat.two_pow_pos len) ?_
  calc a.code * slotCount len * 2 ^ len = a.code * (2 ^ len * slotCount len) := by ring
    _ = slotsOf cs * 2 ^ len := by rw [two_pow_mul_slotCount hlen, h.start]

/-- The code value fits its length exactly while a slot is free (R133). -/
theorem Assign.Placed.two_pow_le_code_iff {a : Assign} {len : Nat} {cs : List (Nat × Byte)} (h : a.Placed len cs) (hlen : len ≤ 16) :
    2 ^ len ≤ a.code ↔ 65536 ≤ slotsOf cs := by
  rw [← h.firstSlot_code hlen, ← two_pow_mul_slotCount hlen]
  exact (Nat.mul_le_mul_right_iff (slotCount_pos len)).symm

/-- Placing one codeword. -/
theorem Assign.Placed.next {a : Assign} {len : Nat} {cs : List (Nat × Byte)} (h : a.Placed len cs) (hlen : len ≤ 16)
    (hcode : a.code < 2 ^ len) (sym : Byte) (symbols : List Byte) :
    Assign.Placed ⟨a.code + 1, symbols, a.table.fill (firstSlot a.code len) (slotCount len) (entryOf len sym)⟩ len
      (cs ++ [(len, sym)]) where
  start := by
    have hpow := two_pow_mul_slotCount hlen
    have hstart := h.start
    simp only [slotsOf_append, slotsOf_cons, slotsOf_nil]
    linarith
  fits :=
    calc slotsOf (cs ++ [(len, sym)]) = (a.code + 1) * slotCount len := by
          rw [slotsOf_append, ← h.firstSlot_code hlen, firstSlot, slotsOf_cons, slotsOf_nil, slotCount]; ring
      _ ≤ 2 ^ len * slotCount len := Nat.mul_le_mul_right _ hcode
      _ = 65536 := two_pow_mul_slotCount hlen
  lays := by
    rw [h.firstSlot_code hlen]
    exact h.lays.fill len sym

/-- The shift of the code value after a length keeps its place (R126). -/
theorem Assign.Placed.shift {a : Assign} {len : Nat} {cs : List (Nat × Byte)} (h : a.Placed len cs) :
    Assign.Placed { a with code := a.code * 2 } (len + 1) cs where
  start := by
    have hstart := h.start
    simp only [pow_succ]
    linarith
  fits := h.fits
  lays := h.lays

/-- The codewords of one length are placed behind those before them, or the code is overfull (R125, R126). -/
theorem assignLength_cases {len : Nat} (hlen : len ≤ 16) (block rest : List Byte) : ∀ (a : Assign) (cs : List (Nat × Byte)),
    a.Placed len cs → a.symbols = block ++ rest →
    (∃ b, assignLength len block.length a = .ok b ∧ b.symbols = rest ∧
      b.Placed len (cs ++ (List.replicate block.length len).zip block)) ∨
    (∃ t, assignLength len block.length a = .error t ∧ t.Overfull (cs ++ (List.replicate block.length len).zip block)) := by
  induction block with
  | nil => exact fun a cs h hsym => .inl ⟨a, rfl, hsym, by simpa using h⟩
  | cons sym block ih =>
    intro a cs h hsym
    have hlist : cs ++ (List.replicate (sym :: block).length len).zip (sym :: block) =
        (cs ++ [(len, sym)]) ++ (List.replicate block.length len).zip block := by
      simp [List.replicate_succ]
    rw [hlist, List.length_cons, assignLength, hsym]
    by_cases hcode : 2 ^ len ≤ a.code
    · have hfull := (h.two_pow_le_code_iff hlen).mp hcode
      have hover : a.table.Overfull (cs ++ [(len, sym)]) := by
        refine ⟨h.lays.append_of_full hfull _, ?_⟩
        have hpos := slotCount_pos len
        simp only [slotsOf_append, slotsOf_cons, slotsOf_nil]
        omega
      exact .inr ⟨a.table, if_pos hcode, hover.append _⟩
    · rw [if_neg hcode]
      exact ih _ _ (h.next hlen (Nat.lt_of_not_le hcode) sym (block ++ rest)) rfl

/-- The codewords of counts (length, n) with their symbols in stored order (R93, R126). -/
def codewordsOf (l : List (Nat × Nat)) (symbols : List Byte) : List (Nat × Byte) :=
  (l.flatMap fun p => List.replicate p.2 p.1).zip symbols

theorem codewordsOf_cons (len : Nat) (l : List (Nat × Nat)) (block rest : List Byte) :
    codewordsOf ((len, block.length) :: l) (block ++ rest) = (List.replicate block.length len).zip block ++ codewordsOf l rest := by
  rw [codewordsOf, List.flatMap_cons, List.zip_append (by simp)]
  rfl

/-- Assignment over consecutive lengths lays all their codewords out, or the code is overfull (R125, R126, R133). -/
theorem assignLengths_cases (l : List (Nat × Nat)) : ∀ (len : Nat) (a : Assign) (cs : List (Nat × Byte)),
    l.map Prod.fst = List.range' len l.length → len + l.length ≤ 17 → (l.map Prod.snd).sum ≤ a.symbols.length →
    a.Placed len cs →
    (∃ t, assignLengths l a = .ok t ∧ t.Lays (cs ++ codewordsOf l a.symbols) ∧ slotsOf (cs ++ codewordsOf l a.symbols) ≤ 65536) ∨
    (∃ t, assignLengths l a = .error t ∧ t.Overfull (cs ++ codewordsOf l a.symbols)) := by
  induction l with
  | nil =>
    intro len a cs _ _ _ h
    have hlist : cs ++ codewordsOf [] a.symbols = cs := List.append_nil cs
    rw [hlist]
    exact .inl ⟨a.table, rfl, h.lays, h.fits⟩
  | cons p l ih =>
    obtain ⟨_, n⟩ := p
    intro len a cs hrange hlen hsum h
    simp only [List.map_cons, List.length_cons, List.range'_succ, List.cons.injEq, List.sum_cons] at hrange hlen hsum
    obtain ⟨rfl, hrange⟩ := hrange
    obtain ⟨block, rest, hsym, rfl⟩ : ∃ block rest, a.symbols = block ++ rest ∧ block.length = n :=
      ⟨_, _, (List.take_append_drop n a.symbols).symm, List.length_take_of_le (by omega)⟩
    rw [hsym, codewordsOf_cons, ← List.append_assoc]
    rw [hsym, List.length_append] at hsum
    rcases assignLength_cases (by omega) block rest a cs h hsym with ⟨b, hb, rfl, hplaced⟩ | ⟨t, ht, hover⟩
    · rw [assignLengths, hb]
      exact ih _ { b with code := b.code * 2 } _ hrange (by omega) (by simpa using hsum) hplaced.shift
    · rw [assignLengths, ht]
      exact .inr ⟨t, rfl, hover.append _⟩

/-! ## The codewords of a record -/

theorem lengthCounts_map_fst {counts : List Byte} (h : counts.length = 16) : (lengthCounts counts).map Prod.fst = List.range' 1 16 :=
  List.map_fst_zip (by simp [h])

theorem lengthCounts_map_snd {counts : List Byte} (h : counts.length = 16) :
    (lengthCounts counts).map Prod.snd = counts.map BitVec.toNat :=
  List.map_snd_zip (by simp [h])

/-- A record has S codewords (R124). -/
theorem codewordLengths_length {counts : List Byte} (h : counts.length = 16) : (codewordLengths counts).length = countSum counts := by
  rw [codewordLengths, List.length_flatMap, countSum, ← lengthCounts_map_snd h]
  simp only [List.length_replicate]

theorem codewordLengths_range {counts : List Byte} {len : Nat} (h : len ∈ codewordLengths counts) : 1 ≤ len ∧ len ≤ 16 := by
  obtain ⟨p, hp, hlen⟩ := List.mem_flatMap.mp h
  exact List.eq_of_mem_replicate hlen ▸ lengthCounts_range counts p hp

/-- Codewords are assigned in the order of their lengths (R126). -/
theorem codewordLengths_sorted {counts : List Byte} (h : counts.length = 16) : (codewordLengths counts).Pairwise (· ≤ ·) := by
  have hsorted : ((lengthCounts counts).map Prod.fst).Pairwise (· ≤ ·) := by
    rw [lengthCounts_map_fst h]
    decide
  refine List.pairwise_flatMap.mpr ⟨fun p _ => ?_, (List.pairwise_map.mp hsorted).imp fun {p q} hpq x hx y hy => ?_⟩
  · exact List.pairwise_replicate.mpr (.inr le_rfl)
  · rwa [List.eq_of_mem_replicate hx, List.eq_of_mem_replicate hy]

/-- Code assignment over a record (R125, R126, R133): the table of its layout, or an overfull code. -/
theorem assignCodes_cases {counts symbols : List Byte} (hc : counts.length = 16) (hs : symbols.length = countSum counts) :
    (∃ t, assignCodes counts symbols = .ok t ∧ t.Lays ((codewordLengths counts).zip symbols) ∧ slotsClaimed counts ≤ 65536) ∨
    (∃ t, assignCodes counts symbols = .error t ∧ t.Lays ((codewordLengths counts).zip symbols) ∧ 65536 < slotsClaimed counts) := by
  have hslots : slotsOf ((codewordLengths counts).zip symbols) = slotsClaimed counts :=
    slotsOf_zip (by rw [codewordLengths_length hc, hs])
  have hcount : (lengthCounts counts).length = 16 := by simp [lengthCounts, hc]
  have hsum : ((lengthCounts counts).map Prod.snd).sum ≤ symbols.length := by rw [lengthCounts_map_snd hc, hs, countSum]
  rw [← hslots]
  exact assignLengths_cases (lengthCounts counts) 1 ⟨0, symbols, Table.cleared⟩ [] (by rw [lengthCounts_map_fst hc, hcount])
    (by rw [hcount]) hsum ⟨by simp, Nat.zero_le _, Table.lays_cleared⟩

/-! ## Lookups in a layout (R98, R134) -/

/-- Where no codeword before it is longer, a codeword starts at a multiple of its slot count. -/
theorem slotCount_dvd_slotsOf {pre : List (Nat × Byte)} {len : Nat} (h : ∀ c ∈ pre, c.1 ≤ len) : slotCount len ∣ slotsOf pre := by
  refine List.dvd_sum fun x hx => ?_
  obtain ⟨c, hc, rfl⟩ := List.mem_map.mp hx
  exact pow_dvd_pow 2 (Nat.sub_le_sub_left (h c hc) 16)

/-- A codeword of the layout is found by its own code value: that of the slots before it (R98, R134). -/
theorem Table.Lays.codes {t : Table} {pre post : List (Nat × Byte)} {len : Nat} {sym : Byte} (h : t.Lays (pre ++ (len, sym) :: post))
    (h1 : 1 ≤ len) (h16 : len ≤ 16) (hpre : ∀ c ∈ pre, c.1 ≤ len) (hfits : slotsOf (pre ++ (len, sym) :: post) ≤ 65536) :
    ∃ code, code * slotCount len = slotsOf pre ∧ t.Codes code len sym := by
  obtain ⟨code, hcode⟩ := slotCount_dvd_slotsOf hpre
  rw [Nat.mul_comm] at hcode
  refine ⟨code, hcode.symm, h1, h16, ?_, fun w hw => ?_⟩
  · rw [slotsOf_append, slotsOf_cons, hcode] at hfits
    refine lt_of_mul_lt_mul_right (?_ : code * slotCount len < 2 ^ len * slotCount len) (Nat.zero_le _)
    have hpos : 0 < slotCount (len, sym).1 := slotCount_pos len
    rw [two_pow_mul_slotCount h16]
    omega
  · have hbounds : slotsOf pre ≤ w.toNat ∧ w.toNat < slotsOf pre + slotCount len := by
      rw [hcode, ← hw]
      exact ⟨Nat.div_mul_le_self _ _, Nat.lt_div_mul_add (slotCount_pos len)⟩
    obtain ⟨hle, hlt⟩ := hbounds
    calc t.read w = slotLayout ((len, sym) :: post) (w.toNat - slotsOf pre) :=
          (h w).trans ((slotLayout_append pre _ _).trans (if_neg (Nat.not_lt.mpr hle)))
      _ = entryOf len sym := if_pos (by omega)

end Sys2Proof.Machine
end

section
/-! SUPPORT. BUILD_TABLE on a record, by how much of it lies inside HT (R120 to R131): the state each build ends in. -/

namespace Sys2Proof.Machine

/-! ## Endings, and the state while a build reads -/

@[simp] theorem Res.done_andThen {α β : Type} (a : α) (s : State) (f : α → State → Res β) : (Res.done a s).andThen f = f a s := rfl

@[simp] theorem Res.fatal_andThen {α β : Type} (s : State) (f : α → State → Res β) : (Res.fatal s).andThen f = .fatal s := rfl

@[simp] theorem State.building_htPos (s : State) (k : CodeSpace) (T : Table) (p : Word) (w : BitVec 3) :
    (s.building k T p w).htPos = p := rfl

@[simp] theorem State.building_htLen (s : State) (k : CodeSpace) (T : Table) (p : Word) (w : BitVec 3) :
    (s.building k T p w).htLen = s.htLen := s.setTable_htLen k T

@[simp] theorem State.building_ht (s : State) (k : CodeSpace) (T : Table) (p : Word) (w : BitVec 3) : (s.building k T p w).ht = s.ht :=
  s.setTable_ht k T

@[simp] theorem State.building_buildIdx (s : State) (k : CodeSpace) (T : Table) (p : Word) (w : BitVec 3) :
    (s.building k T p w).buildIdx = s.buildIdx := s.setTable_buildIdx k T

@[simp] theorem State.building_tokCount (s : State) (k : CodeSpace) (T : Table) (p : Word) (w : BitVec 3) :
    (s.building k T p w).tokCount = s.tokCount := s.setTable_tokCount k T

@[simp] theorem State.building_maxTokens (s : State) (k : CodeSpace) (T : Table) (p : Word) (w : BitVec 3) :
    (s.building k T p w).maxTokens = s.maxTokens := s.setTable_maxTokens k T

@[simp] theorem State.building_setHtPos (s : State) (k : CodeSpace) (T : Table) (p q : Word) (w : BitVec 3) :
    (s.building k T p w).setHtPos q = s.building k T q w := rfl

@[simp] theorem State.building_setTable (s : State) (k : CodeSpace) (T U : Table) (p : Word) (w : BitVec 3) :
    (s.building k T p w).setTable k U = s.building k U p w := by
  simp [State.building]

/-! ## The record at HT_POS -/

theorem identifier_eq_ofNat : ∀ k : CodeSpace, identifier k = BitVec.ofNat 8 (0xF0 + k.val) := by decide

theorem Memory.length_readBytes (m : Memory) (a n : Nat) : (m.readBytes a n).length = n := by simp [Memory.readBytes]

theorem Memory.readBytes_congr {m m' : Memory} {a : Nat} (h : ∀ i ≥ a, m'.read i = m.read i) (n : Nat) :
    m'.readBytes a n = m.readBytes a n :=
  List.map_congr_left fun j _ => h (a + j) (Nat.le_add_right a j)

/-- WARN after the identifier of the record at HT_POS has been read (R123). -/
def State.recordWarn (s : State) (k : CodeSpace) : BitVec 3 :=
  if s.ht.read s.htPos.toNat = BitVec.ofNat 8 (0xF0 + k.val) then s.warn else s.warn ||| (1#3 <<< k.val)

/-- The 16 count bytes of the record at HT_POS (R124). -/
def State.recordCounts (s : State) : List Byte := s.ht.readBytes (s.htPos.toNat + 1) 16

/-- The symbol bytes of the record at HT_POS (R124). -/
def State.recordSymbols (s : State) : List Byte := s.ht.readBytes (s.htPos.toNat + 17) (countSum s.recordCounts)

@[simp] theorem State.recordCounts_length (s : State) : s.recordCounts.length = 16 := Memory.length_readBytes _ _ _

@[simp] theorem State.recordSymbols_length (s : State) : s.recordSymbols.length = countSum s.recordCounts := Memory.length_readBytes _ _ _

/-- The codewords of the record at HT_POS with their symbols, in assignment order (R93, R126). -/
def State.recordCodewords (s : State) : List (Nat × Byte) := (codewordLengths s.recordCounts).zip s.recordSymbols

/-! ## How much of the record is there (R121, R124) -/

/-- A build with no byte left (R121). -/
theorem buildTable_of_no_byte (k : CodeSpace) {s : State} (h : s.htLen.toNat ≤ s.htPos.toNat) :
    buildTable k s = .fatal ((s.setTable k Table.cleared).raiseFatal .htTruncated (spaceIndex k) 0) := by
  have hnext : htNext k (s.setTable k Table.cleared) = .fatal _ := if_neg (by simpa using h)
  rw [buildTable, hnext, Res.fatal_andThen]

/-- A build reads the identifier, which only warns, and goes on with the counts (R123). -/
theorem buildTable_of_identifier (k : CodeSpace) {s : State} (h : s.htPos.toNat < s.htLen.toNat) :
    ∃ p : Word, p.toNat = s.htPos.toNat + 1 ∧
      buildTable k s = (htNextMany k 16 (s.building k Table.cleared p (s.recordWarn k))).andThen fun counts s2 =>
        (readSymbols k (countSum counts) s2).andThen fun symbols s3 => installTable k counts symbols s3 := by
  rcases htNext_cases k (s.setTable k Table.cleared) with ⟨_, hnext, hpos⟩ | ⟨hlen, _⟩
  · refine ⟨s.htPos + 1#32, by simpa using hpos, ?_⟩
    rw [buildTable, hnext]
    simp only [Res.done_andThen, State.checkIdentifier_eq, identifier_eq_ofNat, State.setTable_ht, State.setTable_htPos,
      State.setHtPos_warn, State.setTable_warn]
    rfl
  · simp only [State.setTable_htPos, State.setTable_htLen] at hlen
    omega

/-- A record that ends inside the identifier and counts (R121, R131). -/
theorem buildTable_of_truncated_counts (k : CodeSpace) {s : State} (hpos : s.htPos.toNat < s.htLen.toNat)
    (hlen : s.htLen.toNat < s.htPos.toNat + 17) :
    buildTable k s =
      .fatal ((s.building k Table.cleared s.htLen (s.recordWarn k)).raiseFatal .htTruncated (spaceIndex k) 0) := by
  obtain ⟨p, hp, hbuild⟩ := buildTable_of_identifier k hpos
  rw [hbuild, htNextMany_fatal k 16 _ (by simp only [State.building_htPos, State.building_htLen]; omega)
    (by simp only [State.building_htPos, State.building_htLen]; omega)]
  simp

/-- A record with its counts inside HT goes on with the symbol block (R124). -/
theorem buildTable_of_counts (k : CodeSpace) {s : State} (h : s.htPos.toNat + 17 ≤ s.htLen.toNat) :
    ∃ p : Word, p.toNat = s.htPos.toNat + 17 ∧
      buildTable k s = (readSymbols k (countSum s.recordCounts) (s.building k Table.cleared p (s.recordWarn k))).andThen
        fun symbols s3 => installTable k s.recordCounts symbols s3 := by
  obtain ⟨p, hp, hbuild⟩ := buildTable_of_identifier k (s := s) (by omega)
  obtain ⟨q, hq, hcounts⟩ := htNextMany_done k 16 (s.building k Table.cleared p (s.recordWarn k))
    (by simp only [State.building_htPos, State.building_htLen]; omega)
  simp only [State.building_htPos, State.building_ht, State.building_setHtPos, hp] at hq hcounts
  refine ⟨q, by omega, ?_⟩
  rw [hbuild, hcounts, Res.done_andThen]
  rfl

/-- A symbol block that does not fit (R124, R131). -/
theorem buildTable_of_truncated_symbols (k : CodeSpace) {s : State} (hpos : s.htPos.toNat + 17 ≤ s.htLen.toNat)
    (hlen : s.htLen.toNat < s.htPos.toNat + 17 + countSum s.recordCounts) :
    buildTable k s = .fatal ((s.building k Table.cleared (Word.store (s.htPos.toNat + 17)) (s.recordWarn k)).raiseFatal
      .htTruncated (spaceIndex k) 0) := by
  obtain ⟨p, hp, hbuild⟩ := buildTable_of_counts k hpos
  have hread : readSymbols k (countSum s.recordCounts) (s.building k Table.cleared p (s.recordWarn k)) = .fatal _ :=
    if_pos (by simp only [State.building_htPos, State.building_htLen]; omega)
  have hstore : Word.store (s.htPos.toNat + 17) = p := by rw [← hp, Word.store, BitVec.ofNat_toNat, BitVec.setWidth_eq]
  rw [hbuild, hread, hstore, Res.fatal_andThen]

/-- A record inside HT is read whole, and its code assigned (R124, R128). -/
theorem buildTable_of_record (k : CodeSpace) {s : State} (h : s.htPos.toNat + 17 + countSum s.recordCounts ≤ s.htLen.toNat) :
    buildTable k s = installTable k s.recordCounts s.recordSymbols
      (s.building k Table.cleared (Word.store (s.htPos.toNat + 17 + countSum s.recordCounts)) (s.recordWarn k)) := by
  obtain ⟨p, hp, hbuild⟩ := buildTable_of_counts k (s := s) (by omega)
  have hread : readSymbols k (countSum s.recordCounts) (s.building k Table.cleared p (s.recordWarn k)) = .done _ _ :=
    if_neg (by simp only [State.building_htPos, State.building_htLen]; omega)
  rw [hbuild, hread, State.building_htPos, hp, State.building_ht, State.building_setHtPos, Res.done_andThen]
  rfl

theorem installTable_of_ok (k : CodeSpace) {counts symbols : List Byte} {T : Table} (h : assignCodes counts symbols = .ok T) (s : State) :
    installTable k counts symbols s = .done () (s.setTable k T) := by
  rw [installTable, h]

theorem installTable_of_error (k : CodeSpace) {counts symbols : List Byte} {T : Table} (h : assignCodes counts symbols = .error T)
    (s : State) : installTable k counts symbols s = .fatal ((s.setTable k T).raiseFatal .tableOversubscribed (spaceIndex k) 0) := by
  rw [installTable, h]

/-- The table of a record inside HT, whether its code fits or not (R125, R128, R133). -/
theorem buildTable_lays_out_record (k : CodeSpace) {s : State} (h : s.htPos.toNat + 17 + countSum s.recordCounts ≤ s.htLen.toNat) :
    ∃ T : Table, T.Lays s.recordCodewords ∧
      let u := s.building k T (Word.store (s.htPos.toNat + 17 + countSum s.recordCounts)) (s.recordWarn k)
      (slotsClaimed s.recordCounts ≤ 65536 → buildTable k s = .done () u) ∧
      (65536 < slotsClaimed s.recordCounts → buildTable k s = .fatal (u.raiseFatal .tableOversubscribed (spaceIndex k) 0)) := by
  rw [buildTable_of_record k h]
  rcases assignCodes_cases s.recordCounts_length s.recordSymbols_length with ⟨T, hT, hlays, hfits⟩ | ⟨T, hT, hlays, hover⟩
  · exact ⟨T, hlays, fun _ => by rw [installTable_of_ok k hT, State.building_setTable],
      fun hover => absurd hfits (Nat.not_le.mpr hover)⟩
  · exact ⟨T, hlays, fun hfits => absurd hfits (Nat.not_le.mpr hover),
      fun _ => by rw [installTable_of_error k hT, State.building_setTable]⟩

/-! ## What follows a build (R229, R234) -/

theorem State.afterBuild_of_ne_two {s : State} (h : s.buildIdx ≠ 2) : s.afterBuild = { s with buildIdx := s.buildIdx + 1 } := by
  unfold State.afterBuild
  split <;> rename_i hidx
  · rw [hidx]; rfl
  · rw [hidx]; rfl
  · exact absurd hidx h

theorem State.afterBuild_of_two {s : State} (h : s.buildIdx = 2) : s.afterBuild = s.buildToDecode := by
  unfold State.afterBuild
  rw [h]

theorem State.buildToDecode_of_le {s : State} (h : s.tokCount.toNat ≤ s.maxTokens.toNat) :
    s.buildToDecode = { s with phase := .decode, tokIdx := 0#32 } := if_neg (Nat.not_lt.mpr h)

theorem State.buildToDecode_of_lt {s : State} (h : s.maxTokens.toNat < s.tokCount.toNat) :
    s.buildToDecode = s.raiseFatal .tokenCapacity 0#32 0 := if_pos h

theorem State.table_buildToDecode (s : State) (k : CodeSpace) : s.buildToDecode.table k = s.table k := by
  unfold State.buildToDecode
  split <;> rfl

theorem State.table_afterBuild (s : State) (k : CodeSpace) : s.afterBuild.table k = s.table k := by
  unfold State.afterBuild
  split
  · rfl
  · rfl
  · exact s.table_buildToDecode k

/-! ## The table a build leaves -/

theorem exec_buildTable_of_done {s u : State} (h : buildTable s.buildIdx s = .done () u) : exec .buildTable s = .next u.afterBuild :=
  congrArg (Res.finish · State.afterBuild) h

theorem exec_buildTable_of_fatal {s u : State} (h : buildTable s.buildIdx s = .fatal u) : exec .buildTable s = .next u :=
  congrArg (Res.finish · State.afterBuild) h

theorem State.codewordLengths_length_le_recordSymbols (s : State) : (codewordLengths s.recordCounts).length ≤ s.recordSymbols.length := by
  rw [codewordLengths_length s.recordCounts_length, s.recordSymbols_length]

theorem State.recordCodewords_map_fst (s : State) : s.recordCodewords.map Prod.fst = codewordLengths s.recordCounts :=
  List.map_fst_zip s.codewordLengths_length_le_recordSymbols

theorem State.slotsOf_recordCodewords (s : State) : slotsOf s.recordCodewords = slotsClaimed s.recordCounts :=
  slotsOf_zip s.codewordLengths_length_le_recordSymbols

/-- A codeword of a record has a length of 1 to 16, and no codeword before it is longer (R126). -/
theorem State.recordCodewords_split {s : State} {pre post : List (Nat × Byte)} {len : Nat} {sym : Byte}
    (h : s.recordCodewords = pre ++ (len, sym) :: post) : (1 ≤ len ∧ len ≤ 16) ∧ ∀ c ∈ pre, c.1 ≤ len := by
  have hlengths : codewordLengths s.recordCounts = pre.map Prod.fst ++ len :: post.map Prod.fst := by
    rw [← s.recordCodewords_map_fst, h, List.map_append, List.map_cons]
  have hsorted := codewordLengths_sorted s.recordCounts_length
  rw [hlengths] at hsorted
  obtain ⟨_, _, hbefore⟩ := List.pairwise_append.mp hsorted
  exact ⟨codewordLengths_range (counts := s.recordCounts) (by simp [hlengths]),
    fun c hc => hbefore c.1 (List.mem_map_of_mem hc) len List.mem_cons_self⟩

/-- Settles O10: the built table is the record's layout, in which no codeword before another is longer (R98, R127, R134). -/
theorem builtCodewordsAreLookedUp : Obligations.BuiltCodewordsAreLookedUp := by
  intro s p counts n hlen hfits
  obtain ⟨T, hlays, hdone, _⟩ := buildTable_lays_out_record s.buildIdx (s := s) hlen
  refine ⟨_, exec_buildTable_of_done (hdone hfits), fun pre post len sym hsplit => ?_⟩
  replace hsplit : s.recordCodewords = pre ++ (len, sym) :: post := hsplit
  obtain ⟨⟨h1, h16⟩, hpre⟩ := State.recordCodewords_split hsplit
  have hslots : slotsOf s.recordCodewords ≤ 65536 := s.slotsOf_recordCodewords.trans_le hfits
  rw [hsplit] at hlays hslots
  rw [State.table_afterBuild, State.table_building, if_pos rfl]
  exact hlays.codes h1 h16 hpre hslots

/-- Settles O8: the build's table, and what follows by code space and by the token-store check (R125, R128, R133, R229, R234). -/
theorem buildTableLaysOutTheCode : Obligations.BuildTableLaysOutTheCode := by
  intro s k p counts n hlen
  obtain ⟨T, hlays, hdone, hfatal⟩ := buildTable_lays_out_record k (s := s) hlen
  refine ⟨T, hlays, ?_⟩
  intro w u
  have hnext : slotsClaimed counts ≤ 65536 → exec .buildTable s = .next u.afterBuild := fun hfits =>
    exec_buildTable_of_done (hdone hfits)
  have hidx : u.buildIdx = k := s.building_buildIdx k T _ w
  have htok : u.tokCount = s.tokCount := s.building_tokCount k T _ w
  have hmax : u.maxTokens = s.maxTokens := s.building_maxTokens k T _ w
  refine ⟨fun hfits hk => ?_, fun hfits hk hcap => ?_, fun hfits hk hcap => ?_, fun hover => ?_⟩
  · rw [hnext hfits, State.afterBuild_of_ne_two (hidx ▸ hk), hidx]
  · rw [hnext hfits, State.afterBuild_of_two (hidx.trans hk), State.buildToDecode_of_le (by rwa [htok, hmax])]
  · rw [hnext hfits, State.afterBuild_of_two (hidx.trans hk), State.buildToDecode_of_lt (by rwa [htok, hmax])]
  · exact exec_buildTable_of_fatal (hfatal hover)

/-- Settles O9: the three places a record can end too early (R121, R124, R131). -/
theorem buildTableReportsTruncation : Obligations.BuildTableReportsTruncation := by
  intro s k p n w cleared
  refine ⟨fun hlen => ?_, fun hpos hlen => ?_, fun hpos hlen => ?_⟩
  · exact exec_buildTable_of_fatal (buildTable_of_no_byte k (by rw [hlen]))
  · exact exec_buildTable_of_fatal (buildTable_of_truncated_counts k hpos hlen)
  · exact exec_buildTable_of_fatal (buildTable_of_truncated_symbols k hpos hlen)

end Sys2Proof.Machine
end

section
/-! SUPPORT. A build under another identifier: the record's counts and symbols, and so all but WARN, stay the same (R123). -/

namespace Sys2Proof.Machine

/-- Another HT buffer and another WARN. -/
def State.withHtWarn (s : State) (m : Memory) (w : BitVec 3) : State := { s with ht := m, warn := w }

/-- An operation's ending with its state changed by f, whether it completes or raises an error. -/
def Res.mapState {α : Type} (r : Res α) (f : State → State) : Res α :=
  match r with
  | .done a s => .done a (f s)
  | .fatal s => .fatal (f s)

/-- A change of state that commutes with what follows a completed operation changes the step's answer alike. -/
theorem Res.finish_mapState {α : Type} {r : Res α} {f g : State → State} {t : State} (hfg : ∀ s, g (f s) = f (g s))
    (h : r.finish g = .next t) : (r.mapState f).finish g = .next (f t) := by
  rcases Res.finish_cases h with ⟨a, u, rfl, rfl⟩ | rfl
  · exact congrArg _ (hfg u)
  · rfl

theorem State.building_withHtWarn (s : State) (k : CodeSpace) (T : Table) (p : Word) (m : Memory) (v w x : BitVec 3) :
    (s.withHtWarn m x).building k T p w = (s.building k T p v).withHtWarn m w := by
  match k with
  | 0 => rfl
  | 1 => rfl
  | 2 => rfl

theorem State.afterBuild_withHtWarn (m : Memory) (w : BitVec 3) (s : State) :
    (s.withHtWarn m w).afterBuild = s.afterBuild.withHtWarn m w := by
  have hcheck : (s.withHtWarn m w).buildToDecode = s.buildToDecode.withHtWarn m w := by
    rcases le_or_gt s.tokCount.toNat s.maxTokens.toNat with hcap | hcap
    · rw [State.buildToDecode_of_le hcap, State.buildToDecode_of_le (s := s.withHtWarn m w) hcap]
      rfl
    · rw [State.buildToDecode_of_lt hcap, State.buildToDecode_of_lt (s := s.withHtWarn m w) hcap]
      rfl
  obtain hidx | hidx := eq_or_ne s.buildIdx 2
  · rw [State.afterBuild_of_two hidx, State.afterBuild_of_two (s := s.withHtWarn m w) hidx, hcheck]
  · rw [State.afterBuild_of_ne_two hidx, State.afterBuild_of_ne_two (s := s.withHtWarn m w) hidx]
    rfl

/-- Under another identifier, over another WARN, a build ends as it did but for WARN (R123). -/
theorem buildTable_withHtWarn (k : CodeSpace) {s : State} (hpos : s.htPos.toNat < s.htLen.toNat) {m : Memory}
    (hread : ∀ i > s.htPos.toNat, m.read i = s.ht.read i) (w : BitVec 3) :
    buildTable k (s.withHtWarn m w) = (buildTable k s).mapState (State.withHtWarn · m ((s.withHtWarn m w).recordWarn k)) := by
  have hcounts : (s.withHtWarn m w).recordCounts = s.recordCounts := Memory.readBytes_congr hread 16
  have hsymbols : (s.withHtWarn m w).recordSymbols = s.recordSymbols := by
    rw [State.recordSymbols, State.recordSymbols, hcounts]
    exact Memory.readBytes_congr (fun i (hi : i ≥ s.htPos.toNat + 17) => hread i (by omega)) _
  have hbuilding (T : Table) (p : Word) := s.building_withHtWarn k T p m (s.recordWarn k) ((s.withHtWarn m w).recordWarn k) w
  rcases lt_or_ge s.htLen.toNat (s.htPos.toNat + 17) with hshort | hlong
  · rw [buildTable_of_truncated_counts k hpos hshort, buildTable_of_truncated_counts k (s := s.withHtWarn m w) hpos hshort, hbuilding]
    rfl
  rcases lt_or_ge s.htLen.toNat (s.htPos.toNat + 17 + countSum s.recordCounts) with hshort | hwhole
  · rw [buildTable_of_truncated_symbols k hlong hshort,
      buildTable_of_truncated_symbols k (s := s.withHtWarn m w) hlong (hcounts ▸ hshort), hbuilding]
    rfl
  · rw [buildTable_of_record k hwhole, buildTable_of_record k (s := s.withHtWarn m w) (hcounts ▸ hwhole), hcounts, hsymbols]
    cases hT : assignCodes s.recordCounts s.recordSymbols with
    | ok T =>
      rw [installTable_of_ok k hT, installTable_of_ok k hT, State.building_setTable, State.building_setTable, hbuilding]
      rfl
    | error T =>
      rw [installTable_of_error k hT, installTable_of_error k hT, State.building_setTable, State.building_setTable, hbuilding]
      rfl

/-- Settles O11: the build's reads behind HT_POS do not see the identifier, and WARN is the one place it enters (R123). -/
theorem identifierChangesOnlyTheWarning : Obligations.IdentifierChangesOnlyTheWarning := by
  intro s hwf hpos k
  obtain ⟨u, hu⟩ : ∃ u, (buildTable k s).finish State.afterBuild = .next u := Res.finish_next _ _
  refine ⟨u, fun b => ?_⟩
  have hbuild := buildTable_withHtWarn k hpos (fun i hi => Memory.read_write_other s.ht s.htPos.toNat i b (Nat.ne_of_lt hi)) s.warn
  have hwarn : (s.withHtWarn (s.ht.write s.htPos.toNat b) s.warn).recordWarn k =
      if b = BitVec.ofNat 8 (0xF0 + k.val) then s.warn else s.warn ||| (1#3 <<< k.val) :=
    if_congr (Eq.congr_left (Memory.read_write_same s.ht s.htPos.toNat b hwf)) rfl rfl
  rw [hwarn] at hbuild
  exact (congrArg (Res.finish · State.afterBuild) hbuild).trans (Res.finish_mapState (State.afterBuild_withHtWarn _ _) hu)

end Sys2Proof.Machine
end

section
/-! SUPPORT. DECODE_SYMBOL over a cursor that shows the stream: the lookup is of the next 16 stream bits, and its end check is about stream
positions (R150 to R158). -/

namespace Sys2Proof.Machine

@[simp] theorem State.refill_table (s : State) (t : CodeSpace) : s.refill.table t = s.table t := by
  rw [State.refill_frame]; rfl

/-- The word whose bits are the next 16 stream bits is the refilled cursor's window (R153). -/
theorem State.CursorInv.refill_window_eq {s : State} (h : s.CursorInv) {w : Half}
    (hw : ∀ j < 16, w.getLsbD (15 - j) = s.streamBit (s.consumed + j)) : s.refill.window = w := by
  obtain ⟨_, _, _, hshows⟩ := windowShowsTheStream s h
  refine BitVec.eq_of_getLsbD_eq fun i hi => ?_
  have hbit := (hshows (15 - i) (by omega)).trans (hw (15 - i) (by omega)).symm
  rwa [show 15 - (15 - i) = i by omega] at hbit

/-- The end check of R155, in stream positions: the codeword would pass the last CD bit. -/
theorem State.CursorInv.pastEnd_iff {s : State} (h : s.CursorInv) (len : Nat) :
    s.pastEnd len = true ↔ 8 * s.cdLen.toNat < s.consumed + len := by
  have hshifted := h.shifted
  unfold State.pastEnd State.consumed
  rw [decide_eq_true_iff]
  omega

/-- The refill moves no bit into or out of the stream, so the end check is about the position before it (R151, R155). -/
theorem State.CursorInv.refill_pastEnd_iff {s : State} (h : s.CursorInv) (len : Nat) :
    s.refill.pastEnd len = true ↔ 8 * s.cdLen.toNat < s.consumed + len := by
  have hlen : s.refill.cdLen = s.cdLen := by rw [State.refill_frame]
  rw [(s.refill_cursorInv h).pastEnd_iff, hlen, State.refill_consumed h]

/-- An error entry writes nothing the cursor's invariant reads (R284). -/
theorem State.CursorInv.raiseFatal {s : State} (h : s.CursorInv) (kind : ErrKind) (index : Word) (table : CodeSpace) :
    (s.raiseFatal kind index table).CursorInv := ⟨h.range, h.shifted, h.shows⟩

/-- What DECODE_SYMBOL answers, by the entry at the next 16 stream bits and the position behind its codeword (R154 to R157). -/
theorem State.CursorInv.decodeSymbol_eq {s : State} (h : s.CursorInv) (t : CodeSpace) {w : Half}
    (hw : ∀ j < 16, w.getLsbD (15 - j) = s.streamBit (s.consumed + j)) :
    let e := (s.table t).read w
    decodeSymbol t s =
      if e = 0#16 then .fatal (s.refill.raiseFatal .invalidPrefixCode s.tokIdx t)
      else if 8 * s.cdLen.toNat < s.consumed + entryLength e then .fatal (s.refill.raiseFatal .outOfCompressedData s.tokIdx t)
      else .done (entrySymbol e) (s.refill.consume e) := by
  have htok : s.refill.tokIdx = s.tokIdx := by rw [State.refill_frame]
  unfold decodeSymbol lookUp
  rw [State.refill_table, h.refill_window_eq hw, htok]
  exact if_congr Iff.rfl rfl (if_congr (h.refill_pastEnd_iff _) rfl rfl)

/-- A failing lookup keeps the refill's writes and consumes no bit (R158). -/
theorem exec_decodeSymbol_of_fatal {s : State} {t : CodeSpace} {kind : ErrKind} (h : s.CursorInv)
    (hf : decodeSymbol t s = .fatal (s.refill.raiseFatal kind s.tokIdx t)) :
    ∃ v : State, exec (.decodeSymbol t) s = .next v ∧ v.CursorInv ∧ 16 ≤ v.bitCnt.toNat ∧ v.consumed = s.consumed ∧
      v = State.raiseFatal { s with cdPos := v.cdPos, bitBuf := v.bitBuf, bitCnt := v.bitCnt } kind s.tokIdx t := by
  obtain ⟨hinv, h16, hconsumed, _⟩ := windowShowsTheStream s h
  exact ⟨s.refill.raiseFatal kind s.tokIdx t, congrArg (Res.finish · id) hf, hinv.raiseFatal kind s.tokIdx t, h16, hconsumed,
    congrArg (State.raiseFatal · kind s.tokIdx t) s.refill_frame⟩

/-- A completed lookup consumes LEN of the refilled bits and leaves the symbol in `symOut` (R156; log 8). -/
theorem exec_decodeSymbol_of_done {s : State} {t : CodeSpace} {e : Half} (h : s.CursorInv) (hlen : entryLength e ≤ 16)
    (hd : decodeSymbol t s = .done (entrySymbol e) (s.refill.consume e)) :
    ∃ v : State, exec (.decodeSymbol t) s = .next v ∧ v.CursorInv ∧ v.consumed = s.consumed + entryLength e ∧
      v = { s with cdPos := v.cdPos, bitBuf := v.bitBuf, bitCnt := v.bitCnt, symOut := entrySymbol e } := by
  obtain ⟨hinv, h16, hconsumed, _⟩ := windowShowsTheStream s h
  obtain ⟨hinv', hconsumed'⟩ := s.refill.consume_cursorInv e hinv (hlen.trans h16)
  refine ⟨s.refill.consume e, congrArg (Res.finish · id) hd, hinv', hconsumed ▸ hconsumed', ?_⟩
  rw [State.refill_frame]; rfl

/-- Settles O17: the lookup is of the next 16 stream bits, and its three ends exclude each other (R154 to R158). -/
theorem decodeSymbolFollowsTheEntry : Obligations.DecodeSymbolFollowsTheEntry := by
  intro s t w h hw e
  have hlookup := h.decodeSymbol_eq t hw
  refine ⟨fun he => ?_, fun he hend => ?_, fun he hlen hend => ?_⟩
  · exact exec_decodeSymbol_of_fatal h (hlookup.trans (if_pos he))
  · exact exec_decodeSymbol_of_fatal h (hlookup.trans ((if_neg he).trans (if_pos hend)))
  · exact exec_decodeSymbol_of_done h hlen (hlookup.trans ((if_neg he).trans (if_neg (Nat.not_lt.mpr hend))))

end Sys2Proof.Machine
end

section
/-! SUPPORT. DECODE_TOKEN where the stream holds the codewords: a lookup reproduces the symbol, three lookups the token, and the DECODE
phase the tokens one after another (R134, R172, R177). -/

namespace Sys2Proof.Machine

/-! ## One lookup -/

/-- A window that shows a codeword in its top bits lies in that codeword's slots (R98, R134). -/
theorem window_div_two_pow_eq {w : Half} {code len : Nat} (hlen : len ≤ 16) (hcode : code < 2 ^ len)
    (hw : ∀ j < len, w.getLsbD (15 - j) = code.testBit (len - 1 - j)) : w.toNat / 2 ^ (16 - len) = code := by
  refine Nat.eq_of_testBit_eq fun i => ?_
  rw [Nat.testBit_div_two_pow]
  rcases lt_or_ge i len with hi | hi
  · have hbit := hw (len - 1 - i) (by omega)
    rwa [show 15 - (len - 1 - i) = i + (16 - len) by omega, show len - 1 - (len - 1 - i) = i by omega] at hbit
  · have habove : w.getLsbD (i + (16 - len)) = false := BitVec.getLsbD_of_ge w _ (by omega)
    exact habove.trans (Nat.testBit_lt_two_pow (hcode.trans_le (Nat.pow_le_pow_right two_pos hi))).symm

/-- Where the stream holds a symbol's codeword inside CD, DECODE_SYMBOL answers the symbol and consumes the codeword (R134, R156). -/
theorem State.CursorInv.decodeSymbol_of_codes {s : State} (h : s.CursorInv) {k : CodeSpace} {code len : Nat} {sym : Byte}
    (hcodes : (s.table k).Codes code len sym) (hhas : s.StreamHas s.consumed code len) (hend : s.consumed + len ≤ 8 * s.cdLen.toNat) :
    ∃ u, decodeSymbol k s = .done sym u ∧ u.CursorInv ∧ u.consumed = s.consumed + len := by
  obtain ⟨hone, hlen, hcode, hread⟩ := hcodes
  obtain ⟨hinv, h16, hconsumed, hshows⟩ := windowShowsTheStream s h
  have hentry : (s.table k).read s.refill.window = entryOf len sym :=
    hread _ (window_div_two_pow_eq hlen hcode fun j hj => (hshows j (by omega)).trans (hhas j hj))
  have hlenEntry := entryLength_entryOf len sym hlen
  have hlookup := h.decodeSymbol_eq k hshows
  simp only [hentry, if_neg (entryOf_ne_zero len sym hone hlen), hlenEntry, if_neg (Nat.not_lt.mpr hend), entrySymbol_entryOf] at hlookup
  obtain ⟨hinv', hpos⟩ := s.refill.consume_cursorInv (entryOf len sym) hinv (hlenEntry.trans_le (hlen.trans h16))
  exact ⟨_, hlookup, hinv', by rw [hpos, hlenEntry, hconsumed]⟩

/-! ## What a lookup leaves unchanged -/

/-- Only the bit cursor and `symOut` differ. -/
def State.MovesCursor (s u : State) : Prop :=
  u = { s with cdPos := u.cdPos, bitBuf := u.bitBuf, bitCnt := u.bitCnt, symOut := u.symOut }

theorem State.MovesCursor.of_eq {s t u : State} (h : t = u) (hu : s.MovesCursor u) : s.MovesCursor t := h ▸ hu

theorem State.MovesCursor.refl (s : State) : s.MovesCursor s := rfl

theorem State.MovesCursor.trans {s t u : State} (h1 : s.MovesCursor t) (h2 : t.MovesCursor u) : s.MovesCursor u := by
  unfold State.MovesCursor at *
  rw [h2, h1]

theorem State.MovesCursor.phase {s u : State} (h : s.MovesCursor u) : u.phase = s.phase := (congrArg State.phase h :)

theorem decodeSymbol_done_movesCursor {k : CodeSpace} {s u : State} {b : Byte} (h : decodeSymbol k s = .done b u) : s.MovesCursor u :=
  .of_eq (decodeSymbol_done_frame h) rfl

/-- What three lookups, the store of their token and the sequencer's TOK_IDX + 1 write (R170, R171, R231). -/
theorem State.MovesCursor.storeToken_advanceToken {s u : State} (h : s.MovesCursor u) (c lo hi : Byte) :
    (u.storeToken c lo hi).advanceToken =
      { s with cdPos := u.cdPos, bitBuf := u.bitBuf, bitCnt := u.bitCnt, symOut := u.symOut,
               tok := s.tok.write s.tokIdx.toNat ⟨c, offsetOf lo hi⟩, tokIdx := s.tokIdx + 1#32 } :=
  (congrArg (fun v : State => (v.storeToken c lo hi).advanceToken) h :)

/-- A lookup after a move of the cursor, in terms of the tables and the stream before it. -/
theorem State.MovesCursor.decodeSymbol_of_codes {s u : State} (h : s.MovesCursor u) (hinv : u.CursorInv) {k : CodeSpace} {code len : Nat}
    {sym : Byte} (hcodes : (s.table k).Codes code len sym) (hhas : s.StreamHas u.consumed code len)
    (hend : u.consumed + len ≤ 8 * s.cdLen.toNat) :
    ∃ v, decodeSymbol k u = .done sym v ∧ s.MovesCursor v ∧ v.CursorInv ∧ v.consumed = u.consumed + len := by
  have htable : u.table k = s.table k := (congrArg (State.table · k) h :)
  have hstream : u.streamBit = s.streamBit := (congrArg State.streamBit h :)
  have hcdLen : u.cdLen = s.cdLen := (congrArg State.cdLen h :)
  obtain ⟨v, hv, hinvV, hpos⟩ := hinv.decodeSymbol_of_codes (k := k) (code := code) (len := len) (sym := sym) (by rwa [htable])
    (fun j hj => hstream ▸ hhas j hj) (by rwa [hcdLen])
  exact ⟨v, hv, h.trans (decodeSymbol_done_movesCursor hv), hinvV, hpos⟩

/-! ## One token -/

/-- Three completed lookups make a completed DECODE_TOKEN (R170, R172). -/
theorem exec_decodeToken_of_done {s s1 s2 s3 : State} {c lo hi : Byte} (h0 : decodeSymbol 0 s = .done c s1)
    (h1 : decodeSymbol 1 s1 = .done lo s2) (h2 : decodeSymbol 2 s2 = .done hi s3) :
    exec .decodeToken s = .next (s3.storeToken c lo hi).advanceToken := by
  have hdone : decodeToken s = .done () (s3.storeToken c lo hi) := by
    unfold decodeToken
    rw [h0, Res.done_andThen, h1, Res.done_andThen, h2, Res.done_andThen]
  exact congrArg (Res.finish · State.advanceToken) hdone

/-- Settles O18: each lookup reproduces its symbol and leaves the next codeword at the cursor (R170 to R172). -/
theorem decodeTokenReproducesTheToken : Obligations.DecodeTokenReproducesTheToken := by
  intro s c lo hi c0 l0 c1 l1 c2 l2 hinv hcodes0 hcodes1 hcodes2 hhas0 hhas1 hhas2 hend
  obtain ⟨s1, e0, hm1, hinv1, hpos1⟩ := (State.MovesCursor.refl s).decodeSymbol_of_codes hinv (k := 0) hcodes0 hhas0 (by omega)
  obtain ⟨s2, e1, hm2, hinv2, hpos2⟩ := hm1.decodeSymbol_of_codes hinv1 (k := 1) hcodes1 (hpos1 ▸ hhas1) (by omega)
  rw [hpos1] at hpos2
  obtain ⟨s3, e2, hm3, hinv3, hpos3⟩ := hm2.decodeSymbol_of_codes hinv2 (k := 2) hcodes2 (hpos2 ▸ hhas2) (by omega)
  rw [hpos2] at hpos3
  have hframe := hm3.storeToken_advanceToken c lo hi
  have htok : (s3.storeToken c lo hi).advanceToken.tok = s.tok.write s.tokIdx.toNat ⟨c, hi ++ lo⟩ := (congrArg State.tok hframe :)
  refine ⟨_, exec_decodeToken_of_done e0 e1 e2, ?_, fun i hne => ?_, { hinv3 with }, hpos3, htok ▸ hframe⟩
  · rw [htok, TokenStore.read_write_same]
  · rw [htok, TokenStore.read_write_other _ _ _ _ hne.symm]

/-! ## The DECODE phase -/

/-- Below TOK_COUNT a block step of the DECODE phase is a DECODE_TOKEN (R228, R231). -/
theorem step_decodeToken {s : State} (hagenda : s.agenda = []) (hp : s.phase = .decode) (hi : s.tokIdx.toNat < s.tokCount.toNat) :
    step s = exec .decodeToken s := by
  refine step_run ((fetch_of_no_moves hagenda).trans ?_)
  unfold fetchBlock
  rw [if_pos (State.busy_of_decode hp)]
  simp only [State.selection, hp, compare_lt_iff_lt.mpr hi]
  rfl

/-- A half word is its two bytes, high byte first. -/
theorem append_bytes_of_half (x : Half) : (x.extractLsb' 8 8 ++ x.extractLsb' 0 8 : BitVec (8 + 8)) = x :=
  (BitVec.extractLsb'_append_extractLsb'_eq_extractLsb' (show 8 = 0 + 8 from rfl)).trans BitVec.extractLsb'_eq_self

/-- The tokens ahead in the stream are told by the tables and CD alone, which no DECODE step writes. -/
theorem State.StreamHasTokens.of_decoded {s : State} {tokens : List Token} : ∀ {n : Nat}, s.StreamHasTokens n tokens →
    ∀ (cdPos : Nat) (bitBuf : Word) (bitCnt : BitVec 5) (symOut : Byte) (tok : TokenStore) (tokIdx : Word),
      ({ s with cdPos := cdPos, bitBuf := bitBuf, bitCnt := bitCnt, symOut := symOut, tok := tok, tokIdx := tokIdx } :
        State).StreamHasTokens n tokens := by
  induction tokens with
  | nil => exact fun _ _ _ _ _ _ _ => trivial
  | cons tk rest ih =>
    rintro n ⟨c0, l0, c1, l1, c2, l2, hcodes0, hcodes1, hcodes2, hhas0, hhas1, hhas2, hend, hrest⟩ cdPos bitBuf bitCnt symOut tok tokIdx
    exact ⟨c0, l0, c1, l1, c2, l2, hcodes0, hcodes1, hcodes2, hhas0, hhas1, hhas2, hend, ih hrest _ _ _ _ _ _⟩

/-- One step of the DECODE phase takes the first of the tokens ahead off the stream and stores it (R172, R231). -/
theorem step_decodes_token {s : State} {tk : Token} {rest : List Token} (hagenda : s.agenda = []) (hp : s.phase = .decode)
    (hinv : s.CursorInv) (hi : s.tokIdx.toNat < s.tokCount.toNat) (hhas : s.StreamHasTokens s.consumed (tk :: rest)) :
    ∃ u, step s = .next u ∧ u.tok.read s.tokIdx.toNat = tk ∧ (∀ i, i ≠ s.tokIdx.toNat → u.tok.read i = s.tok.read i) ∧
      u.CursorInv ∧ u.StreamHasTokens u.consumed rest ∧
      u = { s with cdPos := u.cdPos, bitBuf := u.bitBuf, bitCnt := u.bitCnt, symOut := u.symOut, tok := u.tok,
                   tokIdx := s.tokIdx + 1#32 } := by
  obtain ⟨c0, l0, c1, l1, c2, l2, hcodes0, hcodes1, hcodes2, hhas0, hhas1, hhas2, hend, hrest⟩ := hhas
  obtain ⟨u, hexec, hread, hother, hinv', hpos, hframe⟩ :=
    decodeTokenReproducesTheToken s _ _ _ _ _ _ _ _ _ hinv hcodes0 hcodes1 hcodes2 hhas0 hhas1 hhas2 hend
  rw [append_bytes_of_half] at hread
  have hahead : u.StreamHasTokens u.consumed rest := by
    rw [hpos, hframe]
    exact hrest.of_decoded _ _ _ _ _ _
  exact ⟨u, (step_decodeToken hagenda hp hi).trans hexec, hread, hother, hinv', hahead, hframe⟩

/-- A run of one more step begins with that step. -/
theorem core_run_succ {M : Host.Core} {s u : M.State} (h : M.step s = .next u) (n : Nat) : M.run (n + 1) s = M.run n u := by
  rw [Host.Core.run, h]

/-- Settles O19: by induction on the tokens ahead; each step takes the first of them off the stream (R172, R173, R177). -/
theorem decodePhaseReproducesTheTokens : Obligations.DecodePhaseReproducesTheTokens := by
  intro s tokens
  induction tokens generalizing s with
  | nil =>
    intro hagenda hp hinv hcount _
    have hidx : s.tokIdx = s.tokCount := BitVec.eq_of_toNat_eq hcount
    exact ⟨s, rfl, hp, hidx, hinv, nofun, fun _ _ => rfl, congrArg (fun i => { s with tokIdx := i }) hidx⟩
  | cons tk rest ih =>
    intro hagenda hp hinv hcount hhas
    rw [List.length_cons] at hcount
    have hi : s.tokIdx.toNat < s.tokCount.toNat := by omega
    obtain ⟨u, hstep, hread, hother, hinvU, hahead, hframeU⟩ := step_decodes_token hagenda hp hinv hi hhas
    have hagendaU : u.agenda = s.agenda := (congrArg State.agenda hframeU :)
    have hpU : u.phase = s.phase := (congrArg State.phase hframeU :)
    have hcountU : u.tokCount = s.tokCount := (congrArg State.tokCount hframeU :)
    have hidxU : u.tokIdx.toNat = s.tokIdx.toNat + 1 := (congrArg (·.tokIdx.toNat) hframeU).trans (Word.toNat_succ_of_lt hi)
    obtain ⟨t, hrun, hpT, hidxT, hinvT, hreadT, hkeptT, hframeT⟩ :=
      ih u (hagendaU.trans hagenda) (hpU.trans hp) hinvU (by rw [hcountU]; omega) hahead
    refine ⟨t, (core_run_succ (M := Sys2Proof.core) hstep _).trans hrun, hpT, hidxT.trans hcountU, hinvT, fun j tk' hj => ?_,
      fun i hlt => ?_, ?_⟩
    · cases j with
      | zero =>
        cases hj
        exact (hkeptT _ (by omega)).trans hread
      | succ j =>
        rw [← hreadT j tk' hj, hidxU, Nat.add_right_comm, Nat.add_assoc]
    · exact (hkeptT i (by omega)).trans (hother i (by omega))
    · rw [hframeT, hframeU]

end Sys2Proof.Machine
end

section
/-! SUPPORT. DECODE_TOKEN over any state: it stores one token, or faults in its first failing lookup and stores none (R170, R175). -/

namespace Sys2Proof.Machine

/-- A completed lookup is the step of the instruction DECODE_SYMBOL, and leaves STATE as it is (R150). -/
theorem exec_decodeSymbol_keeps_phase {k : CodeSpace} {s u : State} {b : Byte} (h : decodeSymbol k s = .done b u) :
    exec (.decodeSymbol k) s = .next u ∧ u.phase = s.phase :=
  ⟨congrArg (Res.finish · id) h, (decodeSymbol_done_movesCursor h).phase⟩

/-- A DECODE_TOKEN that faults does so in its first failing lookup, after lookups that only moved the cursor (R175). -/
theorem decodeToken_fatal_firstFailingLookup {s t : State} (h : decodeToken s = .fatal t) :
    ∃ (k : CodeSpace) (u : State), s.MovesCursor u ∧ decodeSymbol k u = .fatal t ∧ (s.phase ≠ .error → FirstFailingLookup s t k) := by
  rcases decodeToken_fatal h with h0 | ⟨c, s1, h0, h1⟩ | ⟨c, s1, lo, s2, h0, h1, h2⟩
  · exact ⟨0, s, .refl s, h0, fun _ => congrArg (Res.finish · id) h0⟩
  · obtain ⟨e0, hp1⟩ := exec_decodeSymbol_keeps_phase h0
    exact ⟨1, s1, decodeSymbol_done_movesCursor h0, h1, fun hp => ⟨s1, e0, hp1 ▸ hp, congrArg (Res.finish · id) h1⟩⟩
  · obtain ⟨e0, hp1⟩ := exec_decodeSymbol_keeps_phase h0
    obtain ⟨e1, hp2⟩ := exec_decodeSymbol_keeps_phase h1
    exact ⟨2, s2, (decodeSymbol_done_movesCursor h0).trans (decodeSymbol_done_movesCursor h1), h2,
      fun hp => ⟨s1, s2, e0, hp1 ▸ hp, e1, hp2 ▸ hp1 ▸ hp, congrArg (Res.finish · id) h2⟩⟩

/-- A failing lookup after a move of the cursor writes its error, with TOK_IDX as the index, and the cursor (R158, R285). -/
theorem State.MovesCursor.decodeSymbol_fatal {s u t : State} {k : CodeSpace} (h : s.MovesCursor u) (hf : decodeSymbol k u = .fatal t) :
    (t.errKind = .invalidPrefixCode ∨ t.errKind = .outOfCompressedData) ∧
      t = { s with cdPos := t.cdPos, bitBuf := t.bitBuf, bitCnt := t.bitCnt, symOut := t.symOut,
                   errKind := t.errKind, errIndex := s.tokIdx, errTable := k, phase := .error } := by
  obtain ⟨hkind, hframe⟩ := decodeSymbol_fatal_frame hf
  refine ⟨hkind, ?_⟩
  rw [hframe, h]
  rfl

/-- Settles O20: the token is stored behind the last lookup only (R170, R175). -/
theorem decodeTokenFaultsKeepTheStore : Obligations.DecodeTokenFaultsKeepTheStore := by
  intro s t h
  rcases Res.finish_cases h with ⟨⟨⟩, u, e, rfl⟩ | e
  · obtain ⟨c, s1, lo, s2, hi, s3, h0, h1, h2, rfl⟩ := decodeToken_done e
    have hm : s.MovesCursor s3 :=
      ((decodeSymbol_done_movesCursor h0).trans (decodeSymbol_done_movesCursor h1)).trans (decodeSymbol_done_movesCursor h2)
    exact .inl ⟨_, hm.storeToken_advanceToken c lo hi⟩
  · obtain ⟨k, u, hm, hf, hfirst⟩ := decodeToken_fatal_firstFailingLookup e
    obtain ⟨hkind, hframe⟩ := hm.decodeSymbol_fatal hf
    exact .inr ⟨k, hkind, hframe, hfirst⟩

end Sys2Proof.Machine
end

section
/-! SUPPORT. The token store and the tables over a step of a busy block: each entry and each table is written once (R43, R173). -/

namespace Sys2Proof.Machine

/-- No token but TOK[TOK_IDX] in DECODE and no table but T[BUILD_IDX] in BUILD differs. -/
structure State.WritesOnce (s t : State) : Prop where
  tokens : ∀ i, (s.phase = .decode → i ≠ s.tokIdx.toNat) → t.tok.read i = s.tok.read i
  tables : ∀ k : CodeSpace, (s.phase = .build → k ≠ s.buildIdx) → t.table k = s.table k

/-- A state equal to one with the same token store and tables. -/
theorem State.WritesOnce.of_eq {s t u : State} (h : t = u) (htok : u.tok = s.tok) (htable : ∀ k, u.table k = s.table k) :
    s.WritesOnce t :=
  ⟨fun _ _ => by rw [h, htok], fun k _ => h ▸ htable k⟩

theorem State.tok_afterBuild (s : State) : s.afterBuild.tok = s.tok := by
  obtain hidx | hidx := eq_or_ne s.buildIdx 2
  · rw [State.afterBuild_of_two hidx]
    unfold State.buildToDecode
    split <;> rfl
  · rw [State.afterBuild_of_ne_two hidx]

/-- The BUILD step writes T[BUILD_IDX] and no token (R43, R229). -/
theorem execBuildTable_writesOnce {s t : State} (hp : s.phase = .build) (h : execBuildTable s = .next t) : s.WritesOnce t := by
  have hbuilding (T : Table) (p : Word) (w : BitVec 3) : s.WritesOnce (s.building s.buildIdx T p w) :=
    ⟨fun _ _ => by rw [State.building_frame], fun k hk => by rw [State.table_building, if_neg (hk hp)]⟩
  unfold execBuildTable at h
  rcases buildTable_cases s.buildIdx s with ⟨T, p, w, e, _, _⟩ | ⟨p, w, e⟩ | ⟨T, p, w, e, _⟩ <;> rw [e] at h <;> cases h
  · obtain ⟨htokens, htables⟩ := hbuilding T p w
    exact ⟨fun i hi => by rw [State.tok_afterBuild, htokens i hi], fun k hk => by rw [State.table_afterBuild, htables k hk]⟩
  · exact { hbuilding Table.cleared p w with }
  · exact { hbuilding T p w with }

/-- The DECODE step writes TOK[TOK_IDX] and no table (R173). -/
theorem execDecodeToken_writesOnce {s t : State} (hp : s.phase = .decode) (h : execDecodeToken s = .next t) : s.WritesOnce t := by
  rcases decodeTokenFaultsKeepTheStore s t h with ⟨tk, e⟩ | ⟨k, _, e, _⟩
  · rw [e]
    exact ⟨fun i hi => TokenStore.read_write_other _ _ _ _ (hi hp).symm, fun _ _ => rfl⟩
  · exact .of_eq e rfl fun _ => rfl

/-- The EXPAND step writes no token and no table (R235). -/
theorem execExpandToken_writesOnce {s t : State} (h : execExpandToken s = .next t) : s.WritesOnce t := by
  unfold execExpandToken at h
  rcases expandToken_effect s with ⟨m, len, pos, e, _⟩ | ⟨kind, _, e⟩ <;> rw [e] at h <;> cases h
  · exact .of_eq rfl rfl fun _ => rfl
  · exact .of_eq rfl rfl fun _ => rfl

/-- Every transition of a busy block writes each token and each table once. -/
theorem State.Transition.writesOnce {s t : State} (hbusy : s.busy = true) (h : s.Transition t) : s.WritesOnce t := by
  cases h with
  | hostSide hblock => exact .of_eq hblock rfl fun _ => rfl
  | readReg offset => exact .of_eq (s.hostReadReg_frame offset) rfl fun _ => rfl
  | readByte p i => exact .of_eq (s.hostReadByte_frame p i) rfl fun _ => rfl
  | start => exact .of_eq (State.startCommand_of_busy hbusy) rfl fun _ => rfl
  | writeReg offset data => exact .of_eq (State.writeWord_of_busy hbusy offset data) rfl fun _ => rfl
  | build hp he => exact execBuildTable_writesOnce hp he
  | decode hp _ he => exact execDecodeToken_writesOnce hp he
  | decoded => exact .of_eq rfl rfl fun _ => rfl
  | expand _ _ he => exact execExpandToken_writesOnce he
  | complete => exact .of_eq rfl rfl fun _ => rfl
  | poll hidle => exact absurd hbusy (Bool.eq_false_iff.mp hidle)
  | fill p i v hidle => exact absurd hbusy (Bool.eq_false_iff.mp hidle)
  | handOver cap hidle => exact absurd hbusy (Bool.eq_false_iff.mp hidle)

/-- Settles O55: a step that is no reset is a transition, and each of those writes once (R43, R173, log 30). -/
theorem tokensAndTablesStayOnceWritten : Obligations.TokensAndTablesStayOnceWritten := by
  intro s t hbusy hnoReset hstep
  rcases step_transition hstep with ⟨rest, hreset, _⟩ | ⟨rest, htrans⟩
  · exact absurd hreset (hnoReset rest)
  · have hbusy' : ({ s with agenda := rest } : State).busy = true := hbusy
    obtain ⟨htokens, htables⟩ := htrans.writesOnce hbusy'
    exact ⟨htokens, htables⟩

end Sys2Proof.Machine
end

section
/-! SUPPORT. The token rows NOP, LIT and COPY, and the EXPAND step that dispatches to them (R190 to R200). -/

namespace Sys2Proof.Machine

theorem Word.toNat_store {n : Nat} (h : n < 2 ^ 32) : (Word.store n).toNat = n := by
  rw [Word.store, BitVec.toNat_ofNat, Nat.mod_eq_of_lt h]

/-! ## NOP -/

theorem exec_nop (s : State) : exec .nop s = .next s.advanceToken := rfl

/-- Settles O22: NOP completes in the state it starts in, and the sequencer moves on (R191, R235). -/
theorem nopHasNoEffect : Obligations.NopHasNoEffect := exec_nop

/-! ## LIT -/

section Lit

variable {s : State} {c : Byte}

theorem exec_lit_outOfLiteralData (hlit : s.litLen.toNat < s.litPos.toNat + litLength c) :
    exec (.lit c) s = .next (s.raiseFatal .outOfLiteralData s.tokIdx 0) :=
  congrArg (Res.finish · State.advanceToken) (if_pos hlit)

theorem exec_lit_overflow (hlit : s.litPos.toNat + litLength c ≤ s.litLen.toNat) (hcap : s.outCap.toNat < s.outLen.toNat + litLength c) :
    exec (.lit c) s = .next (s.raiseFatal .outputOverflow s.tokIdx 0) :=
  congrArg (Res.finish · State.advanceToken) ((if_neg hlit.not_gt).trans (if_pos hcap))

theorem exec_lit_of_fits (hlit : s.litPos.toNat + litLength c ≤ s.litLen.toNat) (hcap : s.outLen.toNat + litLength c ≤ s.outCap.toNat) :
    exec (.lit c) s = .next (s.copyLiterals (litLength c)).advanceToken :=
  congrArg (Res.finish · State.advanceToken) ((if_neg hlit.not_gt).trans (if_neg hcap.not_gt))

end Lit

/-- Settles O23: the two checks in R200's order, and behind them the literal move, read byte by byte (R192 to R195). -/
theorem litCopiesLiterals : Obligations.LitCopiesLiterals := by
  intro s c _
  refine ⟨fun hlit hcap hwf => ?_, exec_lit_outOfLiteralData, exec_lit_overflow⟩
  exact ⟨_, exec_lit_of_fits hlit hcap, fun j hj => Memory.read_copyFrom_inside _ _ _ _ _ j hj hwf,
    fun a ha => Memory.read_copyFrom_other _ _ _ _ _ a ha⟩

/-! ## COPY -/

/-- The source of a back-reference's next byte: one further on, or the first of the d again (R199). -/
theorem succ_mod_cases {d : Nat} (hd : 0 < d) (j : Nat) :
    (j % d + 1 = d ∧ (j + 1) % d = 0) ∨ (j % d + 1 < d ∧ (j + 1) % d = j % d + 1) := by
  have hlt := Nat.mod_lt j hd
  rw [← Nat.mod_add_mod]
  rcases (Nat.add_one_le_of_lt hlt).eq_or_lt with h | h
  · exact .inl ⟨h, by rw [h, Nat.mod_self]⟩
  · exact .inr ⟨h, Nat.mod_eq_of_lt h⟩

/-- A back-reference copy writes OUT and OUT_LEN only (R198). -/
theorem copyBytes_eq_setOut {d n : Nat} {s : State} (hfit : s.outLen.toNat + n < 2 ^ 32) :
    copyBytes d n s = s.setOut (copyBytes d n s).out (Word.store (s.outLen.toNat + n)) := by
  obtain ⟨m, len, e, hlen, _, _⟩ := copyBytes_frame d n s hfit
  have hstore : Word.store (s.outLen.toNat + n) = len := by rw [← hlen, Word.store, BitVec.ofNat_toNat, BitVec.setWidth_eq]
  rw [hstore, e]
  rfl

theorem read_copyBytes_other {d n a : Nat} {s : State} (hfit : s.outLen.toNat + n < 2 ^ 32)
    (ha : a < s.outLen.toNat ∨ s.outLen.toNat + n ≤ a) : (copyBytes d n s).out.read a = s.out.read a := by
  obtain ⟨m, len, e, _, _, hread⟩ := copyBytes_frame d n s hfit
  rw [e]
  exact hread a ha

/-- A back-reference copy repeats the last d bytes: each byte copied becomes the last of the d bytes
that the bytes behind it repeat (R198, R199). -/
theorem read_copyBytes_inside {d : Nat} (hd : 0 < d) (n : Nat) : ∀ s : State, d ≤ s.outLen.toNat → s.outLen.toNat + n < 2 ^ 32 →
    s.out.wf = true → ∀ j < n, (copyBytes d n s).out.read (s.outLen.toNat + j) = s.out.read (s.outLen.toNat - d + j % d) := by
  induction n with
  | zero => exact fun _ _ _ _ j hj => absurd hj (Nat.not_lt_zero j)
  | succ n ih =>
    intro s hle hfit hwf j hj
    have hlen : (s.copyByte d).outLen.toNat = s.outLen.toNat + 1 := by
      rw [State.copyByte_outLen, BitVec.toNat_add, BitVec.toNat_ofNat]
      omega
    have hnew : (s.copyByte d).out.read s.outLen.toNat = s.out.read (s.outLen.toNat - d) := Memory.read_write_same _ _ _ hwf
    cases j with
    | zero =>
      rw [copyBytes, Nat.zero_mod]
      exact (read_copyBytes_other (by omega) (.inl (by omega))).trans hnew
    | succ j =>
      have hrest := ih (s.copyByte d) (by omega) (by omega) (Memory.write_wf _ _ _ hwf) j (by omega)
      rw [copyBytes, show s.outLen.toNat + (j + 1) = (s.copyByte d).outLen.toNat + j by omega, hrest]
      rcases succ_mod_cases hd j with ⟨hj, e⟩ | ⟨hj, e⟩ <;> rw [e]
      · rw [show (s.copyByte d).outLen.toNat - d + j % d = s.outLen.toNat by omega]
        exact hnew
      · rw [show (s.copyByte d).outLen.toNat - d + j % d = s.outLen.toNat - d + (j % d + 1) by omega]
        exact Memory.read_write_other _ _ _ _ (by omega)

section Copy

variable {s : State} {o : Half} {c : Byte}

theorem exec_copy_invalidReference (href : s.outLen.toNat < copyDistance o) :
    exec (.copy o c) s = .next (s.raiseFatal .invalidReference s.tokIdx 0) :=
  congrArg (Res.finish · State.advanceToken) (if_pos href)

theorem exec_copy_overflow (href : copyDistance o ≤ s.outLen.toNat) (hcap : s.outCap.toNat < s.outLen.toNat + copyLength c) :
    exec (.copy o c) s = .next (s.raiseFatal .outputOverflow s.tokIdx 0) :=
  congrArg (Res.finish · State.advanceToken) ((if_neg href.not_gt).trans (if_pos hcap))

/-- A COPY whose checks pass writes OUT and OUT_LEN; TOK_IDX is the sequencer's (R198, R235). -/
theorem exec_copy_of_fits (href : copyDistance o ≤ s.outLen.toNat) (hcap : s.outLen.toNat + copyLength c ≤ s.outCap.toNat) :
    exec (.copy o c) s = .next
      (s.setOut (copyBytes (copyDistance o) (copyLength c) s).out (Word.store (s.outLen.toNat + copyLength c))).advanceToken := by
  rw [← copyBytes_eq_setOut (hcap.trans_lt s.outCap.isLt)]
  exact congrArg (Res.finish · State.advanceToken) ((if_neg href.not_gt).trans (if_neg hcap.not_gt))

end Copy

/-- Settles O24: the two checks in R200's order, and behind them the byte-by-byte move, whose bytes have period d (R196 to R199). -/
theorem copyRepeatsTheLastBytes : Obligations.CopyRepeatsTheLastBytes := by
  intro s o c ho
  have hd : 0 < copyDistance o := Nat.pos_of_ne_zero fun h0 => ho (BitVec.eq_of_toNat_eq h0)
  refine ⟨fun href hcap hwf => ?_, exec_copy_invalidReference, exec_copy_overflow⟩
  have hfit := hcap.trans_lt s.outCap.isLt
  exact ⟨_, exec_copy_of_fits href hcap, read_copyBytes_inside hd _ s href hfit hwf, fun _ ha => read_copyBytes_other hfit ha⟩

/-! ## EXPAND_TOKEN -/

/-- EXPAND_TOKEN is exec of the instruction its token stands for: both test the fields in one order (R103, R190). -/
theorem exec_expandToken (s : State) : exec .expandToken s = exec (s.tok.read s.tokIdx.toNat).instr s := by
  change (expandToken s).finish State.advanceToken = exec (decodeTokenFields _ _) s
  unfold expandToken decodeTokenFields
  dsimp only
  split_ifs <;> rfl

/-- Settles O25: the instruction of the token, kind by kind, with the counts its completion adds (R190 to R192, R196). -/
theorem expandTokenRunsItsKind : Obligations.ExpandTokenRunsItsKind := by
  intro s tk n
  have hkind : exec .expandToken s = exec (decodeTokenFields tk.offset tk.control) s := exec_expandToken s
  refine ⟨hkind, fun ho hc => ?nop, fun ho hc hlit hcap => ?lit, fun ho href hcap => ?copy⟩
  case nop =>
    rw [hkind, ho, hc]
    exact exec_nop s
  case lit =>
    rw [hkind, ho, decodeTokenFields_lit hc]
    exact ⟨_, exec_lit_of_fits hlit hcap, Word.toNat_store (hcap.trans_lt s.outCap.isLt),
      Word.toNat_store (hlit.trans_lt s.litLen.isLt), rfl⟩
  case copy =>
    rw [hkind, decodeTokenFields_copy _ ho]
    exact ⟨_, exec_copy_of_fits href hcap, Word.toNat_store (hcap.trans_lt s.outCap.isLt), rfl⟩

/-! ## The EXPAND step -/

/-- Below TOK_COUNT a block step of the EXPAND phase is an EXPAND_TOKEN (R228, R235). -/
theorem step_expandToken {s : State} (hagenda : s.agenda = []) (hp : s.phase = .expand) (hi : s.tokIdx.toNat < s.tokCount.toNat) :
    step s = exec .expandToken s := by
  have hfetch : fetchBlock s = .run .expandToken s := by
    simpa [hp, State.busy_of_expand hp, hi, hi.ne, hi.not_gt] using fetchBlock_cases s
  exact step_run ((fetch_of_no_moves hagenda).trans hfetch)

/-- A token's word decodes to the instruction the token stands for (R102, R103). -/
theorem decodeTokenWord_word (t : Token) : decodeTokenWord t.word = t.instr := by
  have hoffset : tokenWordOffset t.word = t.offset := by
    apply BitVec.eq_of_toNat_eq
    have := t.control.isLt
    rw [tokenWordOffset_eq_ofNat, Token.word, tokenWord, append_byte_toNat, BitVec.toNat_ofNat]
    omega
  have hcontrol : tokenWordControl t.word = t.control := by
    apply BitVec.eq_of_toNat_eq
    rw [tokenWordControl_eq_ofNat, Token.word, tokenWord, append_byte_toNat, BitVec.toNat_ofNat]
    omega
  rw [decodeTokenWord, hoffset, hcontrol, Token.instr]

/-- Settles O5: the step is EXPAND_TOKEN, which is the token's instruction, which its word decodes to (R190, R235). -/
theorem stepRunsTheDecodedToken : Obligations.StepRunsTheDecodedToken := by
  intro s hagenda hp hi
  calc step s = exec .expandToken s := step_expandToken hagenda hp hi
    _ = exec (s.tok.read s.tokIdx.toNat).instr s := exec_expandToken s
    _ = exec (decodeTokenWord (s.tok.read s.tokIdx.toNat).word) s := by rw [decodeTokenWord_word]

end Sys2Proof.Machine
end

section
/-! SUPPORT. The register port: what a register write does at each offset, and what a read returns (R22 to R41, R221 to R225). -/

namespace Sys2Proof.Machine

/-! ## START -/

theorem exec_start_idle {s : State} (hidle : s.busy = false) : exec .start s = .next s.beginRun :=
  congrArg Host.Outcome.next (if_neg (Bool.eq_false_iff.mp hidle))

/-- Settles O26: while idle START is `State.beginRun` (R222). -/
theorem startBeginsARun : Obligations.StartBeginsARun := fun _ => exec_start_idle

/-! ## Writes -/

theorem exec_regWrite_busy {s : State} (hbusy : s.busy = true) (offset data : Word) : exec (.regWrite offset data) s = .next s :=
  congrArg Host.Outcome.next (State.writeWord_of_busy hbusy offset data)

/-- While idle a write goes to the register at its offset (R224). -/
theorem State.writeWord_of_regAt {s : State} {offset : Word} {r : Reg} (hidle : s.busy = false) (hr : regAt offset = some r) (data : Word) :
    s.writeWord offset data = s.writeReg r data := by
  unfold State.writeWord
  rw [if_neg (Bool.eq_false_iff.mp hidle), hr]

/-- At an offset whose register, if any, ignores the word, a write is ignored, idle or busy (R41, R223, R225). -/
theorem exec_regWrite_ignored {s : State} {offset data : Word} (h : ∀ r, regAt offset = some r → s.writeReg r data = s) :
    exec (.regWrite offset data) s = .next s := by
  refine congrArg Host.Outcome.next ?_
  unfold State.writeWord
  split
  · rfl
  · split
    · exact h _ ‹_›
    · rfl

/-- A write of CTRL does nothing where bit 0 is 0 (R22). -/
theorem State.writeReg_ctrl_ignored (s : State) {data : Word} (h : data.getLsbD 0 = false) : s.writeReg .ctrl data = s :=
  if_neg (Bool.eq_false_iff.mp h)

/-- Settles O27: START goes by the block being busy, a write of CTRL by bit 0 (R22, R223). -/
theorem startIsIgnoredWhileBusy : Obligations.StartIsIgnoredWhileBusy := by
  intro s
  refine ⟨fun hbusy => congrArg Host.Outcome.next (State.startCommand_of_busy hbusy), fun data hbit => exec_regWrite_ignored ?_⟩
  rintro r ⟨⟩
  exact s.writeReg_ctrl_ignored hbit

/-- Settles O28: each of the five offsets is its register's, and a busy block takes no write (R224). -/
theorem writableRegistersStoreTheWord : Obligations.WritableRegistersStoreTheWord := by
  intro s data
  refine ⟨fun hidle => ?_, fun hbusy offset => exec_regWrite_busy hbusy offset data⟩
  have hwrite {offset : Word} (r : Reg) (hr : regAt offset = some r) : exec (.regWrite offset data) s = .next (s.writeReg r data) :=
    congrArg Host.Outcome.next (State.writeWord_of_regAt hidle hr data)
  exact ⟨hwrite .htLen rfl, hwrite .cdLen rfl, hwrite .tokCount rfl, hwrite .litLen rfl, hwrite .outCap rfl⟩

/-- CTRL and the five RW registers (10_state.md section 2). -/
def writableRegs : List Reg := [.ctrl, .htLen, .cdLen, .tokCount, .litLen, .outCap]

/-- A read-only register ignores the word (R225). -/
theorem State.writeReg_readOnly (s : State) {r : Reg} (h : r ∉ writableRegs) (data : Word) : s.writeReg r data = s := by
  cases r with
  | ctrl | htLen | cdLen | tokCount | litLen | outCap => exact absurd (by decide) h
  | status | errKind | errIndex | errTable | warn | outLen | buildIdx | tokIdx | htPos | cdPos | bitCnt | bitBuf | litPos => rfl

/-- Settles O29: an offset other than the six is unmapped or a read-only register's (R41, R225). -/
theorem otherWritesAreIgnored : Obligations.OtherWritesAreIgnored := by
  intro s offset data hoffset
  have hmap : ∀ p ∈ regMap, p.1 ∉ [0x00#32, 0x18#32, 0x1C#32, 0x20#32, 0x24#32, 0x28#32] → p.2 ∉ writableRegs := by decide
  exact exec_regWrite_ignored fun r hr => s.writeReg_readOnly (hmap _ (regAt_mem hr) hoffset) data

/-! ## Reads -/

/-- But for STATUS, a read gives the host the word and changes nothing else (R221). -/
theorem exec_regRead_of_ne_status (s : State) {offset : Word} (h : offset ≠ statusOffset) :
    exec (.regRead offset) s = .next { s with hostData := s.readWord offset } :=
  congrArg Host.Outcome.next (s.hostReadReg_other h)

theorem State.readWord_of_regAt (s : State) {offset : Word} {r : Reg} (h : regAt offset = some r) : s.readWord offset = s.regValue r := by
  rw [State.readWord, h]

/-- An offset beyond LIT_POS, or none of a word, is unmapped (R41, R64). -/
theorem regAt_eq_none {offset : Word} (h : 0x48 < offset.toNat ∨ offset.toNat % 4 ≠ 0) : regAt offset = none := by
  refine Option.eq_none_iff_forall_ne_some.mpr fun r hr => ?_
  have hrange := regAt_range hr
  omega

/-- Settles O30: offset by offset through the register map; STATUS is the one read with a point of synchronisation (R78, R221). -/
theorem regReadReturnsTheRegister : Obligations.RegReadReturnsTheRegister := by
  intro s reads
  have hread {offset : Word} (r : Reg) (hr : regAt offset = some r) (hne : r ≠ .status) : reads offset (s.regValue r) := by
    have hoffset : offset ≠ statusOffset := by
      rintro rfl
      exact hne (Option.some.inj hr.symm)
    rw [← s.readWord_of_regAt hr]
    exact exec_regRead_of_ne_status s hoffset
  refine ⟨congrArg Host.Outcome.next s.hostReadReg_status, hread .ctrl rfl nofun, hread .errKind rfl nofun, hread .errIndex rfl nofun,
    hread .errTable rfl nofun, hread .warn rfl nofun, hread .htLen rfl nofun, hread .cdLen rfl nofun, hread .tokCount rfl nofun,
    hread .litLen rfl nofun, hread .outCap rfl nofun, hread .outLen rfl nofun, hread .buildIdx rfl nofun, hread .tokIdx rfl nofun,
    hread .htPos rfl nofun, hread .cdPos rfl nofun, hread .bitCnt rfl nofun, hread .bitBuf rfl nofun, hread .litPos rfl nofun,
    fun offset hunmapped => ?_⟩
  have hnone := regAt_eq_none hunmapped
  have hoffset : offset ≠ statusOffset := by
    rintro rfl
    cases hnone
  have hzero : s.readWord offset = 0#32 := by rw [State.readWord, hnone]
  rw [← hzero]
  exact exec_regRead_of_ne_status s hoffset

/-- No unit writes HT, CD and LIT, so a read of theirs has no point of synchronisation (R61, R71). -/
theorem State.hostReadByte_input (s : State) {p : Port} (h : p ≠ .out) (i : Nat) :
    s.hostReadByte p i = { s with hostByte := (s.buffer p).read i } := by
  cases p with
  | out => exact absurd rfl h
  | ht | cd | lit => rfl

/-- Settles O56: the step is the read, which for an input buffer gives the byte it holds (R71, R220). -/
theorem hostReadsOfInputBuffers : Obligations.HostReadsOfInputBuffers := fun s _ i rest h hp =>
  (step_peek h).trans (congrArg Host.Outcome.next (State.hostReadByte_input { s with agenda := rest } hp i))

end Sys2Proof.Machine
end

section
/-! SUPPORT. What a host move runs (R220 to R226), and how a step leaves an idle block (R227, R287). -/

namespace Sys2Proof.Machine

/-! ## Writes and front-end moves -/

/-- What a START is told by: the offset of CTRL and bit 0 (R22). -/
theorem isStartWrite_iff (offset data : Word) : isStartWrite offset data = true ↔ offset = 0x00#32 ∧ data.getLsbD 0 = true := by
  rw [isStartWrite, Bool.and_eq_true, decide_eq_true_eq, ctrlOffset]

/-- A host write runs the instruction its encoding names (R222 to R225). -/
theorem step_write {s : State} {offset data : Word} {rest : List HostMove} (h : s.agenda = .write offset data :: rest) :
    step s = exec (decodeHostWrite offset data) { s with agenda := rest } := by
  apply step_run
  unfold fetch
  rw [h]
  rfl

/-- A front-end move in a phase that asks for a chunk runs that chunk's operation (R253 to R258). -/
theorem step_parse {s : State} {i : Instr} {rest : List HostMove} (h : s.agenda = .parse :: rest)
    (hi : fetchParse { s with agenda := rest } = .run i { s with agenda := rest }) : step s = exec i { s with agenda := rest } :=
  step_run ((fetch_of_parse h).trans hi)

/-- Settles O6: reads, writes and front-end moves, each by what its encoding or phase selects (log 2). -/
theorem stepRunsHostMoves : Obligations.StepRunsHostMoves := by
  intro s rest
  refine ⟨fun offset h => step_read h, fun offset data h hstart => ?_, fun offset data h hother => ?_, fun h => ?_⟩
  · rw [step_write h, decodeHostWrite, if_pos ((isStartWrite_iff offset data).mpr hstart)]
  · rw [step_write h, decodeHostWrite, if_neg (mt (isStartWrite_iff offset data).mp hother)]
  · exact ⟨fun hp => step_parse h (by simp only [fetchParse, hp]), fun hp => step_parse h (by simp only [fetchParse, hp]),
      fun hp => step_parse h (by simp only [fetchParse, hp]), fun hp => step_parse h (by simp only [fetchParse, hp]),
      fun hp => step_parse h (by simp only [fetchParse, hp])⟩

/-! ## The handover -/

/-- To an idle block the handover is the segment's (R226). -/
theorem fetch_of_decodeSegment {s : State} {outCap : Word} {rest : List HostMove} (h : s.agenda = .decodeSegment outCap :: rest)
    (hidle : s.busy = false) : fetch s = fetchSegment outCap { s with agenda := rest } := by
  unfold fetch
  rw [h]
  dsimp only
  rw [if_neg (Bool.eq_false_iff.mp hidle)]

/-- With a segment ready the host loads it and starts its run (R226, R313). -/
theorem step_decodeSegment_ready {s : State} {outCap : Word} {rest : List HostMove} (h : s.agenda = .decodeSegment outCap :: rest)
    (hidle : s.busy = false) (hready : s.fe.phase = .ready) :
    step s = .next (({ s with agenda := rest } : State).loadSegment outCap).beginRun := by
  have hfetch : fetch s = .run .start (({ s with agenda := rest } : State).loadSegment outCap) := by
    rw [fetch_of_decodeSegment h hidle, fetchSegment]
    simp only [hready]
  exact (step_run hfetch).trans (exec_start_idle hidle)

/-- Without a segment the handover does nothing (R264). -/
theorem step_decodeSegment_not_ready {s : State} {outCap : Word} {rest : List HostMove} (h : s.agenda = .decodeSegment outCap :: rest)
    (hidle : s.busy = false) (hready : s.fe.phase ≠ .ready) : step s = .next { s with agenda := rest } := by
  refine step_moved ((fetch_of_decodeSegment h hidle).trans ?_)
  unfold fetchSegment
  split
  · exact absurd ‹_› hready
  all_goals rfl

/-- Loading a buffer from index 0 makes it read as its bytes (R226). -/
theorem Memory.read_writeBytes_zero {m : Memory} {bs : List Byte} {j : Nat} {b : Byte} (hm : m.wf = true) (hj : bs[j]? = some b) :
    (m.writeBytes 0 bs).read j = b := by
  obtain ⟨hlt, hb⟩ := List.getElem?_eq_some_iff.mp hj
  have hread := Memory.read_writeBytes_inside bs m 0 j hlt hm
  rwa [Nat.zero_add, hb] at hread

/-- Loading a buffer from index 0 keeps the bytes behind the loaded ones (R226). -/
theorem Memory.read_writeBytes_beyond {m : Memory} {bs : List Byte} {j : Nat} (hj : bs.length ≤ j) :
    (m.writeBytes 0 bs).read j = m.read j :=
  Memory.read_writeBytes_other bs m 0 j (.inr ((Nat.zero_add _).trans_le hj))

/-- Settles O45: the handover is the load of the three buffers and the five registers, and a START (R222, R226, log 20). -/
theorem segmentHandoverStartsTheRun : Obligations.SegmentHandoverStartsTheRun := by
  intro s cap rest h hidle
  refine ⟨fun hready hht hcd hlit => ?_, step_decodeSegment_not_ready h hidle⟩
  exact ⟨_, step_decodeSegment_ready h hidle hready, rfl,
    fun _ _ => Memory.read_writeBytes_zero hht, fun _ => Memory.read_writeBytes_beyond,
    fun _ _ => Memory.read_writeBytes_zero hcd, fun _ => Memory.read_writeBytes_beyond,
    fun _ _ => Memory.read_writeBytes_zero hlit, fun _ => Memory.read_writeBytes_beyond⟩

/-! ## Steps of an idle block -/

/-- An idle block has no step of its own (R227, log 3). -/
theorem fetchBlock_of_idle {s : State} (hidle : s.busy = false) : fetchBlock s = .moved s := if_neg (Bool.eq_false_iff.mp hidle)

theorem step_of_idle {s : State} (hagenda : s.agenda = []) (hidle : s.busy = false) : step s = .next s :=
  step_moved ((fetch_of_no_moves hagenda).trans (fetchBlock_of_idle hidle))

/-- Settles O7: the three states are idle, and an idle block with no host move stays as it is (R21, R227). -/
theorem idleBlockStaysAsItIs : Obligations.IdleBlockStaysAsItIs := by
  intro s hagenda hp
  refine step_of_idle hagenda ?_
  rcases hp with hp | hp | hp <;> rw [State.busy, hp] <;> rfl

/-- Only CTRL is at offset 0 (10_state.md section 2). -/
theorem regAt_ctrl {offset : Word} (h : regAt offset = some .ctrl) : offset = 0x00#32 := by
  have hmap : ∀ p ∈ regMap, p.2 = .ctrl → p.1 = 0x00#32 := by decide
  exact hmap _ (regAt_mem h) rfl

theorem State.writeReg_phase (s : State) {r : Reg} (h : r ≠ .ctrl) (data : Word) : (s.writeReg r data).phase = s.phase := by
  cases r with
  | ctrl => exact absurd rfl h
  | status | errKind | errIndex | errTable | warn | htLen | cdLen | tokCount | litLen | outCap | outLen | buildIdx | tokIdx | htPos | cdPos
  | bitCnt | bitBuf | litPos => rfl

/-- A write that is no START leaves STATE as it is (R222, R224). -/
theorem State.writeWord_phase (s : State) {offset data : Word} (h : isStartWrite offset data = false) :
    (s.writeWord offset data).phase = s.phase := by
  unfold State.writeWord
  split
  · rfl
  · split
    · rename_i r hr
      by_cases hctrl : r = .ctrl
      · subst hctrl
        have hbit : ¬ data.getLsbD 0 = true := fun hbit =>
          Bool.eq_false_iff.mp h ((isStartWrite_iff offset data).mpr ⟨regAt_ctrl hr, hbit⟩)
        rw [s.writeReg_ctrl_ignored (Bool.eq_false_iff.mpr hbit)]
      · exact s.writeReg_phase hctrl data
    · rfl

/-- A host write to an idle block is a START or leaves STATE as it is (R222, R224). -/
theorem exec_hostWrite_phase {s t : State} {offset data : Word} (hidle : s.busy = false)
    (h : exec (decodeHostWrite offset data) s = .next t) :
    t.phase = s.phase ∨ (offset = 0x00#32 ∧ data.getLsbD 0 = true ∧ t.phase = .build) := by
  unfold decodeHostWrite at h
  split at h
  · obtain ⟨hoffset, hbit⟩ := (isStartWrite_iff offset data).mp ‹_›
    cases (exec_start_idle hidle).symm.trans h
    exact .inr ⟨hoffset, hbit, rfl⟩
  · cases h
    exact .inl (s.writeWord_phase (Bool.eq_false_iff.mpr ‹_›))

/-- A step left to an idle block only takes that move off the agenda (R227). -/
theorem step_wait_idle {s : State} {rest : List HostMove} (h : s.agenda = .wait :: rest) (hidle : s.busy = false) :
    step s = .next { s with agenda := rest } := by
  apply step_moved
  unfold fetch
  rw [h]
  exact fetchBlock_of_idle hidle

/-- A reset is a step, idle or busy (R310, R311). -/
theorem step_reset {s : State} {rest : List HostMove} (h : s.agenda = .reset :: rest) :
    step s = .next ({ s with agenda := rest } : State).resetBlock := by
  apply step_moved
  unfold fetch
  rw [h]

/-- How a step of an idle block leaves its STATE: as it is, in BUILD after a START or a handover, or in IDLE after a reset (R227, R287). -/
theorem step_phase_of_idle {s t : State} (hidle : s.busy = false) (hstep : step s = .next t) :
    t.phase = s.phase ∨
    (∃ data rest, s.agenda = .write 0x00#32 data :: rest ∧ data.getLsbD 0 = true ∧ t.phase = .build) ∨
    (∃ cap rest, s.agenda = .decodeSegment cap :: rest ∧ t.phase = .build) ∨
    (∃ rest, s.agenda = .reset :: rest ∧ t.phase = .idle) := by
  match hag : s.agenda with
  | [] =>
    cases (step_of_idle hag hidle).symm.trans hstep
    exact .inl rfl
  | .read offset :: rest =>
    cases (step_read hag).symm.trans hstep
    exact .inl (State.hostReadReg_phase _ offset)
  | .write offset data :: rest =>
    rcases exec_hostWrite_phase (s := { s with agenda := rest }) hidle ((step_write hag).symm.trans hstep) with
      hkept | ⟨rfl, hbit, hbuild⟩
    · exact .inl hkept
    · exact .inr (.inl ⟨data, rest, rfl, hbit, hbuild⟩)
  | .fill p i v :: rest =>
    cases (step_fill_idle hag hidle).symm.trans hstep
    exact .inl (congrArg State.phase (State.fillByte_frame _ p i v) :)
  | .peek p i :: rest =>
    cases (step_peek hag).symm.trans hstep
    exact .inl (congrArg State.phase (State.hostReadByte_frame _ p i) :)
  | .parse :: rest =>
    obtain ⟨u, hparse, hframe⟩ := parsingLeavesTheBlockAlone s rest hag
    cases hparse.symm.trans hstep
    exact .inl (congrArg State.phase hframe :)
  | .decodeSegment cap :: rest =>
    by_cases hready : s.fe.phase = .ready
    · cases (step_decodeSegment_ready hag hidle hready).symm.trans hstep
      exact .inr (.inr (.inl ⟨cap, rest, rfl, rfl⟩))
    · cases (step_decodeSegment_not_ready hag hidle hready).symm.trans hstep
      exact .inl rfl
  | .wait :: rest =>
    cases (step_wait_idle hag hidle).symm.trans hstep
    exact .inl rfl
  | .await :: rest =>
    cases (step_await_idle hag hidle).symm.trans hstep
    exact .inl rfl
  | .reset :: rest =>
    cases (step_reset hag).symm.trans hstep
    exact .inr (.inr (.inr ⟨rest, rfl, rfl⟩))

/-- Settles O15: a step that changes STATE of an idle block is one of the three (R227, R287). -/
theorem idleStatesAreLeftOnlyByTheHost : Obligations.IdleStatesAreLeftOnlyByTheHost := fun _ _ hidle hstep hne =>
  (step_phase_of_idle hidle hstep).resolve_left hne

end Sys2Proof.Machine
end

section
/-! SUPPORT. What a block step runs (R227, R228), and the phase changes as operations and as steps (R232, R234, R236). -/

namespace Sys2Proof.Machine

/-! ## The selected operation -/

/-- A busy block runs what the sequencer's table gives for its selection (R228). -/
theorem fetchBlock_of_selection {s : State} {i : Instr} (hbusy : s.busy = true) (hsel : decodeSelection s.selection = .ok i) :
    fetchBlock s = .run i s := by
  unfold fetchBlock
  rw [if_pos hbusy, decode, hsel]

/-- A busy block is stepped where the host makes no move, and where it polls (R220, R313). -/
theorem fetch_of_block_step {s : State} (h : s.agenda = [] ∨ ∃ rest, s.agenda = .await :: rest) (hbusy : s.busy = true) :
    fetch s = fetchBlock s := by
  rcases h with h | ⟨rest, h⟩
  · exact fetch_of_no_moves h
  · unfold fetch
    rw [h]
    dsimp only
    rw [if_pos hbusy]

theorem step_of_selection {s : State} {i : Instr} (h : s.agenda = [] ∨ ∃ rest, s.agenda = .await :: rest) (hbusy : s.busy = true)
    (hsel : decodeSelection s.selection = .ok i) : step s = exec i s :=
  step_run ((fetch_of_block_step h hbusy).trans (fetchBlock_of_selection hbusy hsel))

/-- Settles O4: the rows of the sequencer's table by STATE and by how TOK_IDX compares with TOK_COUNT (R228). -/
theorem stepRunsTheSelectedOperation : Obligations.StepRunsTheSelectedOperation := by
  intro s h
  have hselection {p : Phase} {o : Ordering} (hp : s.phase = p) (ho : compare s.tokIdx.toNat s.tokCount.toNat = o) :
      s.selection = ⟨p.code, false, o⟩ := by rw [State.selection, hp, ho]
  refine ⟨fun hp => ?_, fun hp hi => ?_, fun hp hi => ?_, fun hp hi => ?_, fun hp hi => ?_⟩
  · exact step_of_selection h (State.busy_of_build hp) (hselection hp rfl ▸ rfl)
  · exact step_of_selection h (State.busy_of_decode hp) (hselection hp (compare_lt_iff_lt.mpr hi) ▸ rfl)
  · exact step_of_selection h (State.busy_of_decode hp) (hselection hp (compare_eq_iff_eq.mpr (congrArg _ hi)) ▸ rfl)
  · exact step_of_selection h (State.busy_of_expand hp) (hselection hp (compare_lt_iff_lt.mpr hi) ▸ rfl)
  · exact step_of_selection h (State.busy_of_expand hp) (hselection hp (compare_eq_iff_eq.mpr (congrArg _ hi)) ▸ rfl)

/-! ## Phase changes -/

/-- Settles O12: the two sides of the token-store check (R234). -/
theorem buildToDecodeChecksTheTokenStore : Obligations.BuildToDecodeChecksTheTokenStore := fun _ =>
  ⟨fun hfit => congrArg Host.Outcome.next (State.buildToDecode_of_le hfit),
    fun habove => congrArg Host.Outcome.next (State.buildToDecode_of_lt habove)⟩

/-- Settles O21: the two operations, selected where TOK_IDX has reached TOK_COUNT (R232, R236). -/
theorem phaseChangesMoveTheSequencer : Obligations.PhaseChangesMoveTheSequencer := by
  intro s
  refine ⟨rfl, rfl, fun hagenda hi => ?_⟩
  obtain ⟨_, _, hdecoded, _, hcomplete⟩ := stepRunsTheSelectedOperation s (.inl hagenda)
  exact ⟨fun hp => hdecoded hp hi, fun hp => hcomplete hp hi⟩

end Sys2Proof.Machine
end

section
/-! SUPPORT. Block steps bring a run to its end (R227, R237): the states of a run, and the steps it has left. -/

namespace Sys2Proof.Machine

/-! ## The states of a run -/

/-- The run has ended, without an error or with one that is named (R236, R284). -/
def State.Ended (s : State) : Prop := s.phase = .done ∨ (s.phase = .error ∧ s.errKind ≠ .none)

/-- The state of a run that is under way, with a sequencer rule to go on by, or has ended (R35, R228). -/
inductive State.InRun (s : State) : Prop where
  | build : s.phase = .build → s.InRun
  | tokens : s.phase = .decode ∨ s.phase = .expand → s.tokIdx.toNat ≤ s.tokCount.toNat → s.InRun
  | ended : s.Ended → s.InRun

theorem State.Ended.busy_eq_false {s : State} (h : s.Ended) : s.busy = false := State.busy_eq_false_of_ended (h.imp_right And.left)

theorem State.busy_of_tokens {s : State} (hp : s.phase = .decode ∨ s.phase = .expand) : s.busy = true :=
  hp.elim State.busy_of_decode State.busy_of_expand

theorem State.InRun.ended_of_idle {s : State} (h : s.InRun) (hidle : s.busy = false) : s.Ended := by
  cases h with
  | build hp => exact absurd (State.busy_of_build hp) (Bool.eq_false_iff.mp hidle)
  | tokens hp _ => exact absurd (State.busy_of_tokens hp) (Bool.eq_false_iff.mp hidle)
  | ended hended => exact hended

/-! ## The steps left -/

theorem State.stepsLeft_build {s : State} (hp : s.phase = .build) : s.stepsLeft = 3 - s.buildIdx.val + 2 * s.tokCount.toNat + 2 := by
  simp only [State.stepsLeft, hp]

theorem State.stepsLeft_decode {s : State} (hp : s.phase = .decode) :
    s.stepsLeft = s.tokCount.toNat - s.tokIdx.toNat + s.tokCount.toNat + 2 := by
  simp only [State.stepsLeft, hp]

theorem State.stepsLeft_expand {s : State} (hp : s.phase = .expand) : s.stepsLeft = s.tokCount.toNat - s.tokIdx.toNat + 1 := by
  simp only [State.stepsLeft, hp]

theorem State.stepsLeft_ended {s : State} (h : s.Ended) : s.stepsLeft = 0 := by
  rcases h with hp | ⟨hp, _⟩ <;> simp only [State.stepsLeft, hp]

/-- The three busy phases (R21). -/
theorem State.busy_cases {s : State} (h : s.busy = true) : s.phase = .build ∨ s.phase = .decode ∨ s.phase = .expand := by
  cases hp : s.phase with
  | build => exact .inl rfl
  | decode => exact .inr (.inl rfl)
  | expand => exact .inr (.inr rfl)
  | idle | done | error =>
    rw [State.busy, hp] at h
    cases h

theorem State.stepsLeft_pos {s : State} (hbusy : s.busy = true) : 0 < s.stepsLeft := by
  rcases State.busy_cases hbusy with hp | hp | hp
  · rw [State.stepsLeft_build hp]; omega
  · rw [State.stepsLeft_decode hp]; omega
  · rw [State.stepsLeft_expand hp]; omega

/-- A step from the first state to the second brings the run on. -/
structure State.Advances (s t : State) : Prop where
  inRun : t.InRun
  stepsLeft : t.stepsLeft < s.stepsLeft

theorem State.Advances.of_ended {s t : State} (hbusy : s.busy = true) (h : t.Ended) : s.Advances t :=
  ⟨.ended h, (State.stepsLeft_ended h).trans_lt (State.stepsLeft_pos hbusy)⟩

theorem State.Advances.raiseFatal {s : State} (hbusy : s.busy = true) (u : State) {kind : ErrKind} (hkind : kind ≠ .none) (i : Word)
    (k : CodeSpace) : s.Advances (u.raiseFatal kind i k) :=
  .of_ended hbusy (.inr ⟨rfl, hkind⟩)

/-- A token's operation leaves one token less (R231, R235). -/
theorem State.Advances.of_token {s t : State} (hp : s.phase = .decode ∨ s.phase = .expand) (hi : s.tokIdx.toNat < s.tokCount.toNat)
    (hphase : t.phase = s.phase) (hidx : t.tokIdx = s.tokIdx + 1#32) (hcount : t.tokCount = s.tokCount) : s.Advances t := by
  have hsucc : t.tokIdx.toNat = s.tokIdx.toNat + 1 := hidx ▸ Word.toNat_succ_of_lt hi
  refine ⟨.tokens (hphase ▸ hp) (by rw [hsucc, hcount]; exact hi), ?_⟩
  rcases hp with hp | hp
  · rw [State.stepsLeft_decode (hphase.trans hp), State.stepsLeft_decode hp, hsucc, hcount]
    omega
  · rw [State.stepsLeft_expand (hphase.trans hp), State.stepsLeft_expand hp, hsucc, hcount]
    omega

/-! ## The sequencer's operations -/

/-- After a build comes the next code space, DECODE or TOKEN_CAPACITY (R229, R234). -/
theorem State.advances_afterBuild {s : State} (hp : s.phase = .build) : s.Advances s.afterBuild := by
  rcases eq_or_ne s.buildIdx 2 with hidx | hidx
  · rw [State.afterBuild_of_two hidx]
    rcases le_or_gt s.tokCount.toNat s.maxTokens.toNat with hfit | habove
    · rw [State.buildToDecode_of_le hfit]
      refine ⟨.tokens (.inl rfl) (Nat.zero_le _), ?_⟩
      rw [State.stepsLeft_build hp, hidx, State.stepsLeft_decode rfl]
      change s.tokCount.toNat - 0 + s.tokCount.toNat + 2 < 3 - 2 + 2 * s.tokCount.toNat + 2
      omega
    · rw [State.buildToDecode_of_lt habove]
      exact .raiseFatal (State.busy_of_build hp) s (by decide) _ _
  · have hdown : ∀ k : CodeSpace, k ≠ 2 → 3 - (k + 1).val < 3 - k.val := by decide
    have hlt := hdown _ hidx
    rw [State.afterBuild_of_ne_two hidx]
    refine ⟨.build hp, ?_⟩
    rw [State.stepsLeft_build hp, State.stepsLeft_build (s := { s with buildIdx := s.buildIdx + 1 }) hp]
    dsimp only
    omega

/-- Reading a record leaves the sequencer where it is. -/
theorem State.stepsLeft_building (s : State) (k : CodeSpace) (T : Table) (p : Word) (w : BitVec 3) :
    (s.building k T p w).stepsLeft = s.stepsLeft := by
  rw [State.building_frame]
  rfl

theorem execBuildTable_advances {s t : State} (hp : s.phase = .build) (h : execBuildTable s = .next t) : s.Advances t := by
  have hbusy := State.busy_of_build hp
  unfold execBuildTable at h
  rcases buildTable_cases s.buildIdx s with ⟨T, p, w, e, _, _⟩ | ⟨p, w, e⟩ | ⟨T, p, w, e, _⟩ <;> rw [e] at h <;> cases h
  · have hphase : (s.building s.buildIdx T p w).phase = .build := (congrArg State.phase (s.building_frame _ T p w)).trans hp
    obtain ⟨hrun, hlt⟩ := State.advances_afterBuild hphase
    exact ⟨hrun, hlt.trans_eq (s.stepsLeft_building _ T p w)⟩
  · exact .raiseFatal hbusy _ (by decide) _ _
  · exact .raiseFatal hbusy _ (by decide) _ _

theorem execDecodeToken_advances {s t : State} (hp : s.phase = .decode) (hi : s.tokIdx.toNat < s.tokCount.toNat)
    (h : execDecodeToken s = .next t) : s.Advances t := by
  rcases decodeTokenFaultsKeepTheStore s t h with ⟨tk, e⟩ | ⟨k, hkind, e, _⟩
  · exact .of_token (.inl hp) hi (congrArg State.phase e :) (congrArg State.tokIdx e :) (congrArg State.tokCount e :)
  · refine .of_ended (State.busy_of_decode hp) (.inr ⟨(congrArg State.phase e :), fun hnone => ?_⟩)
    rw [hnone] at hkind
    rcases hkind with hkind | hkind <;> cases hkind

theorem execExpandToken_advances {s t : State} (hp : s.phase = .expand) (hi : s.tokIdx.toNat < s.tokCount.toNat)
    (h : execExpandToken s = .next t) : s.Advances t := by
  unfold execExpandToken at h
  rcases expandToken_effect s with ⟨m, len, pos, e, _⟩ | ⟨kind, hkind, e⟩ <;> rw [e] at h <;> cases h
  · exact .of_token (.inr hp) hi rfl rfl rfl
  · refine .raiseFatal (State.busy_of_expand hp) s ?_ _ _
    rcases hkind with rfl | rfl | rfl <;> nofun

/-- DECODE_TO_EXPAND leaves the tokens to expand (R232). -/
theorem execDecodeToExpand_advances {s t : State} (hp : s.phase = .decode) (h : execDecodeToExpand s = .next t) : s.Advances t := by
  cases h
  refine ⟨.tokens (.inr rfl) (Nat.zero_le _), ?_⟩
  rw [State.stepsLeft_decode hp, State.stepsLeft_expand rfl]
  change s.tokCount.toNat - 0 + 1 < _
  omega

theorem execComplete_advances {s t : State} (hp : s.phase = .expand) (h : execComplete s = .next t) : s.Advances t := by
  cases h
  exact .of_ended (State.busy_of_expand hp) (.inl rfl)

/-! ## Steps -/

/-- A busy block of a run has a step, which brings the run on (R237). -/
theorem State.InRun.step_advances {s : State} (h : s.InRun) (hagenda : s.agenda = []) (hbusy : s.busy = true) :
    ∃ t, step s = .next t ∧ s.Advances t := by
  suffices hrun : ∃ i, fetchBlock s = .run i s ∧ ∀ t, exec i s = .next t → s.Advances t by
    obtain ⟨i, hfetch, hadv⟩ := hrun
    obtain ⟨t, hexec⟩ := exec_next i s
    exact ⟨t, (step_run ((fetch_of_no_moves hagenda).trans hfetch)).trans hexec, hadv t hexec⟩
  rcases fetchBlock_cases s with ⟨hidle, _⟩ | ⟨hp, e⟩ | ⟨hp, hi, e⟩ | ⟨hp, _, e⟩ | ⟨hp, hi, e⟩ | ⟨hp, _, e⟩ | ⟨hp, hi, _⟩
  · exact absurd hbusy (Bool.eq_false_iff.mp hidle)
  · exact ⟨_, e, fun _ => execBuildTable_advances hp⟩
  · exact ⟨_, e, fun _ => execDecodeToken_advances hp hi⟩
  · exact ⟨_, e, fun _ => execDecodeToExpand_advances hp⟩
  · exact ⟨_, e, fun _ => execExpandToken_advances hp hi⟩
  · exact ⟨_, e, fun _ => execComplete_advances hp⟩
  · cases h with
    | build hb => rcases hp with hp | hp <;> cases hb.symm.trans hp
    | tokens _ hle => exact absurd hi (Nat.not_lt.mpr hle)
    | ended hended => exact absurd hbusy (Bool.eq_false_iff.mp hended.busy_eq_false)

/-- A state of a run always has a step, to a state of the run; once it has ended, the step stays there (R227). -/
theorem State.InRun.step_inRun {s : State} (h : s.InRun) (hagenda : s.agenda = []) : ∃ t, step s = .next t ∧ t.InRun := by
  cases hbusy : s.busy with
  | false => exact ⟨s, step_of_idle hagenda hbusy, h⟩
  | true =>
    obtain ⟨t, hstep, hadv⟩ := h.step_advances hagenda hbusy
    exact ⟨t, hstep, hadv.inRun⟩

/-- Settles O48: a busy block in BUILD, or at a token up to TOK_COUNT, is in a run, whose steps bring it on (R237). -/
theorem blockStepsCountDown : Obligations.BlockStepsCountDown := by
  intro s hagenda hbusy hle
  have hrun : s.InRun := by
    rcases hle with hp | hle
    · exact .build hp
    · exact (State.busy_cases hbusy).elim .build fun hp => .tokens hp hle
  obtain ⟨t, hstep, hadv⟩ := hrun.step_advances hagenda hbusy
  exact ⟨t, hstep, step_agenda_of_no_moves hagenda hstep, hadv.stepsLeft⟩

/-! ## Whole runs -/

theorem step_keepsHostSide {s t : State} (hagenda : s.agenda = []) (hstep : step s = .next t) : s.KeepsHostSide t := by
  have hf : (fetch s).Answers t := step_next_cases hstep
  rw [fetch_of_no_moves hagenda] at hf
  exact fetchBlock_keepsHostSide hf

/-- Left alone, a block in a run ends it within the steps left, and touches nothing of the host's (R237). -/
theorem State.InRun.ends {s : State} (h : s.InRun) (hagenda : s.agenda = []) :
    ∃ (k : Nat) (t : State), k ≤ s.stepsLeft ∧ Host.Core.run Sys2Proof.core k s = .next t ∧ t.Ended ∧ s.KeepsHostSide t := by
  induction hn : s.stepsLeft using Nat.strong_induction_on generalizing s with
  | _ n ih =>
    subst hn
    cases hbusy : s.busy with
    | false => exact ⟨0, s, Nat.zero_le _, rfl, h.ended_of_idle hbusy, rfl⟩
    | true =>
      obtain ⟨u, hstep, hrun, hlt⟩ := h.step_advances hagenda hbusy
      obtain ⟨k, t, hk, hend, hended, hkeeps⟩ := ih _ hlt hrun (step_agenda_of_no_moves hagenda hstep) rfl
      exact ⟨k + 1, t, by omega, (core_run_succ (M := Sys2Proof.core) hstep k).trans hend, hended,
        (step_keepsHostSide hagenda hstep).trans hkeeps⟩

/-- The bound of a run at its START (R237). -/
theorem State.stepsLeft_beginRun (s : State) : s.beginRun.stepsLeft = 2 * s.tokCount.toNat + 5 := by
  rw [State.stepsLeft_build rfl]
  change 3 - 0 + 2 * s.tokCount.toNat + 2 = _
  omega

/-- Settles O49: a START's state is in a run with 2 TOK_COUNT + 5 steps left (R237). -/
theorem runEndsWithinItsBound : Obligations.RunEndsWithinItsBound := by
  intro s hagenda
  obtain ⟨k, t, hk, hrun, hended, _⟩ := State.InRun.ends (s := s.beginRun) (.build rfl) hagenda
  exact ⟨k, t, hk.trans_eq s.stepsLeft_beginRun, hrun, hended.imp_right And.left⟩

/-- The host reads the result of an ended run off its state, where its front end has not failed (R226). -/
theorem State.segmentResult_of_done {s : State} (hfe : s.fe.phase = .taken) (hp : s.phase = .done) :
    s.segmentResult = .output (s.out.readBytes 0 s.outLen.toNat) := by
  simp only [State.segmentResult, hfe, hp]

theorem State.segmentResult_of_error {s : State} (hfe : s.fe.phase = .taken) (hp : s.phase = .error) :
    s.segmentResult = .blockError s.errKind s.errIndex s.errTable := by
  simp only [State.segmentResult, hfe, hp]

/-- Settles O50: the handover is a START, whose run ends within its bound and leaves the front end as it is (R226, R237, log 20). -/
theorem segmentsGetAResult : Obligations.SegmentsGetAResult := by
  intro s cap hagenda hidle hready
  refine ⟨_, step_decodeSegment_ready hagenda hidle hready, rfl, rfl, ?_⟩
  obtain ⟨k, t, hk, hrun, hended, hkeeps⟩ :=
    State.InRun.ends (s := (({ s with agenda := [] } : State).loadSegment cap).beginRun) (.build rfl) rfl
  have hfe : t.fe.phase = .taken := (congrArg (·.fe.phase) hkeeps :)
  have hone : 1 ≤ k := by
    refine Nat.one_le_iff_ne_zero.mpr ?_
    rintro rfl
    cases hrun
    cases hended.busy_eq_false
  refine ⟨k, t, hone, hk.trans_eq (State.stepsLeft_beginRun _), hrun, hfe, ?_⟩
  rcases hended with hp | ⟨hp, hkind⟩
  · exact .inl ⟨hp, State.segmentResult_of_done hfe hp⟩
  · exact .inr ⟨hp, hkind, State.segmentResult_of_error hfe hp⟩

/-! ## Two runs over the same inputs -/

/-- Two states of one run stay so over any number of block steps, none of which stops the machine (R238). -/
theorem State.SameRun.run {k : Nat} : ∀ {s s' : State}, s.SameRun s' → s.InRun → s.agenda = [] → s'.agenda = [] →
    ∃ t t' : State, Host.Core.run Sys2Proof.core k s = .next t ∧ Host.Core.run Sys2Proof.core k s' = .next t' ∧ t.SameRun t' := by
  induction k with
  | zero => exact fun {s s'} h _ _ _ => ⟨s, s', rfl, rfl, h⟩
  | succ k ih =>
    intro s s' h hrun hagenda hagenda'
    obtain ⟨u, hstep, hrunU⟩ := hrun.step_inRun hagenda
    obtain ⟨u', hstep', hagendaU', hagendaU, hu⟩ := (stepKeepsSameRun s s' hagenda hagenda' h).1 u hstep
    obtain ⟨t, t', ht, ht', hsame⟩ := ih hu hrunU hagendaU hagendaU'
    exact ⟨t, t', (core_run_succ (M := Sys2Proof.core) hstep k).trans ht, (core_run_succ (M := Sys2Proof.core) hstep' k).trans ht', hsame⟩

theorem State.SameRun.readWord {s s' : State} (h : s.SameRun s') (offset : Word) : s.readWord offset = s'.readWord offset := by
  unfold State.readWord
  split
  · exact h.registers _
  · rfl

/-- Settles O52: after a START the inputs are all that two states need to share to be in one run (R62, R83, R238). -/
theorem runIgnoresLeftovers : Obligations.RunIgnoresLeftovers := by
  intro s s' k hagenda hagenda' hhtLen hcdLen hlitLen htokCount houtCap hmax hht hcd hlit hwf hwf'
  have hstart : s.beginRun.SameRun s'.beginRun := by
    refine ⟨fun r => ?_, rfl, hmax, hht, hcd, hlit, fun a ha => absurd ha (Nat.not_lt_zero a), ⟨hwf, hwf'⟩, ?_, ?_⟩
    · cases r with
      | htLen => exact hhtLen
      | cdLen => exact hcdLen
      | tokCount => exact htokCount
      | litLen => exact hlitLen
      | outCap => exact houtCap
      | ctrl | status | errKind | errIndex | errTable | warn | outLen | buildIdx | tokIdx | htPos | cdPos | bitCnt | bitBuf | litPos => rfl
    · rintro j (⟨_, hj⟩ | hdecode)
      · exact absurd hj (Nat.not_lt_zero j.val)
      · cases hdecode
    · rintro i (⟨hdecode, _⟩ | ⟨hexpand, _⟩)
      · cases hdecode
      · cases hexpand
  obtain ⟨t, t', ht, ht', hsame⟩ := hstart.run (k := k) (.build rfl) hagenda hagenda'
  exact ⟨t, t', ht, ht', hsame.readWord, hsame.out⟩

end Sys2Proof.Machine
end

section
/-! SUPPORT. The inputs of a run over a step of a busy block (R61, R76, R224). -/

namespace Sys2Proof.Machine

/-- The input buffers, MAX_TOKENS and the five RW registers are the same in both states. -/
def State.SameInputs (s t : State) : Prop :=
  t = { t with
    ht := s.ht, cd := s.cd, lit := s.lit, maxTokens := s.maxTokens
    htLen := s.htLen, cdLen := s.cdLen, tokCount := s.tokCount, litLen := s.litLen, outCap := s.outCap }

theorem State.SameInputs.of_eq {s t u : State} (h : t = u) (hu : s.SameInputs u) : s.SameInputs t := h ▸ hu

theorem State.KeepsHostSide.sameInputs {s t : State} (h : s.KeepsHostSide t) : s.SameInputs t := .of_eq h rfl

/-- Over every transition of a busy block the inputs stay the same. -/
theorem State.Transition.sameInputs {s t : State} (hbusy : s.busy = true) (h : s.Transition t) : s.SameInputs t := by
  cases h with
  | hostSide hblock => exact .of_eq hblock rfl
  | readReg offset => exact .of_eq (s.hostReadReg_frame offset) rfl
  | readByte p i => exact .of_eq (s.hostReadByte_frame p i) rfl
  | start => exact .of_eq (State.startCommand_of_busy hbusy) rfl
  | writeReg offset data => exact .of_eq (State.writeWord_of_busy hbusy offset data) rfl
  | build _ he => exact (execBuildTable_keepsHostSide he).sameInputs
  | decode _ _ he => exact (execDecodeToken_keepsHostSide he).sameInputs
  | decoded => exact .of_eq rfl rfl
  | expand _ _ he => exact (execExpandToken_keepsHostSide he).sameInputs
  | complete => exact .of_eq rfl rfl
  | poll hidle => exact absurd hbusy (Bool.eq_false_iff.mp hidle)
  | fill p i v hidle => exact absurd hbusy (Bool.eq_false_iff.mp hidle)
  | handOver cap hidle => exact absurd hbusy (Bool.eq_false_iff.mp hidle)

/-- Settles O53: a reset keeps the buffers and MAX_TOKENS, every other step is a transition (R12, R61, R224). -/
theorem runInputsStayFixed : Obligations.RunInputsStayFixed := by
  intro s t hbusy hstep
  rcases step_transition hstep with ⟨rest, hreset, rfl⟩ | ⟨rest, htrans⟩
  · exact ⟨rfl, rfl, rfl, rfl, fun hnoReset => absurd hreset (hnoReset rest)⟩
  · have hbusy' : ({ s with agenda := rest } : State).busy = true := hbusy
    have hsame := htrans.sameInputs hbusy'
    rw [hsame]
    exact ⟨rfl, rfl, rfl, rfl, fun _ => ⟨rfl, rfl, rfl, rfl, rfl⟩⟩

end Sys2Proof.Machine
end

section
/-! SUPPORT. The front end's reads where the stream holds the bytes: each is a step over the bytes still unread (R251, R252, R259). -/

namespace Sys2Proof.Machine

/-! ## Unread bytes -/

/-- The position lies in the stream, and these are the bytes from it to the end. -/
structure State.Unread (s : State) (bs : List Byte) : Prop where
  inside : s.fe.pos ≤ s.fe.stream.length
  left : s.fe.stream.drop s.fe.pos = bs

/-- Fewer than `n` bytes are left of the stream. -/
def State.Lacks (s : State) (n : Nat) : Prop := s.fe.stream.length < s.fe.pos + n

/-- The position moved on over bytes that were read (R251). -/
def State.feSkip (s : State) (n : Nat) : State := { s with fe := { s.fe with pos := s.fe.pos + n } }

/-- Warnings recorded behind the ones there are (R260). -/
def State.feNote (s : State) (ws : List FeWarning) : State := { s with fe := { s.fe with warnings := s.fe.warnings ++ ws } }

/-- What the field of two bytes warns of when it should hold `x` and `y` (R260). -/
def warnUnless (b0 b1 x y : Byte) (w : FeWarning) : List FeWarning := if b0 = x ∧ b1 = y then [] else [w]

theorem State.Unread.of_drop {s : State} {xs rest : List Byte} (h : s.fe.stream.drop s.fe.pos = xs ++ rest) (hne : xs ≠ []) :
    s.Unread (xs ++ rest) := by
  have hlength := congrArg List.length h
  have hpos := List.length_pos_iff.mpr hne
  rw [List.length_drop, List.length_append] at hlength
  exact ⟨by omega, h⟩

theorem State.lacks_of_drop {s : State} {n : Nat} (h : (s.fe.stream.drop s.fe.pos).length < n) : s.Lacks n := by
  rw [List.length_drop] at h
  unfold State.Lacks
  omega

theorem State.Unread.lacks {s : State} {bs : List Byte} {n : Nat} (h : s.Unread bs) (hn : bs.length < n) : s.Lacks n :=
  State.lacks_of_drop (h.left ▸ hn)

theorem State.Unread.note {s : State} {bs : List Byte} (h : s.Unread bs) (ws : List FeWarning) : (s.feNote ws).Unread bs :=
  ⟨h.inside, h.left⟩

theorem State.Unread.skip {s : State} {xs rest : List Byte} (n : Nat) (h : s.Unread (xs ++ rest)) (hn : xs.length = n) :
    (s.feSkip n).Unread rest := by
  subst hn
  obtain ⟨_, hinside, hleft⟩ := feTake_of_drop s xs rest h.inside h.left
  exact ⟨hinside, hleft⟩

@[simp] theorem State.feSkip_feSkip (s : State) (m n : Nat) : (s.feSkip m).feSkip n = s.feSkip (m + n) := by
  simp only [State.feSkip, Nat.add_assoc]

@[simp] theorem State.feSkip_feNote (s : State) (ws : List FeWarning) (n : Nat) : (s.feNote ws).feSkip n = (s.feSkip n).feNote ws := rfl

/-! ## One read -/

/-- A read of unread bytes returns them, and the operation goes on behind them (R251). -/
theorem State.Unread.take_andThen {α : Type} {s : State} {xs rest : List Byte} (n : Nat) (h : s.Unread (xs ++ rest)) (hn : xs.length = n)
    (f : List Byte → State → Res α) : (feTake n s).andThen f = f xs (s.feSkip n) := by
  subst hn
  exact congrArg (·.andThen f) (feTake_of_drop s xs rest h.inside h.left).1

/-- A field with an expected value is read whatever it holds (R259, R260). -/
theorem State.Unread.expect_andThen {α : Type} {s : State} {b0 b1 x y : Byte} {rest : List Byte} {v : Half}
    (h : s.Unread (b0 :: b1 :: rest)) (hv : v = (x ++ y : BitVec (8 + 8))) (w : FeWarning) (f : Half → State → Res α) :
    (feExpect v w s).andThen f = f (beHalf [b0, b1]) ((s.feSkip 2).feNote (warnUnless b0 b1 x y w)) :=
  congrArg (·.andThen f) (feExpect_of_drop s b0 b1 x y rest v w hv h.inside h.left).1

/-! ## Big-endian fields as numbers -/

theorem beHalf_toNat (h l : Byte) : (beHalf [h, l]).toNat = 256 * h.toNat + l.toNat := by
  rw [beHalf_pair, append_byte_toNat, Nat.mul_comm]

theorem beWord_toNat (c3 c2 c1 c0 : Byte) :
    (beWord [c3, c2, c1, c0]).toNat = 0x1000000 * c3.toNat + 0x10000 * c2.toNat + 0x100 * c1.toNat + c0.toNat := by
  rw [beWord_four, append_byte_toNat, append_byte_toNat, append_byte_toNat]
  omega

/-- A 16-bit field written as bytes (R65). -/
theorem halfBytes_fields (v : Half) : ∃ h l : Byte, halfBytes v = [h, l] ∧ 256 * h.toNat + l.toNat = v.toNat := by
  refine ⟨_, _, rfl, ?_⟩
  simp only [BitVec.extractLsb'_toNat, Nat.shiftRight_eq_div_pow]
  have := v.isLt
  omega

/-- A 32-bit field written as bytes (R65). -/
theorem wordBytes_fields (v : Word) : ∃ c3 c2 c1 c0 : Byte, wordBytes v = [c3, c2, c1, c0] ∧
    0x1000000 * c3.toNat + 0x10000 * c2.toNat + 0x100 * c1.toNat + c0.toNat = v.toNat := by
  refine ⟨_, _, _, _, rfl, ?_⟩
  simp only [BitVec.extractLsb'_toNat, Nat.shiftRight_eq_div_pow]
  have := v.isLt
  omega

/-- The magic is its four bytes (R250, log 26). -/
theorem beWord_eq_magicWord_iff (b0 b1 b2 b3 : Byte) :
    beWord [b0, b1, b2, b3] = magicWord ↔ b0 = 0x43#8 ∧ b1 = 0x52#8 ∧ b2 = 0x4F#8 ∧ b3 = 0x4D#8 := by
  have hmagic : magicWord.toNat = 0x1000000 * 0x43 + 0x10000 * 0x52 + 0x100 * 0x4F + 0x4D := rfl
  have h0 := b0.isLt
  have h1 := b1.isLt
  have h2 := b2.isLt
  have h3 := b3.isLt
  simp only [← BitVec.toNat_inj, beWord_toNat, hmagic, BitVec.toNat_ofNat]
  omega

end Sys2Proof.Machine
end

section
/-! SUPPORT. The chunks of a segment where the stream holds their fixed parts: what is read next, and the state of a whole chunk (R253 to
R258), and the segment of R261 read back. -/

namespace Sys2Proof.Machine

/-! ## The fixed parts -/

theorem soiTag_bytes : soiTag = (0xFF#8 ++ 0xD8#8 : BitVec (8 + 8)) := rfl
theorem dhtTag_bytes : dhtTag = (0xFF#8 ++ 0xC4#8 : BitVec (8 + 8)) := rfl
theorem b1Tag_bytes : b1Tag = (0xFF#8 ++ 0xB1#8 : BitVec (8 + 8)) := rfl
theorem b1Length_bytes : b1Length = (0x00#8 ++ 0x0B#8 : BitVec (8 + 8)) := rfl
theorem b2Tag_bytes : b2Tag = (0xFF#8 ++ 0xB2#8 : BitVec (8 + 8)) := rfl
theorem b2Length_bytes : b2Length = (0x00#8 ++ 0x06#8 : BitVec (8 + 8)) := rfl

section FixedPart

variable {s : State} {b0 b1 h l : Byte} {rest : List Byte}

/-- The start tag starts the segment's warnings anew (R253, log 21). -/
theorem feSoi_of_tag (hleft : s.Unread ([b0, b1] ++ rest)) :
    feSoi s = .done () { s with fe := { s.fe with
      phase := .dht, pos := s.fe.pos + 2, warnings := warnUnless b0 b1 0xFF#8 0xD8#8 .soiTag } } := by
  have hfresh : ({ s with fe := { s.fe with warnings := [] } } : State).Unread (b0 :: b1 :: rest) := ⟨hleft.inside, hleft.left⟩
  rw [feSoi, hfresh.expect_andThen soiTag_bytes]
  rfl

/-- Behind its tag and length the table-definition chunk goes on with the table bytes, unless the length is below 2 (R254). -/
theorem feDht_of_fixedPart (hleft : s.Unread ([b0, b1, h, l] ++ rest)) :
    let t := (s.feSkip 4).feNote (warnUnless b0 b1 0xFF#8 0xC4#8 .dhtTag)
    t.Unread rest ∧
    feDht s =
      if (beHalf [h, l]).toNat < 2 then .fatal (t.feFail .badLength)
      else (feTake ((beHalf [h, l]).toNat - 2) t).andThen fun body u =>
        .done () { u with fe := { u.fe with htBytes := body, phase := .b1 } } := by
  have hlength := (hleft.skip 2 (xs := [b0, b1]) rfl).note (warnUnless b0 b1 0xFF#8 0xC4#8 .dhtTag)
  refine ⟨(hleft.skip _ rfl).note _, ?_⟩
  rw [feDht, hleft.expect_andThen dhtTag_bytes, hlength.take_andThen 2 (xs := [h, l]) rfl]
  simp only [State.feSkip_feNote, State.feSkip_feSkip, Nat.reduceAdd]

/-- Behind its 13 bytes of fixed part the compressed-data chunk goes on with the bytes it counts (R255, R256). -/
theorem feB1_of_fixedPart {skip c3 c2 c1 c0 n3 n2 n1 n0 : Byte}
    (hleft : s.Unread ([b0, b1, h, l, skip, c3, c2, c1, c0, n3, n2, n1, n0] ++ rest)) :
    let t := ((s.feSkip 13).feNote (warnUnless b0 b1 0xFF#8 0xB1#8 .b1Tag)).feNote (warnUnless h l 0x00#8 0x0B#8 .b1Len)
    t.Unread rest ∧
    feB1 s = (feTake (beWord [c3, c2, c1, c0]).toNat t).andThen fun body u =>
      .done () { u with fe := { u.fe with cdBytes := body, tokN := beWord [n3, n2, n1, n0], phase := .b2 } } := by
  have hlength := (hleft.skip 2 (xs := [b0, b1]) rfl).note (warnUnless b0 b1 0xFF#8 0xB1#8 .b1Tag)
  have hskip := (hlength.skip 2 (xs := [h, l]) rfl).note (warnUnless h l 0x00#8 0x0B#8 .b1Len)
  have hcount := hskip.skip 1 (xs := [skip]) rfl
  have htok := hcount.skip 4 (xs := [c3, c2, c1, c0]) rfl
  refine ⟨((hleft.skip _ rfl).note _).note _, ?_⟩
  rw [feB1, hleft.expect_andThen b1Tag_bytes, hlength.expect_andThen b1Length_bytes, hskip.take_andThen 1 (xs := [skip]) rfl,
    hcount.take_andThen 4 (xs := [c3, c2, c1, c0]) rfl, htok.take_andThen 4 (xs := [n3, n2, n1, n0]) rfl]
  simp only [State.feSkip_feNote, State.feSkip_feSkip, Nat.reduceAdd]

/-- Behind its 8 bytes of fixed part the literal-data chunk goes on with the bytes it counts (R257, R258). -/
theorem feB2_of_fixedPart {c3 c2 c1 c0 : Byte} (hleft : s.Unread ([b0, b1, h, l, c3, c2, c1, c0] ++ rest)) :
    let t := ((s.feSkip 8).feNote (warnUnless b0 b1 0xFF#8 0xB2#8 .b2Tag)).feNote (warnUnless h l 0x00#8 0x06#8 .b2Len)
    t.Unread rest ∧
    feB2 s = (feTake (beWord [c3, c2, c1, c0]).toNat t).andThen fun body u =>
      .done () { u with fe := { u.fe with litBytes := body, phase := .ready } } := by
  have hlength := (hleft.skip 2 (xs := [b0, b1]) rfl).note (warnUnless b0 b1 0xFF#8 0xB2#8 .b2Tag)
  have hcount := (hlength.skip 2 (xs := [h, l]) rfl).note (warnUnless h l 0x00#8 0x06#8 .b2Len)
  refine ⟨((hleft.skip _ rfl).note _).note _, ?_⟩
  rw [feB2, hleft.expect_andThen b2Tag_bytes, hlength.expect_andThen b2Length_bytes, hcount.take_andThen 4 (xs := [c3, c2, c1, c0]) rfl]
  simp only [State.feSkip_feNote, State.feSkip_feSkip, Nat.reduceAdd]

end FixedPart

/-! ## Whole chunks -/

theorem exec_dht (s : State) : exec .dht s = (feDht s).finish id := rfl
theorem exec_b1 (s : State) : exec .b1 s = (feB1 s).finish id := rfl
theorem exec_b2 (s : State) : exec .b2 s = (feB2 s).finish id := rfl

/-- Settles O37: the tag is a field with an expected value (R253, R259). -/
theorem segmentStartTag : Obligations.SegmentStartTag := fun _ _ _ _ hleft =>
  congrArg (Res.finish · id) (feSoi_of_tag (.of_drop hleft nofun))

/-- Settles O38: behind the fixed part stand the L - 2 bytes, or L is below 2 (R254). -/
theorem tableDefinitionChunk : Obligations.TableDefinitionChunk := by
  intro s b0 b1 h l body rest hleft len warnings
  rw [List.append_assoc] at hleft
  obtain ⟨hbody, hdht⟩ := feDht_of_fixedPart (.of_drop hleft nofun)
  rw [beHalf_toNat] at hdht
  refine ⟨fun hlen => ?_, fun hlen => ?_⟩
  · rw [if_neg (by omega), hbody.take_andThen _ (by omega)] at hdht
    have hpos : s.fe.pos + 2 + len = s.fe.pos + 4 + (256 * h.toNat + l.toNat - 2) := by omega
    rw [hpos]
    rw [exec_dht, hdht]
    rfl
  · rw [if_pos hlen] at hdht
    exact ⟨_, (exec_dht s).trans (congrArg (Res.finish · id) hdht), rfl, rfl⟩

/-- Settles O39: behind the fixed part stand the CD_COUNT bytes (R255, R256). -/
theorem compressedDataChunk : Obligations.CompressedDataChunk := by
  intro s b0 b1 h l skip c3 c2 c1 c0 n3 n2 n1 n0 body rest hleft hcount
  rw [List.append_assoc] at hleft
  obtain ⟨hbody, hb1⟩ := feB1_of_fixedPart (.of_drop hleft nofun)
  rw [beWord_toNat, ← hcount, hbody.take_andThen _ rfl, beWord_four] at hb1
  rw [exec_b1, hb1]
  simp only [State.feSkip, State.feNote, warnUnless, Res.finish, id]

/-- Settles O40: behind the fixed part stand the LIT_COUNT bytes (R257, R258). -/
theorem literalDataChunk : Obligations.LiteralDataChunk := by
  intro s b0 b1 h l c3 c2 c1 c0 body rest hleft hcount
  rw [List.append_assoc] at hleft
  obtain ⟨hbody, hb2⟩ := feB2_of_fixedPart (.of_drop hleft nofun)
  rw [beWord_toNat, ← hcount, hbody.take_andThen _ rfl] at hb2
  rw [exec_b2, hb2]
  simp only [State.feSkip, State.feNote, warnUnless, Res.finish, id]

/-! ## The segment of R261 -/

/-- What stands behind the bytes of a chunk. -/
theorem drop_behind_chunk {stream chunk rest : List Byte} {p : Nat} (n : Nat) (h : stream.drop p = chunk ++ rest) (hn : chunk.length = n) :
    stream.drop (p + n) = rest := by
  rw [← List.drop_drop, h, List.drop_left' hn]

/-- Settles O42: the four chunks, each read from where the one before it ended (R261). -/
theorem segmentLayoutIsReadBack : Obligations.SegmentLayoutIsReadBack := by
  intro s htBytes cdBytes litBytes skip tokN rest hht hcd hlit hleft
  obtain ⟨h, l, hlenBytes, hlen⟩ := halfBytes_fields (BitVec.ofNat 16 (htBytes.length + 2))
  obtain ⟨c3, c2, c1, c0, hcdBytes, hcdCount⟩ := wordBytes_fields (Word.store cdBytes.length)
  obtain ⟨n3, n2, n1, n0, htokBytes, htok⟩ := wordBytes_fields tokN
  obtain ⟨l3, l2, l1, l0, hlitBytes, hlitCount⟩ := wordBytes_fields (Word.store litBytes.length)
  rw [BitVec.toNat_ofNat, Nat.mod_eq_of_lt hht] at hlen
  rw [Word.toNat_store hcd] at hcdCount
  rw [Word.toNat_store hlit] at hlitCount
  have htokN : n3 ++ n2 ++ n1 ++ n0 = tokN := by
    rw [← beWord_four, ← BitVec.toNat_inj, beWord_toNat, htok]
  have hsoi : s.fe.stream.drop s.fe.pos = [0xFF#8, 0xD8#8] ++
      ([0xFF#8, 0xC4#8, h, l] ++ htBytes ++
        ([0xFF#8, 0xB1#8, 0x00#8, 0x0B#8, skip, c3, c2, c1, c0, n3, n2, n1, n0] ++ cdBytes ++
          ([0xFF#8, 0xB2#8, 0x00#8, 0x06#8, l3, l2, l1, l0] ++ litBytes ++ rest))) := by
    rw [hleft, segmentBytes, hlenBytes, hcdBytes, htokBytes, hlitBytes]
    simp [halfBytes, soiTag, dhtTag, b1Tag, b1Length, b2Tag, b2Length]
  have hdht := drop_behind_chunk 2 hsoi rfl
  have hb1 := drop_behind_chunk (2 + (256 * h.toNat + l.toNat)) hdht
    (by simp only [List.length_append, List.length_cons, List.length_nil]; omega)
  have hb2 := drop_behind_chunk (13 + cdBytes.length) hb1 (by simp only [List.length_append, List.length_cons, List.length_nil])
  rw [← Nat.add_assoc] at hb1 hb2
  rw [← Nat.add_assoc] at hb2
  refine ⟨_, _, _, _, segmentStartTag s _ _ _ hsoi, (tableDefinitionChunk _ _ _ _ _ _ _ hdht).1 hlen.symm,
    compressedDataChunk _ _ _ _ _ _ _ _ _ _ _ _ _ _ _ _ hb1 hcdCount.symm,
    literalDataChunk _ _ _ _ _ _ _ _ _ _ _ hb2 hlitCount.symm, ?_⟩
  have hpos : s.fe.pos + 2 + 2 + (256 * h.toNat + l.toNat) + 13 + cdBytes.length + 8 + litBytes.length =
      s.fe.pos + 27 + htBytes.length + cdBytes.length + litBytes.length := by omega
  simp only [htokN, hpos]
  rfl

end Sys2Proof.Machine
end

section
/-! SUPPORT. Chunks that run past the end of the stream: a read of more bytes than are left ends the operation it stands in (R252). -/

namespace Sys2Proof.Machine

/-- The operation ends with FE_TRUNCATED_INPUT. -/
def Res.Truncated {α : Type} (r : Res α) : Prop := ∃ t, r = .fatal t ∧ t.fe.phase = .failed .truncatedInput

theorem Res.Truncated.andThen {α β : Type} {r : Res α} (h : r.Truncated) (f : α → State → Res β) : (r.andThen f).Truncated := by
  obtain ⟨t, rfl, hphase⟩ := h
  exact ⟨t, rfl, hphase⟩

theorem Res.Truncated.finish {s : State} {r : Res Unit} (h : r.Truncated) (hside : r.HostSide s) :
    ∃ t, r.finish id = .next t ∧ s.SameBlock t ∧ t.fe.phase = .failed .truncatedInput := by
  obtain ⟨t, rfl, hphase⟩ := h
  exact ⟨t, rfl, hside, hphase⟩

/-! ## Reads -/

theorem State.Lacks.skip {s : State} {n m : Nat} (h : s.Lacks (n + m)) : (s.feSkip n).Lacks m := by
  unfold State.Lacks at *
  rw [State.feSkip, Nat.add_assoc]
  exact h

theorem feTake_fatal_of_lacks {n : Nat} {s : State} (h : s.Lacks n) : feTake n s = .fatal (s.feFail .truncatedInput) :=
  if_neg (Nat.not_le_of_lt h)

theorem feTake_truncated {n : Nat} {s : State} (h : s.Lacks n) : (feTake n s).Truncated := ⟨_, feTake_fatal_of_lacks h, rfl⟩

/-- A read of `n` bytes where fewer than `n + m` are left: it fails itself, or what follows it lacks `m`. -/
theorem feTake_andThen_truncated {α : Type} {n : Nat} (m : Nat) {s : State} {f : List Byte → State → Res α} (h : s.Lacks (n + m))
    (hf : ∀ bs t, t.Lacks m → (f bs t).Truncated) : ((feTake n s).andThen f).Truncated := by
  rcases feTake_cases n s with ⟨_, e⟩ | ⟨hshort, _⟩
  · rw [e]
    exact hf _ _ h.skip
  · exact (feTake_truncated hshort).andThen f

theorem feExpect_truncated {v : Half} {w : FeWarning} {s : State} (h : s.Lacks 2) : (feExpect v w s).Truncated :=
  (feTake_truncated h).andThen _

theorem feExpect_andThen_truncated {α : Type} {v : Half} {w : FeWarning} (m : Nat) {s : State} {f : Half → State → Res α}
    (h : s.Lacks (2 + m)) (hf : ∀ a t, t.Lacks m → (f a t).Truncated) : ((feExpect v w s).andThen f).Truncated := by
  rcases feTake_cases 2 s with ⟨_, e⟩ | ⟨hshort, _⟩
  · rw [feExpect, e]
    refine hf _ _ ?_
    split
    · exact h.skip
    · exact h.skip
  · exact (feExpect_truncated hshort).andThen f

/-! ## Fixed parts -/

theorem feMagic_truncated {s : State} (h : s.Lacks 4) : (feMagic s).Truncated := (feTake_truncated h).andThen _

theorem feSoi_truncated {s : State} (h : s.Lacks 2) : (feSoi s).Truncated :=
  (feExpect_truncated (s := { s with fe := { s.fe with warnings := [] } }) h).andThen _

theorem feDht_truncated {s : State} (h : s.Lacks 4) : (feDht s).Truncated :=
  feExpect_andThen_truncated 2 h fun _ _ hlength => (feTake_truncated hlength).andThen _

theorem feB1_truncated {s : State} (h : s.Lacks 13) : (feB1 s).Truncated :=
  feExpect_andThen_truncated 11 h fun _ _ hlength =>
  feExpect_andThen_truncated 9 hlength fun _ _ hskip =>
  feTake_andThen_truncated 8 hskip fun _ _ hcount =>
  feTake_andThen_truncated 4 hcount fun _ _ htok => (feTake_truncated htok).andThen _

theorem feB2_truncated {s : State} (h : s.Lacks 8) : (feB2 s).Truncated :=
  feExpect_andThen_truncated 6 h fun _ _ hlength =>
  feExpect_andThen_truncated 4 hlength fun _ _ hcount => (feTake_truncated hcount).andThen _

/-- Settles O41: in the fixed part by counting the bytes left, behind it by the chunk's own count (R252). -/
theorem shortChunksAreTruncatedInput : Obligations.ShortChunksAreTruncatedInput := by
  intro s left truncated
  have hdht (h : (feDht s).Truncated) : truncated .dht := h.finish (feDht_hostSide s)
  have hb1 (h : (feB1 s).Truncated) : truncated .b1 := h.finish (feB1_hostSide s)
  have hb2 (h : (feB2 s).Truncated) : truncated .b2 := h.finish (feB2_hostSide s)
  refine ⟨fun h => (feMagic_truncated (State.lacks_of_drop h)).finish (feMagic_hostSide s),
    fun h => (feSoi_truncated (State.lacks_of_drop h)).finish (feSoi_hostSide s),
    fun h => hdht (feDht_truncated (State.lacks_of_drop h)), fun h => hb1 (feB1_truncated (State.lacks_of_drop h)),
    fun h => hb2 (feB2_truncated (State.lacks_of_drop h)), ?_, ?_, ?_⟩
  · intro b0 b1 h l body hleft hshort
    obtain ⟨hbody, e⟩ := feDht_of_fixedPart (.of_drop hleft nofun)
    rw [beHalf_toNat, if_neg (by omega)] at e
    exact hdht (e ▸ (feTake_truncated (hbody.lacks (by omega))).andThen _)
  · intro b0 b1 h l skip c3 c2 c1 c0 n3 n2 n1 n0 body hleft hshort
    obtain ⟨hbody, e⟩ := feB1_of_fixedPart (.of_drop hleft nofun)
    rw [← beWord_toNat] at hshort
    exact hb1 (e ▸ (feTake_truncated (hbody.lacks hshort)).andThen _)
  · intro b0 b1 h l c3 c2 c1 c0 body hleft hshort
    obtain ⟨hbody, e⟩ := feB2_of_fixedPart (.of_drop hleft nofun)
    rw [← beWord_toNat] at hshort
    exact hb2 (e ▸ (feTake_truncated (hbody.lacks hshort)).andThen _)

end Sys2Proof.Machine
end

section
/-! SUPPORT. The magic and the end of a segment (R250, R262, R265): no step brings the front end back to the magic. -/

namespace Sys2Proof.Machine

/-! ## The end-of-input check -/

theorem State.feNextSegment_of_lt {s : State} (h : s.fe.pos < s.fe.stream.length) : s.feNextSegment = s.fePhase .soi := if_pos h

theorem State.feNextSegment_of_eq {s : State} (h : s.fe.pos = s.fe.stream.length) : s.feNextSegment = s.fePhase .ended :=
  if_neg (Nat.not_lt_of_ge h.ge)

/-- After a segment a front-end move is the end-of-input check (R262). -/
theorem fetchParse_after_segment {s : State} (h : s.fe.phase = .ready ∨ s.fe.phase = .taken) : fetchParse s = .moved s.feNextSegment := by
  rcases h with h | h <;> simp only [fetchParse, h]

/-- After the end or an error a front-end move does nothing (R265, log 27). -/
theorem fetchParse_after_end {s : State} (h : s.fe.phase = .ended ∨ ∃ e, s.fe.phase = .failed e) : fetchParse s = .moved s := by
  rcases h with h | ⟨e, h⟩ <;> simp only [fetchParse, h]

/-- Settles O44: the check compares the position with the stream's length (R262, R265). -/
theorem endOfInputIsChecked : Obligations.EndOfInputIsChecked := by
  intro s rest hparse
  refine ⟨fun hsegment => ?_, fun hend => step_moved ((fetch_of_parse hparse).trans (fetchParse_after_end hend))⟩
  have hstep : step s = .next ({ s with agenda := rest } : State).feNextSegment :=
    step_moved ((fetch_of_parse hparse).trans (fetchParse_after_segment hsegment))
  exact ⟨fun hmore => hstep.trans (congrArg _ (State.feNextSegment_of_lt hmore)),
    fun hnone => hstep.trans (congrArg _ (State.feNextSegment_of_eq hnone))⟩

/-! ## Past the magic -/

/-- The operation ends, with or without an error, where the front end is past the magic. -/
def Res.PastMagic {α : Type} (r : Res α) : Prop :=
  match r with
  | .done _ t => t.fe.phase ≠ .magic
  | .fatal t => t.fe.phase ≠ .magic

theorem Res.PastMagic.andThen {α β : Type} {r : Res α} {f : α → State → Res β} (h : r.PastMagic)
    (hf : ∀ a t, t.fe.phase ≠ .magic → (f a t).PastMagic) : (r.andThen f).PastMagic := by
  cases r with
  | done a t => exact hf a t h
  | fatal t => exact h

theorem Res.PastMagic.finish {α : Type} {t : State} {r : Res α} (h : r.PastMagic) (e : r.finish id = .next t) : t.fe.phase ≠ .magic := by
  rcases Res.finish_cases e with ⟨a, u, rfl, rfl⟩ | rfl
  · exact h
  · exact h

theorem feTake_pastMagic {n : Nat} {s : State} (h : s.fe.phase ≠ .magic) : (feTake n s).PastMagic := by
  rcases feTake_cases n s with ⟨_, e⟩ | ⟨_, e⟩ <;> rw [e]
  · exact h
  · exact nofun

theorem feExpect_pastMagic {v : Half} {w : FeWarning} {s : State} (h : s.fe.phase ≠ .magic) : (feExpect v w s).PastMagic := by
  refine (feTake_pastMagic h).andThen fun bs t ht => ?_
  simp only [Res.PastMagic]
  split
  · exact ht
  · exact ht

theorem feSoi_pastMagic {s : State} (h : s.fe.phase ≠ .magic) : (feSoi s).PastMagic :=
  (feExpect_pastMagic (s := { s with fe := { s.fe with warnings := [] } }) h).andThen fun _ _ _ => nofun

theorem feDht_pastMagic {s : State} (h : s.fe.phase ≠ .magic) : (feDht s).PastMagic := by
  refine (feExpect_pastMagic h).andThen fun _ t ht => (feTake_pastMagic ht).andThen fun _ u hu => ?_
  dsimp only
  split
  · exact nofun
  · exact (feTake_pastMagic hu).andThen fun _ _ _ => nofun

theorem feB1_pastMagic {s : State} (h : s.fe.phase ≠ .magic) : (feB1 s).PastMagic :=
  (feExpect_pastMagic h).andThen fun _ _ h1 => (feExpect_pastMagic h1).andThen fun _ _ h2 =>
  (feTake_pastMagic h2).andThen fun _ _ h3 => (feTake_pastMagic h3).andThen fun _ _ h4 =>
  (feTake_pastMagic h4).andThen fun _ _ h5 => (feTake_pastMagic h5).andThen fun _ _ _ => nofun

theorem feB2_pastMagic {s : State} (h : s.fe.phase ≠ .magic) : (feB2 s).PastMagic :=
  (feExpect_pastMagic h).andThen fun _ _ h1 => (feExpect_pastMagic h1).andThen fun _ _ h2 =>
  (feTake_pastMagic h2).andThen fun _ _ h3 => (feTake_pastMagic h3).andThen fun _ _ _ => nofun

/-- The end-of-input check starts the next segment behind the magic (R262). -/
theorem State.feNextSegment_pastMagic (s : State) : s.feNextSegment.fe.phase ≠ .magic := by
  unfold State.feNextSegment
  split
  · exact nofun
  · exact nofun

theorem fetchParse_pastMagic {s t : State} (h : s.fe.phase ≠ .magic) (ha : (fetchParse s).Answers t) : t.fe.phase ≠ .magic := by
  unfold fetchParse at ha
  split at ha
  case h_1 hmagic => exact absurd hmagic h
  case h_2 => exact (feSoi_pastMagic h).finish (NextOp.answers_run ha)
  case h_3 => exact (feDht_pastMagic h).finish (NextOp.answers_run ha)
  case h_4 => exact (feB1_pastMagic h).finish (NextOp.answers_run ha)
  case h_5 => exact (feB2_pastMagic h).finish (NextOp.answers_run ha)
  case h_6 | h_7 => exact NextOp.answers_moved ha ▸ s.feNextSegment_pastMagic
  case h_8 | h_9 => exact NextOp.answers_moved ha ▸ h

theorem State.startCommand_fe (s : State) : s.startCommand.fe = s.fe := by
  rcases s.startCommand_cases with ⟨_, e⟩ | ⟨_, e⟩ <;> rw [e]
  rfl

theorem State.writeWord_fe (s : State) (offset data : Word) : (s.writeWord offset data).fe = s.fe := by
  rcases s.writeWord_cases offset data with e | ⟨_, e | e | e | e | e | e⟩ <;> rw [e]
  rfl

/-- A host write leaves the front end alone (R222 to R225). -/
theorem exec_hostWrite_fe {s t : State} {offset data : Word} (h : exec (decodeHostWrite offset data) s = .next t) : t.fe = s.fe := by
  unfold decodeHostWrite at h
  split at h <;> cases h
  · exact s.startCommand_fe
  · exact s.writeWord_fe offset data

/-- The handover takes the segment, or leaves the front end alone (R226, R263, R264). -/
theorem fetchSegment_fe {s t : State} {outCap : Word} (h : (fetchSegment outCap s).Answers t) :
    t.fe = { s.fe with phase := .taken } ∨ t.fe = s.fe := by
  unfold fetchSegment at h
  split at h
  case h_1 =>
    cases NextOp.answers_run h
    exact .inl (State.startCommand_fe _)
  all_goals exact .inr (congrArg State.fe (NextOp.answers_moved h))

theorem State.KeepsHostSide.fe {s t : State} (h : s.KeepsHostSide t) : t.fe = s.fe := (congrArg State.fe h :)

/-- What a step does to the front end: a front-end move, a handover, or nothing (R264). -/
theorem step_fe_cases {s t : State} (h : step s = .next t) :
    (∃ rest, s.agenda = .parse :: rest ∧ (fetchParse { s with agenda := rest }).Answers t) ∨
    t.fe = { s.fe with phase := .taken } ∨ t.fe = s.fe := by
  have hf : (fetch s).Answers t := step_next_cases h
  unfold fetch at hf
  split at hf
  case h_1 | h_8 => exact .inr (.inr (fetchBlock_keepsHostSide hf).fe)
  case h_2 => cases NextOp.answers_run hf; exact .inr (.inr (State.hostReadReg_fe ..))
  case h_3 rest _ => exact .inr (.inr (exec_hostWrite_fe (s := { s with agenda := rest }) (NextOp.answers_run hf)))
  case h_4 p i v rest _ =>
    split at hf
    · rcases hf with ⟨_, _, e, _⟩ | e <;> cases e
    · cases NextOp.answers_moved hf
      exact .inr (.inr (congrArg State.fe (State.fillByte_frame _ p i v) :))
  case h_5 p i rest _ =>
    cases NextOp.answers_moved hf
    exact .inr (.inr (congrArg State.fe (State.hostReadByte_frame _ p i) :))
  case h_6 rest hparse => exact .inl ⟨rest, hparse, hf⟩
  case h_7 rest _ =>
    split at hf
    · exact .inr (.inr (fetchBlock_keepsHostSide hf).fe)
    · exact .inr (fetchSegment_fe (s := { s with agenda := rest }) hf)
  case h_9 =>
    split at hf
    · exact .inr (.inr (fetchBlock_keepsHostSide hf).fe)
    · cases NextOp.answers_moved hf; exact .inr (.inr rfl)
  case h_10 => cases NextOp.answers_moved hf; exact .inr (.inr rfl)

/-- A step keeps the front end past the magic (R250). -/
theorem step_pastMagic {s t : State} (hstep : step s = .next t) (h : s.fe.phase ≠ .magic) : t.fe.phase ≠ .magic := by
  rcases step_fe_cases hstep with ⟨rest, _, hparse⟩ | htaken | hsame
  · exact fetchParse_pastMagic (s := { s with agenda := rest }) h hparse
  · rw [htaken]; exact nofun
  · rw [hsame]; exact h

/-! ## The magic -/

theorem exec_magic (s : State) : exec .magic s = (feMagic s).finish id := rfl

/-- The word read is the magic, or the stream's decode ends (R250). -/
theorem exec_magic_of_bytes {s : State} {b0 b1 b2 b3 : Byte} {rest : List Byte} (hleft : s.Unread ([b0, b1, b2, b3] ++ rest)) :
    exec .magic s = .next
      (if b0 = 0x43#8 ∧ b1 = 0x52#8 ∧ b2 = 0x4F#8 ∧ b3 = 0x4D#8 then (s.feSkip 4).fePhase .soi else (s.feSkip 4).feFail .badMagic) := by
  have hmagic : feMagic s = if beWord [b0, b1, b2, b3] = magicWord then .done () ((s.feSkip 4).fePhase .soi)
      else .fatal ((s.feSkip 4).feFail .badMagic) := hleft.take_andThen 4 rfl _
  rw [exec_magic, hmagic, apply_ite Host.Outcome.next]
  simp only [beWord_eq_magicWord_iff]
  split <;> rfl

/-- Settles O36: the magic's four bytes against the word read, and the steps that keep the front end past it (R250, R252, R265). -/
theorem magicIsCheckedOnce : Obligations.MagicIsCheckedOnce := by
  intro s
  refine ⟨fun rest hleft => ?_, fun b0 b1 b2 b3 rest hleft hne => ?_, fun hshort => ?_, fun t hstep hmagic => ?_⟩
  · rw [exec_magic_of_bytes (.of_drop hleft nofun), if_pos ⟨rfl, rfl, rfl, rfl⟩]
    rfl
  · rw [exec_magic_of_bytes (.of_drop hleft nofun), if_neg hne]
    exact ⟨_, rfl, rfl, rfl⟩
  · have hmagic : exec .magic s = .next (s.feFail .truncatedInput) := by
      rw [exec_magic, feMagic, feTake_fatal_of_lacks (State.lacks_of_drop hshort)]
      rfl
    exact ⟨_, hmagic, rfl, rfl⟩
  · by_contra hpast
    exact step_pastMagic hstep hpast hmagic

end Sys2Proof.Machine
end

section
/-! SUPPORT. The ways into ERROR: what every instruction that enters it has written, and the context it records (R284 to R286). -/

namespace Sys2Proof.Machine

/-- How an instruction leads from s to a state in ERROR: by what had been written before the error was
raised, and by whom (R131, R158, R200, R234). -/
inductive State.ErrorEntry (s : State) : Instr → State → Prop where
  /-- The record of BUILD_TABLE ends early or is oversubscribed (R121, R124, R125). -/
  | record {kind : ErrKind} (T : Table) (p : Word) (w : BitVec 3) : kind = .htTruncated ∨ kind = .tableOversubscribed →
      s.ErrorEntry .buildTable ((s.building s.buildIdx T p w).raiseFatal kind (spaceIndex s.buildIdx) 0)
  /-- The last BUILD_TABLE completes, and the token store is too small (R229, R234). -/
  | built (T : Table) (p : Word) (w : BitVec 3) :
      s.ErrorEntry .buildTable ((s.building s.buildIdx T p w).raiseFatal .tokenCapacity 0#32 0)
  /-- The token store is too small (R234). -/
  | capacity : s.ErrorEntry .buildToDecode (s.raiseFatal .tokenCapacity 0#32 0)
  /-- A lookup fails over the cursor that the refills left (R154, R155, R158). -/
  | lookup {i : Instr} {k : CodeSpace} {kind : ErrKind} (pos : Nat) (buf : Word) (cnt : BitVec 5) (sym : Byte) :
      i = .decodeToken ∨ i = .decodeSymbol k → kind = .invalidPrefixCode ∨ kind = .outOfCompressedData →
      s.ErrorEntry i { s with
        cdPos := pos, bitBuf := buf, bitCnt := cnt, symOut := sym, errKind := kind, errIndex := s.tokIdx, errTable := k, phase := .error }
  /-- A token fails before its move (R193, R194, R197, R200). -/
  | token {i : Instr} {kind : ErrKind} : i = .expandToken ∨ (∃ c, i = .lit c) ∨ (∃ o c, i = .copy o c) →
      kind = .outOfLiteralData ∨ kind = .outputOverflow ∨ kind = .invalidReference → s.ErrorEntry i (s.raiseFatal kind s.tokIdx 0)

theorem State.ErrorEntry.of_eq {s t u : State} {i : Instr} (h : t = u) (hu : s.ErrorEntry i u) : s.ErrorEntry i t := h ▸ hu

/-! ## The instructions that raise an error -/

theorem State.building_phase (s : State) (k : CodeSpace) (T : Table) (p : Word) (w : BitVec 3) : (s.building k T p w).phase = s.phase :=
  (congrArg State.phase (s.building_frame k T p w) :)

theorem State.buildToDecode_of_error {s : State} (h : s.buildToDecode.phase = .error) :
    s.buildToDecode = s.raiseFatal .tokenCapacity 0#32 0 := by
  rcases Nat.lt_or_ge s.maxTokens.toNat s.tokCount.toNat with hfull | hfits
  · exact State.buildToDecode_of_lt hfull
  · rw [State.buildToDecode_of_le hfits] at h
    cases h

/-- Behind a completed build only the token-store check raises an error (R229, R234). -/
theorem State.afterBuild_of_error {s : State} (hs : s.phase ≠ .error) (h : s.afterBuild.phase = .error) :
    s.afterBuild = s.raiseFatal .tokenCapacity 0#32 0 := by
  obtain hidx | hidx := eq_or_ne s.buildIdx 2
  · rw [State.afterBuild_of_two hidx] at h ⊢
    exact State.buildToDecode_of_error h
  · rw [State.afterBuild_of_ne_two hidx] at h
    exact absurd h hs

section Raises

variable {s t : State} (hs : s.phase ≠ .error) (ht : t.phase = .error)
include hs ht

theorem exec_buildTable_errorEntry (h : exec .buildTable s = .next t) : s.ErrorEntry .buildTable t := by
  rcases buildTable_cases s.buildIdx s with ⟨T, p, w, e, _, _⟩ | ⟨p, w, e⟩ | ⟨T, p, w, e, _⟩
  · cases (exec_buildTable_of_done e).symm.trans h
    exact .of_eq (State.afterBuild_of_error ((s.building_phase _ T p w).trans_ne hs) ht) (.built T p w)
  · cases (exec_buildTable_of_fatal e).symm.trans h
    exact .record Table.cleared p w (.inl rfl)
  · cases (exec_buildTable_of_fatal e).symm.trans h
    exact .record T p w (.inr rfl)

theorem exec_decodeSymbol_errorEntry {k : CodeSpace} (h : exec (.decodeSymbol k) s = .next t) : s.ErrorEntry (.decodeSymbol k) t := by
  rcases Res.finish_cases h with ⟨b, u, e, rfl⟩ | e
  · exact absurd ((decodeSymbol_done_movesCursor e).phase.symm.trans ht) hs
  · obtain ⟨hkind, hframe⟩ := (State.MovesCursor.refl s).decodeSymbol_fatal e
    exact .of_eq hframe (.lookup _ _ _ _ (.inr rfl) hkind)

/-- A DECODE_TOKEN that enters ERROR names in ERR_TABLE the first lookup that fails (R175). -/
theorem exec_decodeToken_of_error (h : exec .decodeToken s = .next t) :
    s.ErrorEntry .decodeToken t ∧ FirstFailingLookup s t t.errTable := by
  rcases decodeTokenFaultsKeepTheStore s t h with ⟨tk, hstored⟩ | ⟨k, hkind, hframe, hfirst⟩
  · exact absurd ((congrArg State.phase hstored :).symm.trans ht) hs
  · have htable : t.errTable = k := (congrArg State.errTable hframe :)
    exact ⟨.of_eq hframe (.lookup _ _ _ _ (.inl rfl) hkind), htable ▸ hfirst hs⟩

theorem exec_lit_errorEntry {c : Byte} (h : exec (.lit c) s = .next t) : s.ErrorEntry (.lit c) t := by
  change (tokenLit c s).finish State.advanceToken = .next t at h
  rcases tokenLit_cases c s with ⟨_, e⟩ | ⟨_, _, e⟩ | ⟨_, _, e⟩ <;> rw [e] at h <;> cases h
  · exact .token (.inr (.inl ⟨c, rfl⟩)) (.inl rfl)
  · exact .token (.inr (.inl ⟨c, rfl⟩)) (.inr (.inl rfl))
  · exact absurd ht hs

theorem exec_copy_errorEntry {o : Half} {c : Byte} (h : exec (.copy o c) s = .next t) : s.ErrorEntry (.copy o c) t := by
  change (tokenCopy o c s).finish State.advanceToken = .next t at h
  rcases tokenCopy_cases o c s with ⟨_, e⟩ | ⟨_, _, e⟩ | ⟨_, _, e⟩ <;> rw [e] at h <;> cases h
  · exact .token (.inr (.inr ⟨o, c, rfl⟩)) (.inr (.inr rfl))
  · exact .token (.inr (.inr ⟨o, c, rfl⟩)) (.inr (.inl rfl))
  · exact absurd ((copyBytes_phase _ _ s).symm.trans ht) hs

theorem exec_expandToken_errorEntry (h : exec .expandToken s = .next t) : s.ErrorEntry .expandToken t := by
  change (expandToken s).finish State.advanceToken = .next t at h
  rcases expandToken_effect s with ⟨m, len, pos, e, _⟩ | ⟨kind, hkind, e⟩ <;> rw [e] at h <;> cases h
  · exact absurd ht hs
  · exact .token (.inl rfl) hkind

end Raises

/-! ## The instructions that raise none -/

/-- A front-end operation leaves STATE as it is (R264). -/
theorem Res.HostSide.phase_ne_error {α : Type} {s t : State} {r : Res α} (hside : r.HostSide s) (hs : s.phase ≠ .error)
    (h : r.finish id = .next t) : t.phase ≠ .error :=
  (congrArg State.phase (hside.finish h) :).trans_ne hs

theorem State.startCommand_phase_ne_error {s : State} (hs : s.phase ≠ .error) : s.startCommand.phase ≠ .error := by
  rcases s.startCommand_cases with ⟨_, e⟩ | ⟨_, e⟩ <;> rw [e]
  · exact hs
  · exact nofun

theorem State.writeWord_phase_ne_error {s : State} (hs : s.phase ≠ .error) (offset data : Word) :
    (s.writeWord offset data).phase ≠ .error := by
  rcases s.writeWord_cases offset data with e | ⟨_, e | e | e | e | e | e⟩ <;> rw [e]
  case inr.inr.inr.inr.inr.inr => exact nofun
  all_goals exact hs

/-- Every instruction that enters ERROR does so in one of the five ways (R284). -/
theorem exec_errorEntry {i : Instr} {s t : State} (hs : s.phase ≠ .error) (h : exec i s = .next t) (ht : t.phase = .error) :
    s.ErrorEntry i t := by
  cases i with
  | buildTable => exact exec_buildTable_errorEntry hs ht h
  | buildToDecode => cases h; exact .of_eq (State.buildToDecode_of_error ht) .capacity
  | decodeToken => exact (exec_decodeToken_of_error hs ht h).1
  | decodeSymbol k => exact exec_decodeSymbol_errorEntry hs ht h
  | lit c => exact exec_lit_errorEntry hs ht h
  | copy o c => exact exec_copy_errorEntry hs ht h
  | expandToken => exact exec_expandToken_errorEntry hs ht h
  | nop => cases h; exact absurd ht hs
  | decodeToExpand | complete => cases h; cases ht
  | start => cases h; exact absurd ht (State.startCommand_phase_ne_error hs)
  | regWrite offset data => cases h; exact absurd ht (State.writeWord_phase_ne_error hs offset data)
  | regRead offset => cases h; exact absurd ((s.hostReadReg_phase offset).symm.trans ht) hs
  | magic => exact absurd ht ((feMagic_hostSide s).phase_ne_error hs h)
  | soi => exact absurd ht ((feSoi_hostSide s).phase_ne_error hs h)
  | dht => exact absurd ht ((feDht_hostSide s).phase_ne_error hs h)
  | b1 => exact absurd ht ((feB1_hostSide s).phase_ne_error hs h)
  | b2 => exact absurd ht ((feB2_hostSide s).phase_ne_error hs h)

/-! ## What an entry keeps -/

/-- All that may differ after an error entry are the error, STATE, and what a build or a lookup writes (R131, R158, R284). -/
def State.KeepsButError (s t : State) : Prop :=
  t = { s with
    phase := .error, errKind := t.errKind, errIndex := t.errIndex, errTable := t.errTable
    warn := t.warn, htPos := t.htPos, t0 := t.t0, t1 := t.t1, t2 := t.t2
    cdPos := t.cdPos, bitBuf := t.bitBuf, bitCnt := t.bitCnt, symOut := t.symOut }

/-- The bit cursor and the model's `symOut` (log 8) are as they were. -/
def State.SameCursor (s t : State) : Prop := t.cdPos = s.cdPos ∧ t.bitBuf = s.bitBuf ∧ t.bitCnt = s.bitCnt ∧ t.symOut = s.symOut

theorem State.building_raiseFatal_keeps (s : State) (k : CodeSpace) (T : Table) (p : Word) (w : BitVec 3) (kind : ErrKind) (index : Word)
    (table : CodeSpace) :
    s.KeepsButError ((s.building k T p w).raiseFatal kind index table) ∧ s.SameCursor ((s.building k T p w).raiseFatal kind index table) := by
  match k with
  | 0 => exact ⟨rfl, rfl, rfl, rfl, rfl⟩
  | 1 => exact ⟨rfl, rfl, rfl, rfl, rfl⟩
  | 2 => exact ⟨rfl, rfl, rfl, rfl, rfl⟩

theorem State.table_building_raiseFatal (s : State) {j k : CodeSpace} (h : j ≠ k) (T : Table) (p : Word) (w : BitVec 3) (kind : ErrKind)
    (index : Word) (table : CodeSpace) : ((s.building k T p w).raiseFatal kind index table).table j = s.table j :=
  (s.table_building k j T p w).trans (if_neg h)

/-- Settles O13: each of the five ways into ERROR is an error raised over the writes of a build, over those of a lookup, or over none
(R131, R158, R200, R284). -/
theorem errorEntryKeepsTheRest : Obligations.ErrorEntryKeepsTheRest := by
  intro i s t hs h ht
  cases exec_errorEntry hs h ht with
  | record T p w =>
    obtain ⟨hkeeps, hcursor⟩ := s.building_raiseFatal_keeps s.buildIdx T p w _ (spaceIndex s.buildIdx) 0
    exact ⟨hkeeps, fun hi => absurd rfl hi, fun k hk => s.table_building_raiseFatal hk .., fun _ _ => hcursor⟩
  | built T p w =>
    obtain ⟨hkeeps, hcursor⟩ := s.building_raiseFatal_keeps s.buildIdx T p w .tokenCapacity 0#32 0
    exact ⟨hkeeps, fun hi => absurd rfl hi, fun k hk => s.table_building_raiseFatal hk .., fun _ _ => hcursor⟩
  | lookup pos buf cnt sym hi =>
    exact ⟨rfl, fun _ => ⟨rfl, rfl, rfl, rfl, rfl⟩, fun _ _ => rfl,
      fun htoken hsymbol => (hi.elim htoken (hsymbol _)).elim⟩
  | capacity | token => exact ⟨rfl, fun _ => ⟨rfl, rfl, rfl, rfl, rfl⟩, fun _ _ => rfl, fun _ _ => ⟨rfl, rfl, rfl, rfl⟩⟩

/-- Settles O14: the context is read off the five ways into ERROR, and DECODE_TOKEN's code space off its first failing lookup (R175, R285). -/
theorem errorContextNamesTheOperation : Obligations.ErrorContextNamesTheOperation := by
  intro i s t hs h ht
  refine ⟨?context, fun hi => (exec_decodeToken_of_error hs ht (hi ▸ h)).2⟩
  cases exec_errorEntry hs h ht with
  | record T p w hkind =>
    have hindex : spaceIndex s.buildIdx = Word.store (s.building s.buildIdx T p w).buildIdx.val :=
      congrArg spaceIndex (s.building_buildIdx s.buildIdx T p w).symm
    rcases hkind with rfl | rfl <;> exact ⟨rfl, hindex, rfl⟩
  | built | capacity => exact ⟨rfl, rfl⟩
  | lookup pos buf cnt sym hi hkind => rcases hkind with rfl | rfl <;> exact ⟨rfl, hi⟩
  | token _ hkind => rcases hkind with rfl | rfl | rfl <;> exact ⟨rfl, rfl⟩

end Sys2Proof.Machine
end

section
/-! PROOFS. The reset: what the registers read after it, what it keeps, and the invariant in the state it leaves (R310, R311). -/

namespace Sys2Proof.Machine

/-! ## Registers after a reset -/

/-- No register holds anything after reset (R310). -/
@[simp] theorem State.regValue_reset (r : Reg) : State.reset.regValue r = 0#32 := by cases r <;> rfl

/-- The block's reset leaves the registers those of the reset state, whatever they held (R310). -/
@[simp] theorem State.regValue_resetBlock (s : State) (r : Reg) : s.resetBlock.regValue r = State.reset.regValue r := by cases r <;> rfl

/-- Where every register holds 0, every offset reads 0: an unmapped one does so anyway (R41). -/
theorem State.readWord_eq_zero {s : State} (h : ∀ r, s.regValue r = 0#32) (offset : Word) : s.readWord offset = 0#32 := by
  unfold State.readWord
  split
  · exact h _
  · rfl

/-! ## The statements -/

/-- Settles O31: no register of the reset state holds anything, and an unmapped offset reads 0 anyway (R41, R310). -/
theorem resetRegistersReadZero : Obligations.ResetRegistersReadZero :=
  fun offset => ⟨State.readWord_eq_zero State.regValue_reset offset, rfl, rfl⟩

/-- Settles O32: the step is the block's reset of the state without the move, whose registers are those of the reset state and which
keeps the rest (R310, R311, log 25). -/
theorem resetMoveClearsTheRegisters : Obligations.ResetMoveClearsTheRegisters := by
  intro s rest hagenda
  refine ⟨_, step_reset hagenda, State.readWord_eq_zero fun r => ?_, rfl, rfl, rfl, rfl, rfl, rfl, rfl, rfl, rfl, rfl⟩
  rw [State.regValue_resetBlock, State.regValue_reset]

/-- Settles O46: the reset state is idle, its memories and tokens are in the canonical form, and nothing is in error or buffered (R310). -/
theorem resetMeetsTheInvariant : Obligations.ResetMeetsTheInvariant :=
  .of_idle (hidle := rfl) (memories := reset_memories_wf) (tokens := rfl) (errKind := ⟨fun _ => nofun, fun _ => rfl⟩)
    (errContext := fun _ => ⟨rfl, rfl⟩) (errTable := fun _ _ => rfl) (bits := ⟨Nat.zero_le _, Nat.zero_le _⟩) (done := nofun)

end Sys2Proof.Machine
end
